-- ==== Sys2Proof/Word.lean ====
section
/-! DEFINITION. The word types of the engine (00_scope.md R8, R12, R16): every value is an unsigned bit vector. -/

namespace Sys2Proof

/-- An 8-bit byte (R16). -/
abbrev Byte := BitVec 8

/-- A 32-bit data word (R8 `WORD_W`, R16). -/
abbrev Word := BitVec 32

/-- A 32-bit request address (R8 `REQ_ADDR_W`, 92_eei_decisions.md D1). -/
abbrev Addr := BitVec 32

/-- A 64-bit counter (R8 `CYCLE_W`, 92_eei_decisions.md D9). -/
abbrev Count := BitVec 64

end Sys2Proof
end

