-- ==== Sys2Proof/Syntax.lean ====
section
/-! DEFINITION. The commands of the engine, one constructor per row of opcode_table.json (30_encoding.md R95), with the
input bundles they are read from (R91, R92). -/

namespace Sys2Proof

/-- The replacement policy (00_scope.md R2, R9; 30_encoding.md R92 bit 192: 0 = DM, 1 = W4). -/
inductive Policy where
  | dm
  | w4
  deriving DecidableEq, Repr

/-- The configuration record `{policy, L, N, cL, mL, B}` (00_scope.md R9, R10). -/
structure RunConfig where
  policy : Policy
  /-- `L`, the line size in bytes. -/
  lineSize : BitVec 32
  /-- `N`, the number of lines, all ways of all sets. -/
  numLines : BitVec 32
  /-- `cL`. -/
  cacheLatency : BitVec 32
  /-- `mL`. -/
  memoryLatency : BitVec 32
  /-- `B`. -/
  budget : Count
  deriving DecidableEq, Repr

/-- The fields of the `STEP` bundle (30_encoding.md R91). -/
structure StepIn where
  rst : Bool
  xb : Bool
  v : Bool
  w : Bool
  addr : Addr
  data : Word
  deriving DecidableEq, Repr

/-- What the host puts on the two input ports for one cycle: the 68-bit `STEP` bundle and the 193-bit `CONFIG` bundle, which
is sampled only under RESET (R90 to R92). -/
structure PortInput where
  step : BitVec 68
  config : BitVec 193
  deriving DecidableEq, Repr

/-- The commands (R95). A command carries the fields some rule reads: RESET and IDLE read none of the request's fields (R97);
READ carries `data` because `latched` and a recorded STEP word hold it (R217, R284; DEDUCED, log 17). -/
inductive Instr where
  /-- RESET with its CONFIG record (70_reset_and_hazards.md R310). -/
  | reset (c : RunConfig)
  /-- READ: a new read request (44_timing_engine.md R225). -/
  | read (xb : Bool) (addr : Addr) (data : Word)
  /-- WRITE: a new write request (R226). -/
  | write (xb : Bool) (addr : Addr) (data : Word)
  /-- IDLE: no request (R227). -/
  | idle
  /-- CONTINUE: any word with `rst = 0` while the engine is busy (R228). -/
  | cont (xb v w : Bool) (addr : Addr) (data : Word)
  deriving DecidableEq, Repr

end Sys2Proof
end

