-- ==== Sys2Proof/WellFormed.lean ====
section
/-! DEFINITION. Which commands a `STEP` word can select (30_encoding.md R95): every value of every operand field is legal
(R97), so the one condition is the engine's busy flag. -/

namespace Sys2Proof

/-- `i` is a command that a word selects while the engine is busy (`busy = true`) or is not (R95). READ, WRITE and IDLE need
an engine that is not busy; CONTINUE needs a busy one; RESET is selected in every state. An illegal CONFIG record is still a
RESET command (R98): its meaning refuses the configuration. -/
def Instr.wf (busy : Bool) : Instr → Bool
  | .reset _ => true
  | .read _ _ _ => !busy
  | .write _ _ _ => !busy
  | .idle => !busy
  | .cont _ _ _ _ _ => busy

end Sys2Proof
end

