-- ==== Sys2Proof/Decode.lean ====
section
/-! DEFINITION. The bit layouts of the `STEP` and `CONFIG` bundles (30_encoding.md R91, R92), the command map (R95, R96), the
decoder and the encoder. -/

namespace Sys2Proof

/-- The fields of a 68-bit `STEP` word: `{rst, xb, v, w, addr, data}`, high to low (R91). -/
def StepIn.ofBits (b : BitVec 68) : StepIn where
  rst := b.getLsbD 67
  xb := b.getLsbD 66
  v := b.getLsbD 65
  w := b.getLsbD 64
  addr := b.extractLsb' 32 32
  data := b.extractLsb' 0 32

/-- The 68-bit `STEP` word `T_AAAAAAAA_DDDDDDDD` of the fields, with `T = 8·rst + 4·xb + 2·v + w` (R91). -/
def StepIn.bits (i : StepIn) : BitVec 68 :=
  BitVec.ofNat 68 ((8 * i.rst.toNat + 4 * i.xb.toNat + 2 * i.v.toNat + i.w.toNat) * 2 ^ 64 + i.addr.toNat * 2 ^ 32
    + i.data.toNat)

/-- The policy bit (R92 bit 192). -/
def Policy.ofBit (b : Bool) : Policy := if b then .w4 else .dm

/-- The policy bit (R92 bit 192). -/
def Policy.bit : Policy → Bool
  | .dm => false
  | .w4 => true

/-- The fields of a 193-bit `CONFIG` word: `{policy, L, N, cL, mL, B}`, high to low (R92). -/
def RunConfig.ofBits (b : BitVec 193) : RunConfig where
  policy := Policy.ofBit (b.toNat / 2 ^ 192 % 2 == 1)
  lineSize := BitVec.ofNat 32 (b.toNat / 2 ^ 160)
  numLines := BitVec.ofNat 32 (b.toNat / 2 ^ 128)
  cacheLatency := BitVec.ofNat 32 (b.toNat / 2 ^ 96)
  memoryLatency := BitVec.ofNat 32 (b.toNat / 2 ^ 64)
  budget := BitVec.ofNat 64 b.toNat

/-- The 193-bit `CONFIG` word of the record (R92). -/
def RunConfig.bits (c : RunConfig) : BitVec 193 :=
  BitVec.ofNat 193 (c.policy.bit.toNat * 2 ^ 192 + c.lineSize.toNat * 2 ^ 160 + c.numLines.toNat * 2 ^ 128
    + c.cacheLatency.toNat * 2 ^ 96 + c.memoryLatency.toNat * 2 ^ 64 + c.budget.toNat)

/-- The command map (R95): `rst` first, then whether the engine is busy, then `v` and `w`. Total: every word selects exactly
one command (R97). -/
def decode (busy : Bool) (p : PortInput) : Instr :=
  let i := StepIn.ofBits p.step
  if i.rst then .reset (RunConfig.ofBits p.config)
  else if busy then .cont i.xb i.v i.w i.addr i.data
  else if i.v then (if i.w then .write i.xb i.addr i.data else .read i.xb i.addr i.data)
  else .idle

/-- Why a number is no pair of bundles. -/
inductive DecodeError where
  /-- It has a bit at or above bit 261 = 68 + 193: no port carries it. -/
  | tooWide
  deriving DecidableEq, Repr

/-- The two bundles laid end to end as one number: STEP in bits 67:0, CONFIG in the bits counted on from there, 260:68
(log 3). Rejected by name when a bit stands above them. -/
def portOfNat (w : Nat) : Except DecodeError PortInput :=
  if w / 2 ^ 68 < 2 ^ 193 then .ok { step := BitVec.ofNat 68 w, config := BitVec.ofNat 193 (w / 2 ^ 68) } else .error .tooWide

/-- Decoding of any number, for an engine that is or is not busy. -/
def decodeNat (busy : Bool) (w : Nat) : Except DecodeError Instr :=
  match portOfNat w with
  | .ok p => .ok (decode busy p)
  | .error e => .error e

/-- The command an opcode-table word selects in an engine that is NOT busy, as it is right after reset. (CONTINUE's row is a
state, not a pattern, R96: its words select READ, WRITE or IDLE here; log 3.) Bits at and above `nbits` are 0. -/
def decodeTableWord (nbits w : Nat) : Option Instr :=
  match decodeNat false (w % 2 ^ nbits) with
  | .ok i => some i
  | .error _ => none

/-- The `STEP` fields a command stands for: don't-care fields (R97) are 0, as in the worked words of R102. -/
def Instr.stepIn : Instr → StepIn
  | .reset _ => { rst := true, xb := false, v := false, w := false, addr := 0, data := 0 }
  | .read xb a d => { rst := false, xb := xb, v := true, w := false, addr := a, data := d }
  | .write xb a d => { rst := false, xb := xb, v := true, w := true, addr := a, data := d }
  | .idle => { rst := false, xb := false, v := false, w := false, addr := 0, data := 0 }
  | .cont xb v w a d => { rst := false, xb := xb, v := v, w := w, addr := a, data := d }

/-- The `CONFIG` word presented with a command: sampled only under RESET (R92), 0 otherwise. -/
def Instr.configWord : Instr → BitVec 193
  | .reset c => c.bits
  | .read _ _ _ => 0
  | .write _ _ _ => 0
  | .idle => 0
  | .cont _ _ _ _ _ => 0

/-- The bundles of a command. -/
def encode (i : Instr) : PortInput := { step := i.stepIn.bits, config := i.configWord }

/-- The mask of a command's row (R96; opcode_table.json). -/
def Instr.tableMask : Instr → BitVec 68
  | .reset _ => 0x80000000000000000
  | .read _ _ _ => 0xB0000000000000000
  | .write _ _ _ => 0xB0000000000000000
  | .idle => 0xA0000000000000000
  | .cont _ _ _ _ _ => 0x80000000000000000

/-- The match value of a command's row (R96; opcode_table.json). -/
def Instr.tableMatch : Instr → BitVec 68
  | .reset _ => 0x80000000000000000
  | .read _ _ _ => 0x20000000000000000
  | .write _ _ _ => 0x30000000000000000
  | .idle => 0x00000000000000000
  | .cont _ _ _ _ _ => 0x00000000000000000

end Sys2Proof
end

