-- ==== Sys2Proof/Config.lean ====
section
/-! DEFINITION. The fixed parameters of the hardware (00_scope.md R8) and the values the spec leaves open
(93_implementation_defined.md), which are opaque constants: nothing can be proved about what they are. -/

namespace Sys2Proof.Config

/-- R8 `ADDRESS_WIDTH`. -/
def addressWidth : Nat := 16

/-- R8 `MEM_SIZE` = 2^ADDRESS_WIDTH. -/
def memSize : Nat := 65536

/-- R8 `WAYS`: ways of a set, for every configuration (43_fourway_lru.md R191). -/
def ways : Nat := 4

/-- R8 `SENTINEL` = 2^CYCLE_W − 2. -/
def sentinel : Count := 0xFFFFFFFFFFFFFFFE

/-- The largest legal budget, 2^64 − 3 (70_reset_and_hazards.md R312 check 2, 92_eei_decisions.md D10). -/
def maxBudget : Nat := 2 ^ 64 - 3

/-- FREE VALUE. The byte the n-th out-of-range `MemRead` returns: R8 `OOR_READ_VALUE`, drawn afresh per byte read
(93_implementation_defined.md item 2; log 4). -/
opaque oorReadValue : Nat → Byte

/-- FREE VALUE. The byte the host's n-th `MemPeek` of an out-of-range address returns (20_memory.md R65; log 5). -/
opaque oorPeekValue : Nat → Byte

/-- FREE VALUE. After the RESET numbered by the first argument, the tag of the EMPTY line numbered by the second
(10_state.md R43 "unspecified"; 93_implementation_defined.md item 3; log 6). -/
opaque emptyTag : Nat → Nat → BitVec 32

/-- FREE VALUE. As `emptyTag`: the data byte at the offset given by the third argument. -/
opaque emptyByte : Nat → Nat → Nat → Byte

/-- FREE VALUE. The contents of the field named by the path in the unspecified state numbered by the first argument: what
power-on and a failed RESET leave (70_reset_and_hazards.md R310, R314; 93_implementation_defined.md item 4; log 7). -/
opaque unspecified : Nat → List Nat → Nat

/-- FREE VALUE. The bytes written into memory in the unspecified state numbered by the argument, in order (as `unspecified`;
log 7). -/
opaque unspecifiedBytes : Nat → List (Nat × Byte)

end Sys2Proof.Config
end

