-- ==== Sys2Proof/Machine/State.lean ====
section
/-! DEFINITION. The engine state (10_state.md R22) as plain data, the reasons a step can stop, and the state after reset. -/

namespace Sys2Proof.Machine

/-- The state's memory: (address, byte) pairs, addresses strictly rising, no byte 0; an unlisted address reads as 0, its reset
contents (10_state.md R40, R43). -/
abbrev Memory := List Host.Cell

/-- The derived geometry (10_state.md R24, 00_scope.md R11). -/
structure Geometry where
  offsetBits : Nat
  indexBits : Nat
  tagBits : Nat
  numSets : Nat
  deriving DecidableEq, Repr

/-- A direct-mapped line or a way of a set (10_state.md R26, R27). `valid = false` is EMPTY (R29). The tag's
`32 − offsetBits − indexBits` bits are the low bits of `tag` (log 10). -/
structure Line where
  valid : Bool
  tag : BitVec 32
  data : List Byte
  deriving DecidableEq, Repr

/-- One thing for each of the four ways of a set (43_fourway_lru.md R180, R191). -/
structure Four (α : Type) where
  w0 : α
  w1 : α
  w2 : α
  w3 : α
  deriving DecidableEq, Repr

/-- A request `{address, isWrite, data}` (10_state.md R39). -/
structure Request where
  address : Addr
  isWrite : Bool
  data : Word
  deriving DecidableEq, Repr

/-- The configuration checks (70_reset_and_hazards.md R312), in table order. -/
inductive ConfigCheck where
  | budgetZero
  | budgetTooLarge
  | lineSizeZero
  | lineSizeNotMultipleOf4
  | lineSizeNotPowerOfTwo
  | linesZero
  | dmLinesNotPowerOfTwo
  | w4LinesNotMultipleOf4
  | w4SetsNotPowerOfTwo
  | tagBitsNegative
  | cacheLatencyZero
  | memoryLatencyZero
  deriving DecidableEq, Repr

/-- What the `fault` register records: code and info (10_state.md R38, 60_exceptions.md R284). -/
inductive FaultRecord where
  /-- Code 1, raised by RESET (R281): the first failing check. -/
  | configError (check : ConfigCheck)
  /-- Code 2, raised at the access cycle: the request address. -/
  | lineCross (address : Addr)
  /-- Code 3, `HostProtocol(RequestNotHeld)` (R330): the presented `STEP` word. -/
  | requestNotHeld (word : BitVec 68)
  /-- Code 3, `HostProtocol(BudgetSignalMissing)` (R331): the presented `STEP` word. -/
  | budgetSignalMissing (word : BitVec 68)
  deriving DecidableEq, Repr

/-- The direction of a memory access. -/
inductive AccessKind where
  | read
  | write
  deriving DecidableEq, Repr

/-- Events of the observation trace (60_exceptions.md R283). -/
inductive Event where
  | outOfRange (kind : AccessKind) (address : Addr)
  | configError (check : ConfigCheck)
  | fault (f : FaultRecord)
  deriving DecidableEq, Repr

/-- What the step function returns (44_timing_engine.md R231). `Refused(NotConfigured)` is no value of this type: it is the
refusal of that name. -/
inductive StepReturn where
  | waiting
  | completed
  | idle
  | halted
  | faulted
  | reset
  | configError (check : ConfigCheck)
  deriving DecidableEq, Repr

/-- The whole state: every field of 10_state.md R22, then the model's own four fields. -/
structure State where
  /-- A legal configuration has been loaded (R23). -/
  configured : Bool
  /-- The configuration (R23). -/
  cfg : RunConfig
  /-- The derived geometry (R24). -/
  geom : Geometry
  /-- The static cost estimate (R25). -/
  gateCount : Count
  /-- Direct-mapped storage, `N` lines; none exists under W4 (R26). -/
  dm : List Line
  /-- Four-way storage, `numSets` sets; none exists under DM (R27). -/
  w4 : List (Four Line)
  /-- Recency: 0 is the most, 3 the least recently used way; one entry per set of `w4` (R28). -/
  age : List (Four (BitVec 2))
  /-- The cache-latency countdown (R30). -/
  ccnt : BitVec 32
  /-- The memory-latency countdown (R30). -/
  mcnt : BitVec 32
  /-- Waiting for cache (R31). -/
  waitC : Bool
  /-- Waiting for memory (R31). -/
  waitM : Bool
  /-- Read data held during memory wait (R32). -/
  pend : Word
  /-- The request in memory wait is a write (R32). -/
  pendWrite : Bool
  /-- Counted steps (R33). -/
  cycles : Count
  /-- Accesses that hit (R33). -/
  hits : Count
  /-- Accesses that missed (R33). -/
  misses : Count
  /-- The budget-exceeded sentinel is latched (R34). -/
  overflow : Bool
  /-- The budget is used up (R35). -/
  halted : Bool
  /-- Data of the most recently completed read (R36). -/
  rdata : Word
  /-- Pulse: a request finished in this step (R37). -/
  complete : Bool
  /-- Pulse: this step's access hit (R37). -/
  lastHit : Bool
  /-- Pulse: some byte access of this step was out of range (R37). -/
  oor : Bool
  /-- The sticky model fault (R38). -/
  fault : Option FaultRecord
  /-- The request in flight (R39). -/
  latched : Option Request
  /-- Main memory (R40). -/
  mem : Memory
  /-- MODEL'S OWN: the bundles the host still has to present, next first (44_timing_engine.md R210; log 2). -/
  inputs : List PortInput
  /-- MODEL'S OWN: what the last call of the step function returned (R231; log 13). -/
  outcome : StepReturn
  /-- MODEL'S OWN: the observation trace, oldest event first (60_exceptions.md R283; log 12). -/
  trace : List Event
  /-- MODEL'S OWN: how many times free values were drawn (log 14). -/
  draws : Nat
  deriving DecidableEq, Repr

/-- Stops of the model that no rule of the spec gives. Both are raised only in states that no run reaches (log 11). -/
inductive Fault where
  /-- Raised by the access cycle: the storage lacks the slot the geometry selects, the slot does not hold `L` bytes, or no way
  of the set has age 3, against 10_state.md R26, R27, R44. SAFE: the model stops. -/
  | storageMissing
  /-- Raised by a step of a busy engine that holds no latched request, against 10_state.md R44 item 7. SAFE: the model stops. -/
  | latchMissing
  deriving DecidableEq, Repr

/-- Reasons a step is refused. -/
inductive Refusal where
  /-- Raised by a refused arm of `exec`; no arm is one now. SAFE. -/
  | notModelled (mnemonic : String)
  /-- Raised by every command but RESET while `configured = 0`: `Refused(NotConfigured)` (60_exceptions.md R288; log 8). SAFE. -/
  | notConfigured
  /-- Raised by `step` when the host presents no bundle: there is no clock cycle to run (44_timing_engine.md R210; log 2). SAFE. -/
  | noInput
  deriving DecidableEq, Repr

/-- The state right after reset: 10_state.md R43 for the configuration `DM, L 8, N 8, cL 2, mL 3, B 100` of the example of
70_reset_and_hazards.md R310. DESIGN CHOICE (log 1): the spec takes the configuration from the host; EMPTY lines hold 0
(log 6); `outcome` is what the RESET command returns. -/
def State.reset : State where
  configured := true
  cfg := { policy := .dm, lineSize := 8, numLines := 8, cacheLatency := 2, memoryLatency := 3, budget := 100 }
  geom := { offsetBits := 3, indexBits := 3, tagBits := 10, numSets := 8 }
  gateCount := 2248
  dm := List.replicate 8 { valid := false, tag := 0, data := List.replicate 8 0 }
  w4 := []
  age := []
  ccnt := 2
  mcnt := 3
  waitC := false
  waitM := false
  pend := 0
  pendWrite := false
  cycles := 0
  hits := 0
  misses := 0
  overflow := false
  halted := false
  rdata := 0
  complete := false
  lastHit := false
  oor := false
  fault := none
  latched := none
  mem := []
  inputs := []
  outcome := .reset
  trace := []
  draws := 0

end Sys2Proof.Machine
end

