-- ==== Sys2Proof/Machine/Operands.lean ====
section
/-! DEFINITION. Operand forms: the one operand form of a request (30_encoding.md R94), the address decoder
(40_address_decoder.md), and byte and word assembly (41_cache_common.md R142 to R144). -/

namespace Sys2Proof.Machine

/-- The request a `STEP` bundle presents (30_encoding.md R91, R94): its fields whole, neither scaled nor truncated. -/
def requestOf (i : StepIn) : Request := { address := i.addr, isWrite := i.w, data := i.data }

/-- The DecodedAddress (40_address_decoder.md R121). -/
structure Decoded where
  tag : BitVec 32
  index : BitVec 32
  offset : BitVec 32
  deriving DecidableEq, Repr

/-- `(1 << n) − 1` over 32 bits (R121's masks). -/
def lowMask (n : Nat) : BitVec 32 := ((1 : BitVec 32) <<< n) - 1

/-- `decode(address)` (R121). The address is not masked to ADDRESS_WIDTH: the tag keeps bits 31 to 16 (92_eei_decisions.md D1). -/
def decodeAddress (g : Geometry) (a : Addr) : Decoded where
  offset := a &&& lowMask g.offsetBits
  index := (a >>> g.offsetBits) &&& lowMask g.indexBits
  tag := a >>> (g.offsetBits + g.indexBits)

/-- `blockBase(a) = a & ~(L − 1)` (41_cache_common.md R144). -/
def blockBase (c : RunConfig) (a : Addr) : Addr := a &&& ~~~(c.lineSize - 1)

/-- The address at which the block with this tag and index starts (10_state.md R44 item 8). -/
def blockAddress (g : Geometry) (tag : BitVec 32) (index : Nat) : Addr :=
  (tag <<< (g.offsetBits + g.indexBits)) ||| (BitVec.ofNat 32 index <<< g.offsetBits)

/-- A word access at this address runs past the end of its line: `offset + 4 > L` (20_memory.md R70). -/
def crossesLine (c : RunConfig) (g : Geometry) (a : Addr) : Bool :=
  decide (c.lineSize.toNat < (decodeAddress g a).offset.toNat + 4)

/-- Byte `k` of a line's data. -/
def byteAt (data : List Byte) (k : Nat) : Byte := data.getD k 0

/-- `assemble(line, off)` (R142): four little-endian bytes. -/
def assemble (data : List Byte) (off : Nat) : Word :=
  (byteAt data off).setWidth 32 ||| ((byteAt data (off + 1)).setWidth 32 <<< 8)
    ||| ((byteAt data (off + 2)).setWidth 32 <<< 16) ||| ((byteAt data (off + 3)).setWidth 32 <<< 24)

/-- `disassemble(word)` (R143): byte `k` is `word[8k+7 : 8k]`. -/
def disassemble (w : Word) : Four Byte where
  w0 := w.extractLsb' 0 8
  w1 := w.extractLsb' 8 8
  w2 := w.extractLsb' 16 8
  w3 := w.extractLsb' 24 8

/-- `slot.data[offset + k] <- b[k]`, k = 0..3 (R141). -/
def storeWord (data : List Byte) (off : Nat) (w : Word) : List Byte :=
  let b := disassemble w
  (((data.set off b.w0).set (off + 1) b.w1).set (off + 2) b.w2).set (off + 3) b.w3

end Sys2Proof.Machine
end

