-- ==== Sys2Proof/Machine/Ops.lean ====
section
/-! DEFINITION. The shared operations: the four-way record, the memory list, the MemoryModel primitives (20_memory.md R62, R63,
R65), block fill and write-through (41_cache_common.md R145, R148), raising a model fault (60_exceptions.md R285), fetching the
host's next bundle. -/

namespace Sys2Proof.Machine

/-- The entry of way `w`. -/
def Four.get {α : Type} (f : Four α) : Fin 4 → α
  | 0 => f.w0
  | 1 => f.w1
  | 2 => f.w2
  | 3 => f.w3

/-- The record with the entry of way `w` replaced. -/
def Four.set {α : Type} (f : Four α) (w : Fin 4) (x : α) : Four α :=
  match w with
  | 0 => { f with w0 := x }
  | 1 => { f with w1 := x }
  | 2 => { f with w2 := x }
  | 3 => { f with w3 := x }

/-- The lowest-numbered way whose entry satisfies `p`. -/
def Four.find {α : Type} (f : Four α) (p : α → Bool) : Option (Fin 4) :=
  if p f.w0 then some 0 else if p f.w1 then some 1 else if p f.w2 then some 2 else if p f.w3 then some 3 else none

/-- The byte at an address: 0 where nothing is listed. -/
def Memory.read : Memory → Nat → Byte
  | [], _ => 0
  | (k, b) :: m, a => if k = a then b else Memory.read m a

/-- Memory with the byte at an address replaced, in canonical form: a byte 0 is unlisted. -/
def Memory.write : Memory → Nat → Byte → Memory
  | [], a, v => if v = 0 then [] else [(a, v)]
  | (k, b) :: m, a, v =>
    if a < k then (if v = 0 then (k, b) :: m else (a, v) :: (k, b) :: m)
    else if a = k then (if v = 0 then m else (a, v) :: m)
    else (k, b) :: Memory.write m a v

/-- The canonical form: addresses strictly rising and below MEM_SIZE, no byte 0. -/
def Memory.wf (m : Memory) : Bool :=
  decide (m.Pairwise fun x y => x.1 < y.1) && m.all fun x => decide (x.1 < Config.memSize) && decide (x.2 ≠ 0)

/-- `a < MEM_SIZE` (R60). -/
def inRange (a : Addr) : Bool := decide (a.toNat < Config.memSize)

/-- `emit E(info)` (60_exceptions.md R283). -/
def emit (e : Event) (s : State) : State := { s with trace := s.trace ++ [e] }

/-- What an out-of-range byte access leaves: the `oor` pulse and its event (20_memory.md R62 to R64). -/
def noteOutOfRange (k : AccessKind) (a : Addr) (s : State) : State := { emit (.outOfRange k a) s with oor := true }

/-- `MemRead(a, 1)` (R62). Out of range it returns the next free value (log 4). -/
def memRead (a : Addr) (s : State) : Byte × State :=
  if inRange a then (Memory.read s.mem a.toNat, s)
  else (Config.oorReadValue s.draws, { noteOutOfRange .read a s with draws := s.draws + 1 })

/-- `MemWrite(a, 1, v)` (R63). Out of range the byte is dropped. -/
def memWrite (a : Addr) (v : Byte) (s : State) : State :=
  if inRange a then { s with mem := Memory.write s.mem a.toNat v } else noteOutOfRange .write a s

/-- `MemPeek(a)` (R65), the host's read-only view. `n` numbers the host's peeks: out of range each one draws its own free value
(log 5). -/
def memPeek (n : Nat) (s : State) (a : Addr) : Byte :=
  if inRange a then Memory.read s.mem a.toNat else Config.oorPeekValue n

/-- `n` bytes read at ascending addresses from `a` (41_cache_common.md R145). -/
def readBytes : Nat → Addr → State → List Byte × State
  | 0, _, s => ([], s)
  | n + 1, a, s =>
    let r := memRead a s
    let rest := readBytes n (a + 1) r.2
    (r.1 :: rest.1, rest.2)

/-- `fill(a)`: the `L` bytes of the block of `a` (41_cache_common.md R145). -/
def fill (a : Addr) (s : State) : List Byte × State := readBytes s.cfg.lineSize.toNat (blockBase s.cfg a) s

/-- The write-through of a word: `MemWrite(a + k, 1, b[k])`, k = 0..3 ascending (41_cache_common.md R141, R148). -/
def writeThrough (a : Addr) (w : Word) (s : State) : State :=
  let b := disassemble w
  memWrite (a + 3) b.w3 (memWrite (a + 2) b.w2 (memWrite (a + 1) b.w1 (memWrite a b.w0 s)))

/-- `raise F(info)` (60_exceptions.md R285): the state before the step with `fault` set; the step returns `Faulted` and emits
`Fault(F, info)`. A next state, no stop (DEDUCED, log 9). `now` is the state the raising step had
reached: of it only the events already emitted, and the numbering of free values, remain (DEDUCED, log 12, log 14). -/
def raise (before now : State) (f : FaultRecord) : State :=
  { before with
    fault := some f
    outcome := .faulted
    trace := now.trace ++ [.fault f]
    draws := now.draws }

/-- The host's next bundle, and the state in which it is taken (44_timing_engine.md R210; log 2). -/
def fetch (s : State) : Option (PortInput × State) :=
  match s.inputs with
  | [] => none
  | p :: rest => some (p, { s with inputs := rest })

/-- The state in which the host presents `p` next, before what it was to present. -/
def State.present (s : State) (p : PortInput) : State := { s with inputs := p :: s.inputs }

end Sys2Proof.Machine
end

