-- ==== Sys2Proof/Machine/Flags.lean ====
section
/-! DEFINITION. The flags: busy (10_state.md R31), the per-step pulses (R37), the budget and overflow flags
(44_timing_engine.md R220, R221), and the outputs computed from them (30_encoding.md R93). -/

namespace Sys2Proof.Machine

/-- The engine holds an unfinished request (10_state.md R31). -/
def State.busy (s : State) : Bool := s.waitC || s.waitM

/-- The pulse registers cleared (44_timing_engine.md R217, R227). -/
def clearPulses (s : State) : State := { s with complete := false, lastHit := false, oor := false }

/-- `budget_check(xb)` (44_timing_engine.md R220, R221) on the state `s` that the step's cycle left; `before` is the state before
the step, which BudgetSignalMissing goes back to. -/
def budgetCheck (i : StepIn) (before s : State) : State :=
  if s.cycles = s.cfg.budget then
    if !i.xb && s.busy then raise before s (.budgetSignalMissing i.bits)
    else { s with halted := true, overflow := s.overflow || i.xb }
  else s

/-- The code of a recorded fault (60_exceptions.md R284). -/
def FaultRecord.code : FaultRecord → BitVec 4
  | .configError _ => 1
  | .lineCross _ => 2
  | .requestNotHeld _ => 3
  | .budgetSignalMissing _ => 3

/-- The `OUT` record (30_encoding.md R93). -/
structure Out where
  cycles : Count
  hits : Count
  misses : Count
  rdata : Word
  waitC : Bool
  waitM : Bool
  complete : Bool
  lastHit : Bool
  oor : Bool
  halted : Bool
  overflow : Bool
  configured : Bool
  faultCode : BitVec 4
  gateCount : Count
  deriving DecidableEq, Repr

/-- The reported cycle count: `SENTINEL` while `overflow` is set (10_state.md R34, 44_timing_engine.md R236). -/
def reportedCycles (s : State) : Count := if s.overflow then Config.sentinel else s.cycles

/-- `OUT.faultCode`: 0 when there is no fault (30_encoding.md R93). -/
def faultCode (s : State) : BitVec 4 :=
  match s.fault with
  | none => 0
  | some f => f.code

/-- `OUT`, read from the state after a step (44_timing_engine.md R236). -/
def State.out (s : State) : Out where
  cycles := reportedCycles s
  hits := s.hits
  misses := s.misses
  rdata := s.rdata
  waitC := s.waitC
  waitM := s.waitM
  complete := s.complete
  lastHit := s.lastHit
  oor := s.oor
  halted := s.halted
  overflow := s.overflow
  configured := s.configured
  faultCode := faultCode s
  gateCount := s.gateCount

/-- The end-of-run Result (44_timing_engine.md R237). -/
structure RunResult where
  cycles : Count
  hits : Count
  misses : Count
  gateCount : Count
  deriving DecidableEq, Repr

/-- `{OUT.cycles, OUT.hits, OUT.misses, OUT.gateCount}` (R237). -/
def State.result (s : State) : RunResult where
  cycles := s.out.cycles
  hits := s.out.hits
  misses := s.out.misses
  gateCount := s.out.gateCount

end Sys2Proof.Machine
end

