-- ==== Sys2Proof/Machine/Cache.lean ====
section
/-! DEFINITION. The cache policies: lookup (42_direct_mapped.md R161, 43_fourway_lru.md R182, R183), touch (R162, R184) and the
common access (41_cache_common.md R141). -/

namespace Sys2Proof.Machine

/-- A slot of the storage: a direct-mapped line or a way of a set. -/
inductive Slot where
  | line (index : Nat)
  | way (set : Nat) (w : Fin 4)
  deriving DecidableEq, Repr

/-- The contents of a slot; `none` where the storage has no such slot. -/
def slotLine (s : State) : Slot → Option Line
  | .line i => s.dm[i]?
  | .way k w => (s.w4[k]?).map fun f => f.get w

/-- The state with a slot's contents replaced. -/
def putLine (p : Slot) (l : Line) (s : State) : State :=
  match p with
  | .line i => { s with dm := s.dm.set i l }
  | .way k w => { s with w4 := s.w4.modify k fun f => f.set w l }

/-- A VALID line holding this tag (R161, R182): an EMPTY line never matches. -/
def Line.holds (l : Line) (tag : BitVec 32) : Bool := l.valid && l.tag == tag

/-- `victim(s)`: the way with age 3 (43_fourway_lru.md R183). -/
def victim (ages : Four (BitVec 2)) : Option (Fin 4) := ages.find fun a => a == 3

/-- `touch(s, w)` on the ages of one set (43_fourway_lru.md R184): the ways younger than `w` age by one, `w` becomes 0. -/
def touchAges (ages : Four (BitVec 2)) (w : Fin 4) : Four (BitVec 2) :=
  let a := ages.get w
  let older (x : BitVec 2) : BitVec 2 := if x < a then x + 1 else x
  Four.set { w0 := older ages.w0, w1 := older ages.w1, w2 := older ages.w2, w3 := older ages.w3 } w 0

/-- `touch(index, slot)`: no effect under DM (42_direct_mapped.md R162). -/
def touch (p : Slot) (s : State) : State :=
  match p with
  | .line _ => s
  | .way k w => { s with age := s.age.modify k fun f => touchAges f w }

/-- `lookup(tag, index)`: the slot that hits, or the victim of the miss. -/
def lookupSlot (s : State) (d : Decoded) : Option (Slot × Bool) :=
  match s.cfg.policy with
  | .dm => (s.dm[d.index.toNat]?).map fun l => (.line d.index.toNat, l.holds d.tag)
  | .w4 =>
    match s.w4[d.index.toNat]?, s.age[d.index.toNat]? with
    | some f, some ages =>
      match f.find fun l => l.holds d.tag with
      | some w => some (.way d.index.toNat w, true)
      | none => (victim ages).map fun v => (.way d.index.toNat v, false)
    | _, _ => none

/-- The slot, its contents and whether it hits; `none` where the storage has not the shape of 10_state.md R26, R27 (log 11). -/
def lookup (s : State) (d : Decoded) : Option (Slot × Line × Bool) :=
  match lookupSlot s d with
  | none => none
  | some (p, hit) =>
    match slotLine s p with
    | none => none
    | some l => if l.data.length = s.cfg.lineSize.toNat then some (p, l, hit) else none

/-- An access at this address would hit. -/
def wouldHit (s : State) (a : Addr) : Bool :=
  match lookup s (decodeAddress s.geom a) with
  | some (_, _, hit) => hit
  | none => false

/-- How an access ends. -/
inductive AccessResult where
  /-- It returned `(word, hit)` and left this state. -/
  | done (word : Word) (hit : Bool) (s : State)
  /-- It raised LineCross. -/
  | lineCross
  /-- The storage has not its shape (log 11). -/
  | missing

/-- The line after the lookup: on a miss the whole line is filled and takes the tag (R141, R146, R163, R189). -/
def filledLine (a : Addr) (tag : BitVec 32) (l : Line) (hit : Bool) (s : State) : Line × State :=
  if hit then (l, s) else ({ valid := true, tag := tag, data := (fill a s).1 }, (fill a s).2)

/-- `access(req)` (41_cache_common.md R141). -/
def access (req : Request) (s : State) : AccessResult :=
  let d := decodeAddress s.geom req.address
  if crossesLine s.cfg s.geom req.address then .lineCross
  else
    match lookup s d with
    | none => .missing
    | some (p, l, hit) =>
      let f := filledLine req.address d.tag l hit s
      if req.isWrite then
        .done 0 hit (writeThrough req.address req.data
          (touch p (putLine p { f.1 with data := storeWord f.1.data d.offset.toNat req.data } f.2)))
      else
        .done (assemble f.1.data d.offset.toNat) hit (touch p (putLine p f.1 f.2))

end Sys2Proof.Machine
end

