-- ==== Sys2Proof/Machine/Timing.lean ====
section
/-! DEFINITION. The timing engine (44_timing_engine.md): the three kinds of cycle (R213 to R215), completion (R216), the hold
check (70_reset_and_hazards.md R330) and the step function (R217). -/

namespace Sys2Proof.Machine

/-- How a cycle ends. -/
inductive CycleResult where
  /-- It left this state. -/
  | ok (s : State)
  /-- It raised a model fault, having reached `now`. -/
  | raised (f : FaultRecord) (now : State)
  /-- The state has not its shape (log 11). -/
  | broken (f : Fault)

/-- `finish(isWrite, word)` (R216): a write leaves `rdata`. -/
def finish (isWrite : Bool) (word : Word) (s : State) : State :=
  { s with
    rdata := if isWrite then s.rdata else word
    pend := 0
    pendWrite := false
    complete := true
    latched := none
    outcome := .completed }

/-- A cache-wait cycle (R213). -/
def cacheWait (s : State) : State := { s with ccnt := s.ccnt - 1, waitC := true, outcome := .waiting }

/-- A memory-wait cycle (R215). -/
def memoryWait (s : State) : State :=
  if s.mcnt - 1 = 0 then
    finish s.pendWrite s.pend { s with mcnt := s.cfg.memoryLatency, waitM := false }
  else { s with mcnt := s.mcnt - 1, outcome := .waiting }

/-- What the access cycle does before the access (R214): the countdown reloads, the cache wait ends. -/
def endCacheWait (s : State) : State := { s with ccnt := s.cfg.cacheLatency, waitC := false }

/-- A hit counted and finished (R214). -/
def finishHit (isWrite : Bool) (word : Word) (s : State) : State :=
  finish isWrite word { s with hits := s.hits + 1, lastHit := true }

/-- A miss counted; its memory wait begins (R214). -/
def startMemoryWait (isWrite : Bool) (word : Word) (s : State) : State :=
  { s with misses := s.misses + 1, waitM := true, pend := word, pendWrite := isWrite, outcome := .waiting }

/-- The access cycle (R214), with the fields presented in this step. -/
def accessCycle (i : StepIn) (s : State) : CycleResult :=
  match access (requestOf i) (endCacheWait s) with
  | .lineCross => .raised (.lineCross i.addr) s
  | .missing => .broken .storageMissing
  | .done word hit t => .ok (if hit then finishHit i.w word t else startMemoryWait i.w word t)

/-- The cycle the state calls for (R217). -/
def cycle (i : StepIn) (s : State) : CycleResult :=
  if s.waitM then .ok (memoryWait s)
  else if s.ccnt ≠ 0 then .ok (cacheWait s)
  else accessCycle i s

/-- What every counted step does first (R217): it latches a new request, clears the pulses, counts the cycle (R211). -/
def openStep (i : StepIn) (s : State) : State :=
  { clearPulses s with
    latched := if s.busy then s.latched else some (requestOf i)
    cycles := s.cycles + 1 }

/-- A counted step (R211, R217). -/
def countedStep (i : StepIn) (s : State) : Host.Outcome State Fault Refusal :=
  match cycle i (openStep i s) with
  | .ok t => .next (budgetCheck i s t)
  | .raised f now => .next (raise s now f)
  | .broken r => .fault r

/-- `check_hold(in)` passes (70_reset_and_hazards.md R330). -/
def requestHeld (i : StepIn) (q : Request) : Bool :=
  i.v && i.w == q.isWrite && i.addr == q.address && (!q.isWrite || i.data == q.data)

/-- IDLE (44_timing_engine.md R227). -/
def idleStep (s : State) : State := { clearPulses s with outcome := .idle }

/-- The step function for `rst = 0` (R217), its tests in the order of 60_exceptions.md R289. -/
def engineStep (i : StepIn) (s : State) : Host.Outcome State Fault Refusal :=
  if !s.configured then .refused .notConfigured
  else if s.fault.isSome then .next { s with outcome := .faulted }
  else if s.halted then .next { s with outcome := .halted }
  else if s.busy then
    match s.latched with
    | none => .fault .latchMissing
    | some q => if requestHeld i q then countedStep i s else .next (raise s s (.requestNotHeld i.bits))
  else if i.v then countedStep i s
  else .next (idleStep s)

end Sys2Proof.Machine
end

