-- ==== Sys2Proof/Machine/Requests.lean ====
section
/-! DEFINITION. The request commands READ, WRITE, IDLE and CONTINUE (44_timing_engine.md R225 to R228). Each is the step function
of R217 on the command's own `STEP` fields. -/

namespace Sys2Proof.Machine

/-- READ (R225). -/
def execRead (xb : Bool) (addr : Addr) (data : Word) (s : State) : Host.Outcome State Fault Refusal :=
  engineStep { rst := false, xb := xb, v := true, w := false, addr := addr, data := data } s

/-- WRITE (R226). -/
def execWrite (xb : Bool) (addr : Addr) (data : Word) (s : State) : Host.Outcome State Fault Refusal :=
  engineStep { rst := false, xb := xb, v := true, w := true, addr := addr, data := data } s

/-- IDLE (R227): its fields are don't-care (30_encoding.md R97). -/
def execIdle (s : State) : Host.Outcome State Fault Refusal :=
  engineStep { rst := false, xb := false, v := false, w := false, addr := 0, data := 0 } s

/-- CONTINUE (R228). -/
def execCont (xb v w : Bool) (addr : Addr) (data : Word) (s : State) : Host.Outcome State Fault Refusal :=
  engineStep { rst := false, xb := xb, v := v, w := w, addr := addr, data := data } s

end Sys2Proof.Machine
end

