-- ==== Sys2Proof/Machine/Setup.lean ====
section
/-! DEFINITION. The RESET command (70_reset_and_hazards.md R310): legality (R312), derived geometry (00_scope.md R11), the cost
model (45_cost_model.md R261), reset values (10_state.md R43), the unspecified state (R310, R314). -/

namespace Sys2Proof.Machine

/-- `n` is a power of two. -/
def isPowerOfTwo (n : Nat) : Bool := 2 ^ Nat.log2 n == n

/-- `numSets` (00_scope.md R11). -/
def numSetsOf (c : RunConfig) : Nat :=
  match c.policy with
  | .dm => c.numLines.toNat
  | .w4 => c.numLines.toNat / Config.ways

/-- `derive(c)` (00_scope.md R11). -/
def deriveGeometry (c : RunConfig) : Geometry where
  offsetBits := Nat.log2 c.lineSize.toNat
  indexBits := Nat.log2 (numSetsOf c)
  tagBits := Config.addressWidth - Nat.log2 (numSetsOf c) - Nat.log2 c.lineSize.toNat
  numSets := numSetsOf c

/-- The checks of 70_reset_and_hazards.md R312 in table order: each with whether it fails. -/
def configChecks (c : RunConfig) : List (ConfigCheck × Bool) :=
  let l := c.lineSize.toNat
  let n := c.numLines.toNat
  [(.budgetZero, c.budget.toNat == 0),
   (.budgetTooLarge, decide (Config.maxBudget < c.budget.toNat)),
   (.lineSizeZero, l == 0),
   (.lineSizeNotMultipleOf4, l % 4 != 0),
   (.lineSizeNotPowerOfTwo, !isPowerOfTwo l),
   (.linesZero, n == 0),
   (.dmLinesNotPowerOfTwo, c.policy == .dm && !isPowerOfTwo n),
   (.w4LinesNotMultipleOf4, c.policy == .w4 && n % 4 != 0),
   (.w4SetsNotPowerOfTwo, c.policy == .w4 && !isPowerOfTwo (n / 4)),
   (.tagBitsNegative,
     decide (Config.addressWidth < (deriveGeometry c).offsetBits + (deriveGeometry c).indexBits)),
   (.cacheLatencyZero, c.cacheLatency.toNat == 0),
   (.memoryLatencyZero, c.memoryLatency.toNat == 0)]

/-- The first check of a list that fails. -/
def firstFailing : List (ConfigCheck × Bool) → Option ConfigCheck
  | [] => none
  | (k, failed) :: rest => if failed then some k else firstFailing rest

/-- `legality(c)` (R312): the first check that fails, `none` for `ok`. -/
def legality (c : RunConfig) : Option ConfigCheck := firstFailing (configChecks c)

/-- `gateCount(cfg, geom)` (45_cost_model.md R261), exact over the naturals. -/
def gateCountNat (c : RunConfig) (g : Geometry) : Nat :=
  let numLines := c.numLines.toNat
  let oneBitStorageGates := 4
  let storageGates := 8 * oneBitStorageGates * numLines * c.lineSize.toNat
  let controlLogicGates := 5 * numLines
  let tagComparisonGates := 2 * g.tagBits * numLines
  let total := storageGates + tagComparisonGates + controlLogicGates
  match c.policy with
  | .dm => total
  | .w4 =>
    let counterGates := 2 * oneBitStorageGates * numLines
    let comparatorGates := counterGates * 2
    let updateLogicGates := counterGates * 7
    total + (counterGates + comparatorGates + updateLogicGates)

/-- The EMPTY line in slot `j` after the RESET numbered `n`: its tag and data are free (10_state.md R43; log 6). The tag keeps
its `32 − offsetBits − indexBits` bits, the data its `L` bytes. -/
def emptyLine (c : RunConfig) (n j : Nat) : Line where
  valid := false
  tag := Config.emptyTag n j >>> ((deriveGeometry c).offsetBits + (deriveGeometry c).indexBits)
  data := (List.range c.lineSize.toNat).map (Config.emptyByte n j)

/-- The direct-mapped storage after RESET: `N` EMPTY lines, none under W4 (R26, R43). -/
def emptyLines (c : RunConfig) (n : Nat) : List Line :=
  match c.policy with
  | .dm => (List.range c.numLines.toNat).map (emptyLine c n)
  | .w4 => []

/-- The four-way storage after RESET: `numSets` sets of four EMPTY ways, none under DM (R27, R43). -/
def emptySets (c : RunConfig) (n : Nat) : List (Four Line) :=
  match c.policy with
  | .dm => []
  | .w4 => (List.range (numSetsOf c)).map fun k =>
    { w0 := emptyLine c n (4 * k), w1 := emptyLine c n (4 * k + 1),
      w2 := emptyLine c n (4 * k + 2), w3 := emptyLine c n (4 * k + 3) }

/-- The ages after RESET: `age[s][w] = 3 − w` (43_fourway_lru.md R185). -/
def initialAges (c : RunConfig) : List (Four (BitVec 2)) :=
  match c.policy with
  | .dm => []
  | .w4 => List.replicate (numSetsOf c) { w0 := 3, w1 := 2, w2 := 1, w3 := 0 }

/-- A successful RESET (70_reset_and_hazards.md R310, R313; values of 10_state.md R43). The trace of the new run starts empty
(log 12); the host's coming bundles stay. -/
def startRun (c : RunConfig) (s : State) : State where
  configured := true
  cfg := c
  geom := deriveGeometry c
  gateCount := BitVec.ofNat 64 (gateCountNat c (deriveGeometry c))
  dm := emptyLines c s.draws
  w4 := emptySets c s.draws
  age := initialAges c
  ccnt := c.cacheLatency
  mcnt := c.memoryLatency
  waitC := false
  waitM := false
  pend := 0
  pendWrite := false
  cycles := 0
  hits := 0
  misses := 0
  overflow := false
  halted := false
  rdata := 0
  complete := false
  lastHit := false
  oor := false
  fault := none
  latched := none
  mem := []
  inputs := s.inputs
  outcome := .reset
  trace := []
  draws := s.draws + 1

/-- A free bit: field `f` of unspecified state `n`. -/
def freeBit (n : Nat) (f : List Nat) : Bool := Config.unspecified n f % 2 == 1

/-- A free bit vector: field `f` of unspecified state `n`. -/
def freeBits (w n : Nat) (f : List Nat) : BitVec w := BitVec.ofNat w (Config.unspecified n f)

/-- A free line: field `f` of unspecified state `n`, of a free number of bytes. -/
def freeLine (n : Nat) (f : List Nat) : Line where
  valid := freeBit n (0 :: f)
  tag := freeBits 32 n (1 :: f)
  data := (List.range (Config.unspecified n (2 :: f))).map fun k => freeBits 8 n (3 :: k :: f)

/-- Memory with a list of bytes written, those out of range dropped. -/
def writeAll (m : Memory) : List (Nat × Byte) → Memory
  | [] => m
  | x :: xs => writeAll (if x.1 < Config.memSize then Memory.write m x.1 x.2 else m) xs

/-- A free memory in canonical form: that of unspecified state `n`. -/
def freeMemory (n : Nat) : Memory := writeAll [] (Config.unspecifiedBytes n)

/-- A free fault record. -/
def freeFault (n : Nat) : Option FaultRecord :=
  match Config.unspecified n [23] % 5 with
  | 0 => none
  | 1 => some (.configError (((configChecks (RunConfig.ofBits 0)).map (·.1)).getD (Config.unspecified n [23, 1] % 12) .budgetZero))
  | 2 => some (.lineCross (freeBits 32 n [23, 2]))
  | 3 => some (.requestNotHeld (freeBits 68 n [23, 3]))
  | _ => some (.budgetSignalMissing (freeBits 68 n [23, 4]))

/-- A free latched request. -/
def freeLatched (n : Nat) : Option Request :=
  if freeBit n [24] then
    some { address := freeBits 32 n [24, 1], isWrite := freeBit n [24, 2], data := freeBits 32 n [24, 3] }
  else none

/-- The state with every field of the spec's `S` unspecified, but `configured`, which is 0 (70_reset_and_hazards.md R310, R314;
log 7). `s` gives the model's own fields. -/
def unspecifiedState (s : State) : State :=
  let n := s.draws
  { configured := false
    cfg := RunConfig.ofBits (freeBits 193 n [1])
    geom :=
      { offsetBits := Config.unspecified n [2] % 17, indexBits := Config.unspecified n [3] % 17,
        tagBits := Config.unspecified n [4] % 17, numSets := Config.unspecified n [5] % 65537 }
    gateCount := freeBits 64 n [6]
    dm := (List.range (Config.unspecified n [7])).map fun i => freeLine n [7, i]
    w4 := (List.range (Config.unspecified n [8])).map fun i =>
      { w0 := freeLine n [8, i, 0], w1 := freeLine n [8, i, 1], w2 := freeLine n [8, i, 2], w3 := freeLine n [8, i, 3] }
    age := (List.range (Config.unspecified n [9])).map fun i =>
      { w0 := freeBits 2 n [9, i, 0], w1 := freeBits 2 n [9, i, 1], w2 := freeBits 2 n [9, i, 2],
        w3 := freeBits 2 n [9, i, 3] }
    ccnt := freeBits 32 n [10]
    mcnt := freeBits 32 n [11]
    waitC := freeBit n [12]
    waitM := freeBit n [13]
    pend := freeBits 32 n [14]
    pendWrite := freeBit n [15]
    cycles := freeBits 64 n [16]
    hits := freeBits 64 n [17]
    misses := freeBits 64 n [18]
    overflow := freeBit n [19]
    halted := freeBit n [20]
    rdata := freeBits 32 n [21]
    complete := freeBit n [22, 0]
    lastHit := freeBit n [22, 1]
    oor := freeBit n [22, 2]
    fault := freeFault n
    latched := freeLatched n
    mem := freeMemory n
    inputs := s.inputs
    outcome := s.outcome
    trace := s.trace
    draws := n + 1 }

/-- Power-on, before the first RESET (R314). -/
def State.powerOn : State := unspecifiedState { State.reset with outcome := .idle }

/-- A failed RESET (70_reset_and_hazards.md R310; 60_exceptions.md R281): `configured = 0`, `fault = (ConfigError, check)`,
every other field unspecified. -/
def rejectConfig (k : ConfigCheck) (s : State) : State :=
  { unspecifiedState s with
    configured := false
    fault := some (.configError k)
    outcome := .configError k
    trace := s.trace ++ [.configError k] }

/-- RESET (70_reset_and_hazards.md R310): accepted in every state. -/
def execReset (c : RunConfig) (s : State) : Host.Outcome State Fault Refusal :=
  match legality c with
  | some k => .next (rejectConfig k s)
  | none => .next (startRun c s)

end Sys2Proof.Machine
end

