-- ==== Sys2Proof/Machine/Dispatch.lean ====
section
/-! DEFINITION. One arm per command (30_encoding.md R95). -/

namespace Sys2Proof.Machine

def exec (i : Instr) (s : State) : Host.Outcome State Fault Refusal :=
  match i with
  | .reset c => Sys2Proof.Machine.execReset c s
  | .read xb addr data => Sys2Proof.Machine.execRead xb addr data s
  | .write xb addr data => Sys2Proof.Machine.execWrite xb addr data s
  | .idle => Sys2Proof.Machine.execIdle s
  | .cont xb v w addr data => Sys2Proof.Machine.execCont xb v w addr data s

end Sys2Proof.Machine
end

