-- ==== Sys2Proof/Machine/Step.lean ====
section
/-! DEFINITION. One clock cycle (44_timing_engine.md R210): take the host's next bundle, decode it for an engine that is or is not
busy (30_encoding.md R95), run the command. -/

namespace Sys2Proof.Machine

/-- One step. With no bundle presented there is no cycle to run (log 2). -/
def step (s : State) : Host.Outcome State Fault Refusal :=
  match fetch s with
  | none => .refused .noInput
  | some (p, t) => exec (decode t.busy p) t

/-- The state in which the host presents the bundles of an opcode-table word next (log 2, log 3). -/
def State.withFetchWord (s : State) (nbits w : Nat) : State :=
  match portOfNat (w % 2 ^ nbits) with
  | .ok p => s.present p
  | .error _ => s

end Sys2Proof.Machine
end

