-- ==== Sys2Proof/Machine/Driver.lean ====
section
/-! DEFINITION. A host that keeps its duties (44_timing_engine.md R240; 70_reset_and_hazards.md R330 to R332), and the request-level
program lines with their `STEP` words (30_encoding.md R100, R101). The engine does not contain this: claims use it to say what
a dutiful host presents (log 16). Where such a host must know ahead whether a request will finish, it is described by the engine's
own registers, which a host cannot read (10_state.md R42): DESIGN CHOICE, log 18. -/

namespace Sys2Proof.Machine

/-- The `STEP` fields of a request, on every step it is presented (R91, R330). -/
def holdWord (r : Request) (xb : Bool) : StepIn :=
  { rst := false, xb := xb, v := true, w := r.isWrite, addr := r.address, data := r.data }

/-- A `STEP` bundle on the ports; the `CONFIG` port is not sampled (R92). -/
def portOf (i : StepIn) : PortInput := { step := i.bits, config := 0 }

/-- Counted steps of a request that hits or misses (44_timing_engine.md R222, 70_reset_and_hazards.md R340). -/
def requestSteps (c : RunConfig) (hit : Bool) : Nat :=
  if hit then c.cacheLatency.toNat + 1 else c.cacheLatency.toNat + c.memoryLatency.toNat + 1

/-- The words presented for one request of `k` steps that starts when the counter stands at `cycles` (R101): `k` identical
words, cut after the step that makes `cycles = budget`, with `xb` on that step exactly when the request is then in flight or
`more` requests are left (70_reset_and_hazards.md R331). -/
def requestWords (r : Request) (k cycles budget : Nat) (more : Bool) : List PortInput :=
  (List.range (min k (budget - cycles))).map fun j =>
    portOf (holdWord r ((cycles + j + 1 == budget) && (decide (j + 1 < k) || more)))

/-- The words presented for a request started in this state (R101): `cL + 1` or `cL + mL + 1`, as it hits or misses. DEDUCED
(log 19): a request that runs past the end of its line is presented `cL + 1` times, up to the access cycle that raises LineCross,
as in program P6 of 95_test_vectors.md; R101 names no count for it. Whether it hits is read from the cache (log 18). -/
def presentedSteps (s : State) (a : Addr) : Nat :=
  if crossesLine s.cfg s.geom a then s.cfg.cacheLatency.toNat + 1 else requestSteps s.cfg (wouldHit s a)

/-- A line of the request-level syntax (30_encoding.md R100). -/
inductive ProgramLine where
  | reset (c : RunConfig)
  | read (addr : Addr)
  | write (addr : Addr) (data : Word)
  | idle
  deriving DecidableEq, Repr

/-- The words a dutiful host presents for a line, starting from the state `s` (R101); `more`: the stream holds later requests. -/
def ProgramLine.words (s : State) (more : Bool) : ProgramLine → List PortInput
  | .reset c => [encode (.reset c)]
  | .read a =>
    requestWords { address := a, isWrite := false, data := 0 } (presentedSteps s a) s.cycles.toNat s.cfg.budget.toNat more
  | .write a d =>
    requestWords { address := a, isWrite := true, data := d } (presentedSteps s a) s.cycles.toNat s.cfg.budget.toNat more
  | .idle => [encode .idle]

/-- The request finishes in the step the state calls for (44_timing_engine.md R214 to R216). DESIGN CHOICE (log 18): read from the
countdowns and the cache. -/
def finishesNow (s : State) (r : Request) : Bool :=
  if s.waitM then decide (s.mcnt = 1) else decide (s.ccnt = 0) && wouldHit s r.address

/-- `xb` as the host must set it on this step (70_reset_and_hazards.md R331): 1 exactly when the step makes `cycles = B` and
after it `r` is still in flight or requests are left. R331 gives the duty and not how the host comes to know it: DESIGN CHOICE
(log 18), it is decided from the state. -/
def dutifulXb (s : State) (r : Request) (rest : List Request) : Bool :=
  (s.cycles + 1 == s.cfg.budget) && (!finishesNow s r || !rest.isEmpty)

/-- The next word of a host with this stream of requests not yet started, and the stream after it (R240): the request in flight
again while the engine is busy, else the next request; none when there is nothing left to present. The repeated request is read from
`latched`, the one the host itself presented: DESIGN CHOICE (log 18). -/
def hostWord (s : State) (stream : List Request) : Option (StepIn × List Request) :=
  if s.busy then
    match s.latched with
    | some r => some (holdWord r (dutifulXb s r stream), stream)
    | none => none
  else
    match stream with
    | r :: rest => some (holdWord r (dutifulXb s r rest), rest)
    | [] => none

/-- At most `fuel` steps of a run driven by that host: it stops when the run has ended (44_timing_engine.md R238) or faulted.
Answers the outcome and the requests never started. -/
def driveStream : Nat → List Request → State → Host.Outcome State Fault Refusal × List Request
  | 0, stream, s => (.next s, stream)
  | fuel + 1, stream, s =>
    if s.halted || s.fault.isSome then (.next s, stream)
    else
      match hostWord s stream with
      | none => (.next s, stream)
      | some (i, rest) =>
        match step (s.present (portOf i)) with
        | .next t => driveStream fuel rest t
        | .fault r => (.fault r, rest)
        | .refused r => (.refused r, rest)

/-- The run has ended (44_timing_engine.md R238), for a host whose stream of requests not yet started is `stream`: the budget is
used up, or every request has been presented and the engine is not busy. A faulted state is never an end. -/
def runEnded (s : State) (stream : List Request) : Bool :=
  s.fault.isNone && (s.halted || (stream.isEmpty && !s.busy))

end Sys2Proof.Machine
end

