-- ==== Sys2Proof/Safety.lean ====
section
/-! DEFINITION. The terms claims use: an engine that takes commands, the invariant of every reachable state (10_state.md R44), the
list form of recency (43_fourway_lru.md R186). -/

namespace Sys2Proof.Machine

/-- Configured, not faulted, not halted: the step function reaches the command (44_timing_engine.md R217). -/
structure State.Ready (s : State) : Prop where
  configured : s.configured = true
  noFault : s.fault = none
  running : s.halted = false

/-- The next counted step is an access cycle (44_timing_engine.md R214). -/
def State.atAccess (s : State) : Bool := !s.waitM && s.ccnt == 0

/-- The ages of a set are a permutation of {0, 1, 2, 3} (10_state.md R44 item 1). -/
abbrev permutedAges (f : Four (BitVec 2)) : Prop := [f.w0, f.w1, f.w2, f.w3].Perm [0, 1, 2, 3]

/-- The events of an out-of-range block fill: one for each byte of the block, ascending (41_cache_common.md R145, 60_exceptions.md R283;
log 12). -/
def fillEvents (c : RunConfig) (a : Addr) : List Event :=
  (List.range c.lineSize.toNat).map fun k => .outOfRange .read (blockBase c a + BitVec.ofNat 32 k)

/-- The events of an out-of-range write-through: one for each byte of the word, ascending (41_cache_common.md R148, R283; log 12). -/
def writeEvents (a : Addr) : List Event := (List.range 4).map fun k => .outOfRange .write (a + BitVec.ofNat 32 k)

/-- The events of an access that misses: the fill's before a write's (41_cache_common.md R141). -/
def missEvents (c : RunConfig) (r : Request) : List Event :=
  if 65536 ≤ r.address.toNat then fillEvents c r.address ++ if r.isWrite then writeEvents r.address else [] else []

/-- The index that a slot's blocks decode to: the line number or the set number (40_address_decoder.md R126). -/
def Slot.index : Slot → Nat
  | .line i => i
  | .way k _ => k

/-- A VALID slot's data are memory's bytes of its block, when the block is in range (10_state.md R44 item 8). -/
def slotCoherent (s : State) (p : Slot) (l : Line) : Prop :=
  l.valid = true → (blockAddress s.geom l.tag p.index).toNat < Config.memSize →
    ∀ k, k < s.cfg.lineSize.toNat →
      byteAt l.data k = Memory.read s.mem ((blockAddress s.geom l.tag p.index).toNat + k)

/-- What holds of every reachable state of a configured engine: 10_state.md R44 items 1 to 8 (its clause `fault = none` is not
needed, because a raise keeps the state before the step, 60_exceptions.md R285), the storage's shape (R26, R27), the values that
only RESET writes (R42), the idle values of the countdowns (R30). -/
structure RunInv (s : State) : Prop where
  legalConfig : legality s.cfg = none
  geometryDerived : s.geom = deriveGeometry s.cfg
  costComputed : s.gateCount = BitVec.ofNat 64 (gateCountNat s.cfg s.geom)
  lineCount : s.dm.length = if s.cfg.policy = .dm then s.cfg.numLines.toNat else 0
  setCount : s.w4.length = if s.cfg.policy = .w4 then s.geom.numSets else 0
  ageCount : s.age.length = s.w4.length
  slotShape : ∀ p l, slotLine s p = some l →
    l.data.length = s.cfg.lineSize.toNat ∧ l.tag.toNat < 2 ^ (32 - s.geom.offsetBits - s.geom.indexBits)
  /-- Item 1. -/
  agesPermuted : ∀ f ∈ s.age, permutedAges f
  /-- Item 2. -/
  tagsDistinct : ∀ (f : Four Line), f ∈ s.w4 → ∀ w x : Fin 4,
    (Four.get f w).valid = true → (Four.get f x).valid = true → (Four.get f w).tag = (Four.get f x).tag → w = x
  /-- Item 3. -/
  emptyOlder : ∀ (k : Nat) (f : Four Line) (ages : Four (BitVec 2)), s.w4[k]? = some f → s.age[k]? = some ages → ∀ w x : Fin 4,
    (Four.get f w).valid = false → (Four.get f x).valid = true → Four.get ages x < Four.get ages w
  /-- Item 4. -/
  notBothWaits : ¬(s.waitC = true ∧ s.waitM = true)
  /-- Item 5. -/
  mcntRange : 1 ≤ s.mcnt.toNat ∧ s.mcnt.toNat ≤ s.cfg.memoryLatency.toNat
  /-- Item 5. -/
  ccntRange : s.ccnt.toNat ≤ s.cfg.cacheLatency.toNat
  ccntIdle : s.waitC = false → s.ccnt = s.cfg.cacheLatency
  ccntWaiting : s.waitC = true → s.ccnt.toNat < s.cfg.cacheLatency.toNat
  mcntIdle : s.waitM = false → s.mcnt = s.cfg.memoryLatency
  /-- Item 6. -/
  cyclesBound : s.cycles.toNat ≤ s.cfg.budget.toNat
  /-- Item 6. -/
  accessesBound : s.hits.toNat + s.misses.toNat ≤ s.cycles.toNat
  /-- Item 6. -/
  haltedExactly : s.halted = true ↔ s.cycles = s.cfg.budget
  overflowHalted : s.overflow = true → s.halted = true
  /-- Item 7. -/
  latchedExactly : s.latched = none ↔ s.busy = false
  /-- Item 8. -/
  slotsCoherent : ∀ p l, slotLine s p = some l → slotCoherent s p l

/-- The invariant of every step: memory in canonical form, and `RunInv` while configured. -/
structure Inv (s : State) : Prop where
  memory : Memory.wf s.mem = true
  run : s.configured = true → RunInv s

/-- The most-to-least recent list of a set's ways (43_fourway_lru.md R186): position `p` holds the way with age `p`. -/
def recencyList (f : Four (BitVec 2)) : List (Fin 4) :=
  ([0, 1, 2, 3] : List (BitVec 2)).filterMap fun p => f.find fun a => a == p

end Sys2Proof.Machine
end

