-- ==== Sys2Proof/Certificates/Slice0/Obligations.lean ====
section
/-! DEFINITION. The statements for the provers, in the order of OBLIGATIONS.json. Each docstring names the rules of the spec it
formalises. -/

open Sys2Proof Sys2Proof.Machine

/-! ## Encoding -/

/-- Every command survives encoding and decoding, in an engine that can select it, with every operand at every value
(30_encoding.md R91, R92, R95). -/
def Obligations.EncodeThenDecodeIsIdentity : Prop :=
  ∀ (busy : Bool) (i : Instr), i.wf busy = true → decode busy (encode i) = i

/-- No bit that some rule reads is lost by decoding: READ, WRITE and CONTINUE keep the whole `STEP` word, RESET the whole `CONFIG`
word; what is lost is don't-care (30_encoding.md R97), READ's data kept (log 17). The command a word selects is one the engine's busy flag allows (R95). -/
def Obligations.DecodeThenEncodeKeepsTheWord : Prop :=
  ∀ (busy : Bool) (p : PortInput),
    (decode busy p).wf busy = true ∧
    (p.step.getLsbD 67 = false → busy = true ∨ p.step.getLsbD 65 = true → (encode (decode busy p)).step = p.step) ∧
    (p.step.getLsbD 67 = true → (encode (decode busy p)).config = p.config)

/-- The command map (30_encoding.md R95), by the bits of the `STEP` word (R91). -/
def Obligations.CommandMapFollowsTheTable : Prop :=
  ∀ (busy : Bool) (p : PortInput),
    (p.step.getLsbD 67 = true → decode busy p = .reset (RunConfig.ofBits p.config)) ∧
    (p.step.getLsbD 67 = false → busy = true →
      decode busy p = .cont (p.step.getLsbD 66) (p.step.getLsbD 65) (p.step.getLsbD 64) (p.step.extractLsb' 32 32)
        (p.step.extractLsb' 0 32)) ∧
    (p.step.getLsbD 67 = false → busy = false → p.step.getLsbD 65 = true → p.step.getLsbD 64 = false →
      decode busy p = .read (p.step.getLsbD 66) (p.step.extractLsb' 32 32) (p.step.extractLsb' 0 32)) ∧
    (p.step.getLsbD 67 = false → busy = false → p.step.getLsbD 65 = true → p.step.getLsbD 64 = true →
      decode busy p = .write (p.step.getLsbD 66) (p.step.extractLsb' 32 32) (p.step.extractLsb' 0 32)) ∧
    (p.step.getLsbD 67 = false → busy = false → p.step.getLsbD 65 = false → decode busy p = .idle)

/-- The worked words of 30_encoding.md R102, in an engine that is not busy, and the last one in a busy engine; and the CONFIG word
of `DM/8/8/2/3/100` (R92). -/
def Obligations.WorkedWordsDecode : Prop :=
  decode false { step := 0x20000001000000000, config := 0 } = .read false 0x10 0 ∧
  decode false { step := 0x300000010DEADBEEF, config := 0 } = .write false 0x10 0xDEADBEEF ∧
  decode false { step := 0x00000000000000000, config := 0 } = .idle ∧
  decode true { step := 0x60000000400000000, config := 0 } = .cont true true false 0x4 0 ∧
  decode false { step := 0x80000000000000000, config := 0x0000000080000000800000002000000030000000000000064 } =
    .reset { policy := .dm, lineSize := 8, numLines := 8, cacheLatency := 2, memoryLatency := 3, budget := 100 }

/-- One step is one clock cycle (44_timing_engine.md R210): it takes the host's next bundle, decodes it by the busy flag
(30_encoding.md R95) and is `exec` of that command. A table word placed by `withFetchWord` is the next bundle. With no bundle
presented there is no step: the model's own refusal (log 2). -/
def Obligations.StepRunsTheDecodedCommand : Prop :=
  (∀ (s : State) (p : PortInput) (rest : List PortInput), s.inputs = p :: rest →
    step s = exec (decode s.busy p) { s with inputs := rest }) ∧
  (∀ (s : State) (nbits w : Nat) (p : PortInput), portOfNat (w % 2 ^ nbits) = .ok p →
    step (s.withFetchWord nbits w) = exec (decode s.busy p) s) ∧
  (∀ s : State, s.inputs = [] → step s = .refused .noInput)

/-! ## RESET -/

/-- A successful RESET (70_reset_and_hazards.md R310, R313) sets every field to its value in the table of 10_state.md R43, from
every state, and returns `Reset`, which the model holds in `outcome` (log 13). The tag and data of the EMPTY lines are not stated:
they are free (log 6). That the host's coming bundles stay is the model's choice (log 1). -/
def Obligations.LegalResetSetsResetValues : Prop :=
  ∀ (c : RunConfig) (s : State), legality c = none →
    ∃ t, exec (.reset c) s = .next t ∧
      t.configured = true ∧ t.cfg = c ∧ t.geom = deriveGeometry c ∧
      t.gateCount = BitVec.ofNat 64 (gateCountNat c (deriveGeometry c)) ∧
      (c.policy = .dm → t.dm.length = c.numLines.toNat ∧ t.w4 = [] ∧ t.age = []) ∧
      (c.policy = .w4 → t.dm = [] ∧ 4 * t.w4.length = c.numLines.toNat ∧ t.age.length = t.w4.length) ∧
      (∀ p l, slotLine t p = some l → l.valid = false ∧ l.data.length = c.lineSize.toNat) ∧
      (∀ f ∈ t.age, ∀ w : Fin 4, (f.get w).toNat = 3 - w.val) ∧
      t.ccnt = c.cacheLatency ∧ t.mcnt = c.memoryLatency ∧ t.waitC = false ∧ t.waitM = false ∧
      t.pend = 0 ∧ t.pendWrite = false ∧ t.cycles = 0 ∧ t.hits = 0 ∧ t.misses = 0 ∧
      t.overflow = false ∧ t.halted = false ∧ t.rdata = 0 ∧ t.complete = false ∧ t.lastHit = false ∧ t.oor = false ∧
      t.fault = none ∧ t.latched = none ∧ (∀ a, Memory.read t.mem a = 0) ∧ t.outcome = .reset ∧ t.inputs = s.inputs

/-- A configuration error (60_exceptions.md R281): `configured = 0`, `fault = (ConfigError, check)`, the step returns it, and every
later step but RESET is refused. -/
def Obligations.IllegalResetIsRejected : Prop :=
  ∀ (c : RunConfig) (s : State) (k : ConfigCheck), legality c = some k →
    ∃ t, exec (.reset c) s = .next t ∧ t.configured = false ∧ t.fault = some (.configError k) ∧
      t.outcome = .configError k ∧ t.out.faultCode = 1 ∧
      ∀ i : Instr, (∀ c', i ≠ .reset c') → exec i t = .refused .notConfigured

/-- The twelve checks (70_reset_and_hazards.md R312): the first that fails, in table order, is reported; a configuration that
passes all is legal. A power of two is written out as `2 ^ o`. -/
def Obligations.LegalityReportsTheFirstFailingCheck : Prop :=
  ∀ c : RunConfig,
    (c.budget.toNat = 0 → legality c = some .budgetZero) ∧
    (c.budget.toNat ≠ 0 → 2 ^ 64 - 3 < c.budget.toNat → legality c = some .budgetTooLarge) ∧
    (c.budget.toNat ≠ 0 → c.budget.toNat ≤ 2 ^ 64 - 3 →
      (c.lineSize.toNat = 0 → legality c = some .lineSizeZero) ∧
      (c.lineSize.toNat % 4 ≠ 0 → legality c = some .lineSizeNotMultipleOf4) ∧
      (c.lineSize.toNat ≠ 0 → c.lineSize.toNat % 4 = 0 → (¬ ∃ o, c.lineSize.toNat = 2 ^ o) →
        legality c = some .lineSizeNotPowerOfTwo) ∧
      ∀ o, 2 ≤ o → c.lineSize.toNat = 2 ^ o →
        (c.numLines.toNat = 0 → legality c = some .linesZero) ∧
        (c.numLines.toNat ≠ 0 → c.policy = .dm → (¬ ∃ j, c.numLines.toNat = 2 ^ j) →
          legality c = some .dmLinesNotPowerOfTwo) ∧
        (c.policy = .w4 → c.numLines.toNat % 4 ≠ 0 → legality c = some .w4LinesNotMultipleOf4) ∧
        (c.numLines.toNat ≠ 0 → c.policy = .w4 → c.numLines.toNat % 4 = 0 → (¬ ∃ j, c.numLines.toNat = 4 * 2 ^ j) →
          legality c = some .w4SetsNotPowerOfTwo) ∧
        ∀ j, (c.policy = .dm ∧ c.numLines.toNat = 2 ^ j) ∨ (c.policy = .w4 ∧ c.numLines.toNat = 4 * 2 ^ j) →
          (16 < o + j → legality c = some .tagBitsNegative) ∧
          (o + j ≤ 16 → c.cacheLatency.toNat = 0 → legality c = some .cacheLatencyZero) ∧
          (o + j ≤ 16 → c.cacheLatency.toNat ≠ 0 → c.memoryLatency.toNat = 0 → legality c = some .memoryLatencyZero) ∧
          (o + j ≤ 16 → c.cacheLatency.toNat ≠ 0 → c.memoryLatency.toNat ≠ 0 → legality c = none))

/-- The derived geometry of a legal configuration (00_scope.md R11): `L = 2^offsetBits`, `numSets = 2^indexBits` is `N` or `N/4`,
and the three widths add up to ADDRESS_WIDTH. -/
def Obligations.LegalGeometryFillsTheAddressWidth : Prop :=
  ∀ c : RunConfig, legality c = none →
    c.lineSize.toNat = 2 ^ (deriveGeometry c).offsetBits ∧
    (deriveGeometry c).numSets = 2 ^ (deriveGeometry c).indexBits ∧
    (c.policy = .dm → (deriveGeometry c).numSets = c.numLines.toNat) ∧
    (c.policy = .w4 → 4 * (deriveGeometry c).numSets = c.numLines.toNat) ∧
    (deriveGeometry c).indexBits + (deriveGeometry c).tagBits + (deriveGeometry c).offsetBits = 16 ∧
    2 ≤ (deriveGeometry c).offsetBits

/-- The closed forms of the cost model (45_cost_model.md R262) are what a successful RESET leaves in `gateCount`, and it is below
2^24 (R263). -/
def Obligations.ResetComputesTheGateCount : Prop :=
  ∀ (c : RunConfig) (s : State), legality c = none →
    ∃ t, exec (.reset c) s = .next t ∧
      (c.policy = .dm → t.gateCount.toNat = 32 * c.numLines.toNat * c.lineSize.toNat + 5 * c.numLines.toNat
        + 2 * t.geom.tagBits * c.numLines.toNat) ∧
      (c.policy = .w4 → t.gateCount.toNat = 32 * c.numLines.toNat * c.lineSize.toNat + 5 * c.numLines.toNat
        + 2 * t.geom.tagBits * c.numLines.toNat + 80 * c.numLines.toNat) ∧
      t.gateCount.toNat < 2 ^ 24

/-- The source's regression value (45_cost_model.md R266): DM, 8 lines of 8 bytes, 10 tag bits, 2248 gates. -/
def Obligations.GateCountWorkedExample : Prop :=
  ∀ (cL mL : BitVec 32) (b : Count),
    (deriveGeometry { policy := .dm, lineSize := 8, numLines := 8, cacheLatency := cL, memoryLatency := mL, budget := b }).tagBits
      = 10 ∧
    gateCountNat { policy := .dm, lineSize := 8, numLines := 8, cacheLatency := cL, memoryLatency := mL, budget := b }
      (deriveGeometry { policy := .dm, lineSize := 8, numLines := 8, cacheLatency := cL, memoryLatency := mL, budget := b })
      = 2248

/-! ## Steps that reach no command -/

/-- Refusal (60_exceptions.md R288): every command but RESET, while `configured = 0`. -/
def Obligations.UnconfiguredEngineRefuses : Prop :=
  ∀ (i : Instr) (s : State), (∀ c, i ≠ .reset c) → s.configured = false → exec i s = .refused .notConfigured

/-- While `fault` is set every step but RESET returns `Faulted` and changes nothing (60_exceptions.md R285). -/
def Obligations.FaultedEngineIsFrozen : Prop :=
  ∀ (i : Instr) (s : State) (f : FaultRecord), (∀ c, i ≠ .reset c) → s.configured = true → s.fault = some f →
    exec i s = .next { s with outcome := .faulted }

/-- A step on a halted engine changes no state and returns `Halted` (44_timing_engine.md R221). -/
def Obligations.HaltedEngineIsFrozen : Prop :=
  ∀ (i : Instr) (s : State), (∀ c, i ≠ .reset c) → s.configured = true → s.fault = none → s.halted = true →
    exec i s = .next { s with outcome := .halted }

/-- IDLE (44_timing_engine.md R227) clears the three pulses and changes nothing else; on a halted or faulted engine it changes
nothing; every word with `v = 0` selects it, whatever its other fields. -/
def Obligations.IdleClearsThePulses : Prop :=
  (∀ s : State, s.Ready → s.busy = false →
    exec .idle s = .next { s with complete := false, lastHit := false, oor := false, outcome := .idle }) ∧
  (∀ s : State, s.configured = true → s.fault.isSome = true → exec .idle s = .next { s with outcome := .faulted }) ∧
  (∀ s : State, s.configured = true → s.fault = none → s.halted = true →
    exec .idle s = .next { s with outcome := .halted }) ∧
  (∀ p : PortInput, p.step.getLsbD 67 = false → p.step.getLsbD 65 = false → decode false p = .idle)

/-! ## The address decoder -/

/-- Recomposition (40_address_decoder.md R123), with `|` and with `+`, whole and truncated to ADDRESS_WIDTH bits. -/
def Obligations.DecodedFieldsRecomposeTheAddress : Prop :=
  ∀ (g : Geometry) (a : Addr), g.offsetBits + g.indexBits ≤ 16 →
    ((decodeAddress g a).tag <<< (g.indexBits + g.offsetBits)) ||| ((decodeAddress g a).index <<< g.offsetBits)
        ||| (decodeAddress g a).offset = a ∧
    ((decodeAddress g a).tag <<< (g.indexBits + g.offsetBits)) + ((decodeAddress g a).index <<< g.offsetBits)
        + (decodeAddress g a).offset = a ∧
    (((decodeAddress g a).tag <<< (g.indexBits + g.offsetBits)) ||| ((decodeAddress g a).index <<< g.offsetBits)
        ||| (decodeAddress g a).offset).setWidth 16 = a.setWidth 16

/-- Field ranges (40_address_decoder.md R124): an out-of-range address never has the tag of an in-range one. -/
def Obligations.DecodedFieldsHaveTheirRanges : Prop :=
  ∀ (c : RunConfig) (a : Addr), legality c = none →
    (decodeAddress (deriveGeometry c) a).offset.toNat < c.lineSize.toNat ∧
    (decodeAddress (deriveGeometry c) a).index.toNat < (deriveGeometry c).numSets ∧
    (decodeAddress (deriveGeometry c) a).tag.toNat
      < 2 ^ (32 - (deriveGeometry c).offsetBits - (deriveGeometry c).indexBits) ∧
    (a.toNat < 65536 → (decodeAddress (deriveGeometry c) a).tag.toNat < 2 ^ (deriveGeometry c).tagBits) ∧
    (65536 ≤ a.toNat → 2 ^ (deriveGeometry c).tagBits ≤ (decodeAddress (deriveGeometry c) a).tag.toNat)

/-- The block-aligned address (40_address_decoder.md R125, 41_cache_common.md R144): the address rounded down to a multiple of the
block size; it has the address's tag and index and offset 0, and is recomposed from them. -/
def Obligations.BlockBaseRoundsDown : Prop :=
  ∀ (c : RunConfig) (a : Addr), legality c = none →
    (blockBase c a).toNat = a.toNat / c.lineSize.toNat * c.lineSize.toNat ∧
    (decodeAddress (deriveGeometry c) (blockBase c a)).tag = (decodeAddress (deriveGeometry c) a).tag ∧
    (decodeAddress (deriveGeometry c) (blockBase c a)).index = (decodeAddress (deriveGeometry c) a).index ∧
    (decodeAddress (deriveGeometry c) (blockBase c a)).offset = 0 ∧
    blockAddress (deriveGeometry c) (decodeAddress (deriveGeometry c) a).tag
      (decodeAddress (deriveGeometry c) a).index.toNat = blockBase c a

/-! ## Bytes, words and memory -/

/-- Little-endian words (41_cache_common.md R142, R143): a word stored at an offset puts its byte `k` at `offset + k`, leaves every
other byte, and is read back by assembling; with the rules' own examples. -/
def Obligations.WordsAreLittleEndian : Prop :=
  (∀ (data : List Byte) (off : Nat) (w : Word), off + 4 ≤ data.length →
    assemble (storeWord data off w) off = w ∧ (storeWord data off w).length = data.length ∧
    (∀ k, k < 4 → (byteAt (storeWord data off w) (off + k)).toNat = w.toNat / 256 ^ k % 256) ∧
    (∀ j, j < off ∨ off + 4 ≤ j → byteAt (storeWord data off w) j = byteAt data j)) ∧
  (∀ (data : List Byte) (off : Nat), (assemble data off).toNat = (byteAt data off).toNat + 256 * (byteAt data (off + 1)).toNat
    + 256 ^ 2 * (byteAt data (off + 2)).toNat + 256 ^ 3 * (byteAt data (off + 3)).toNat) ∧
  assemble [0xEF, 0xBE, 0xAD, 0xDE] 0 = 0xDEADBEEF ∧
  disassemble 0x11223344 = { w0 := 0x44, w1 := 0x33, w2 := 0x22, w3 := 0x11 }

/-- The MemoryModel primitives (20_memory.md R62, R63): the bounds check, the byte read or written, every other byte and field
unchanged; out of range the `oor` pulse and the event, a free byte on a read (log 4), the byte dropped on a write. The counter
`draws` that numbers the free bytes (log 14) and the canonical form of the memory list are the model's own. -/
def Obligations.MemoryPrimitivesCheckBounds : Prop :=
  (∀ (a : Addr) (s : State), a.toNat < 65536 → memRead a s = (Memory.read s.mem a.toNat, s)) ∧
  (∀ (a : Addr) (s : State), 65536 ≤ a.toNat →
    (memRead a s).2 = { s with oor := true, trace := s.trace ++ [.outOfRange .read a], draws := s.draws + 1 }) ∧
  (∀ (a : Addr) (v : Byte) (s : State), a.toNat < 65536 → Memory.wf s.mem = true →
    memWrite a v s = { s with mem := (memWrite a v s).mem } ∧ Memory.wf (memWrite a v s).mem = true ∧
    ∀ b, Memory.read (memWrite a v s).mem b = if b = a.toNat then v else Memory.read s.mem b) ∧
  (∀ (a : Addr) (v : Byte) (s : State), 65536 ≤ a.toNat →
    memWrite a v s = { s with oor := true, trace := s.trace ++ [.outOfRange .write a] })

/-- A block fill (41_cache_common.md R145) reads the `L` bytes from the block-aligned address, ascending. An in-range block changes
nothing; an out-of-range block sets `oor` and emits `L` events. No address wraps. -/
def Obligations.FillReadsTheBlock : Prop :=
  ∀ (a : Addr) (s : State), legality s.cfg = none →
    (blockBase s.cfg a).toNat + s.cfg.lineSize.toNat ≤ 2 ^ 32 ∧
    (a.toNat < 65536 →
      fill a s = ((List.range s.cfg.lineSize.toNat).map fun k => Memory.read s.mem ((blockBase s.cfg a).toNat + k), s)) ∧
    (65536 ≤ a.toNat →
      (fill a s).1.length = s.cfg.lineSize.toNat ∧
      (fill a s).2 = { s with
        oor := true
        trace := s.trace ++ fillEvents s.cfg a
        draws := s.draws + s.cfg.lineSize.toNat })

/-! ## LRU -/

/-- `touch(s, w)` (43_fourway_lru.md R184): `w` becomes the most recent way, the ways younger than it age by one, the others keep
their age; the order of the other three ways and the permutation are kept. -/
def Obligations.TouchMakesTheWayMostRecent : Prop :=
  ∀ (f : Four (BitVec 2)) (w : Fin 4), permutedAges f →
    permutedAges (touchAges f w) ∧ (touchAges f w).get w = 0 ∧
    (∀ x, x ≠ w → ((touchAges f w).get x).toNat
      = if (f.get x).toNat < (f.get w).toNat then (f.get x).toNat + 1 else (f.get x).toNat) ∧
    (∀ x y, x ≠ w → y ≠ w → (f.get x < f.get y ↔ (touchAges f w).get x < (touchAges f w).get y))

/-- The victim (43_fourway_lru.md R183) is the one way with age 3; while the set has EMPTY ways, and they are older than its VALID
ways (10_state.md R44 item 3), it is an EMPTY one. -/
def Obligations.VictimIsTheOldestWay : Prop :=
  ∀ (f : Four Line) (ages : Four (BitVec 2)), permutedAges ages →
    ∃ v, victim ages = some v ∧ ages.get v = 3 ∧ (∀ x, ages.get x = 3 → x = v) ∧
      ((∀ w x : Fin 4, (Four.get f w).valid = false → (Four.get f x).valid = true → ages.get x < ages.get w) →
        (∃ w : Fin 4, (Four.get f w).valid = false) → (Four.get f v).valid = false)

/-- The LRU property (43_fourway_lru.md R190): ways accessed in the order w1, w2, w3, w4, w1 have ages 0, 3, 2, 1, and the next
victim is w2. -/
def Obligations.LeastRecentlyTouchedIsEvicted : Prop :=
  ∀ (f : Four (BitVec 2)) (w1 w2 w3 w4 : Fin 4), permutedAges f →
    w1 ≠ w2 → w1 ≠ w3 → w1 ≠ w4 → w2 ≠ w3 → w2 ≠ w4 → w3 ≠ w4 →
    let g := touchAges (touchAges (touchAges (touchAges (touchAges f w1) w2) w3) w4) w1
    g.get w1 = 0 ∧ g.get w4 = 1 ∧ g.get w3 = 2 ∧ g.get w2 = 3 ∧ victim g = some w2

/-- The equivalent list form (43_fourway_lru.md R186): touching a way moves it to the front, the victim is the last, the list at
RESET is [3, 2, 1, 0]. -/
def Obligations.RecencyListMovesToFront : Prop :=
  (∀ (f : Four (BitVec 2)) (w : Fin 4), permutedAges f →
    recencyList (touchAges f w) = w :: (recencyList f).erase w ∧ victim f = (recencyList f)[3]? ∧
    ∀ x : Fin 4, (recencyList f)[(f.get x).toNat]? = some x) ∧
  recencyList { w0 := 3, w1 := 2, w2 := 1, w3 := 0 } = [3, 2, 1, 0]

/-! ## The cycles of a request -/

/-- The first step of a READ or WRITE (44_timing_engine.md R225, R226) is a cache-wait cycle (R213): the request is latched, the
pulses cleared, the cycle counted, nothing else changes. On the final budget step with `xb = 1` the engine halts with the
overflow sentinel (R220); with `xb = 0` it raises (FinalBudgetStepWithoutSignalRaises). -/
def Obligations.NewRequestWaitsForTheCache : Prop :=
  ∀ (s : State) (xb : Bool) (a : Addr) (d : Word) (isW : Bool), s.Ready → s.busy = false → s.ccnt ≠ 0 →
    s.cycles + 1 ≠ s.cfg.budget ∨ xb = true →
    exec (if isW then .write xb a d else .read xb a d) s = .next
      { s with
        latched := some { address := a, isWrite := isW, data := d }
        complete := false, lastHit := false, oor := false
        cycles := s.cycles + 1
        ccnt := s.ccnt - 1
        waitC := true
        halted := decide (s.cycles + 1 = s.cfg.budget)
        overflow := s.overflow || decide (s.cycles + 1 = s.cfg.budget)
        outcome := .waiting }

/-- A CONTINUE in a cache-wait cycle (44_timing_engine.md R213, R228). -/
def Obligations.CacheWaitCycleCountsDown : Prop :=
  ∀ (s : State) (q : Request) (xb : Bool) (d : Word), s.Ready → s.waitC = true → s.waitM = false → s.ccnt ≠ 0 →
    s.latched = some q → (q.isWrite = true → d = q.data) → s.cycles + 1 ≠ s.cfg.budget ∨ xb = true →
    exec (.cont xb true q.isWrite q.address d) s = .next
      { s with
        complete := false, lastHit := false, oor := false
        cycles := s.cycles + 1
        ccnt := s.ccnt - 1
        halted := decide (s.cycles + 1 = s.cfg.budget)
        overflow := s.overflow || decide (s.cycles + 1 = s.cfg.budget)
        outcome := .waiting }

/-- A CONTINUE in a memory-wait cycle (44_timing_engine.md R215): it counts down, or, at the last one, finishes the request (R216):
`rdata` takes a read's pending word and a write leaves it. -/
def Obligations.MemoryWaitCycleCountsDownAndFinishes : Prop :=
  ∀ (s : State) (q : Request) (xb : Bool) (d : Word), s.Ready → s.waitC = false → s.waitM = true →
    s.latched = some q → (q.isWrite = true → d = q.data) →
    (s.mcnt ≠ 1 → s.cycles + 1 ≠ s.cfg.budget ∨ xb = true →
      exec (.cont xb true q.isWrite q.address d) s = .next
        { s with
          complete := false, lastHit := false, oor := false
          cycles := s.cycles + 1
          mcnt := s.mcnt - 1
          halted := decide (s.cycles + 1 = s.cfg.budget)
          overflow := s.overflow || decide (s.cycles + 1 = s.cfg.budget)
          outcome := .waiting }) ∧
    (s.mcnt = 1 →
      exec (.cont xb true q.isWrite q.address d) s = .next
        { s with
          complete := true, lastHit := false, oor := false
          cycles := s.cycles + 1
          mcnt := s.cfg.memoryLatency
          waitM := false
          rdata := if s.pendWrite then s.rdata else s.pend
          pend := 0
          pendWrite := false
          latched := none
          halted := decide (s.cycles + 1 = s.cfg.budget)
          overflow := s.overflow || (decide (s.cycles + 1 = s.cfg.budget) && xb)
          outcome := .completed })

/-- A READ's access cycle that hits (44_timing_engine.md R214; 42_direct_mapped.md R164, 43_fourway_lru.md R187): it completes with
the word of the hit slot; of the cache only the ages of the set change. -/
def Obligations.ReadHitCompletes : Prop :=
  ∀ (s : State) (q : Request) (xb : Bool) (d : Word) (p : Slot) (l : Line), Inv s → s.Ready →
    s.waitC = true → s.ccnt = 0 → s.latched = some q → q.isWrite = false →
    crossesLine s.cfg s.geom q.address = false →
    slotLine s p = some l → p.index = (decodeAddress s.geom q.address).index.toNat →
    l.holds (decodeAddress s.geom q.address).tag = true →
    exec (.cont xb true false q.address d) s = .next
      { s with
        complete := true, lastHit := true, oor := false
        cycles := s.cycles + 1
        hits := s.hits + 1
        ccnt := s.cfg.cacheLatency
        waitC := false
        rdata := assemble l.data (decodeAddress s.geom q.address).offset.toNat
        pend := 0
        pendWrite := false
        latched := none
        age := (touch p s).age
        halted := decide (s.cycles + 1 = s.cfg.budget)
        overflow := s.overflow || (decide (s.cycles + 1 = s.cfg.budget) && xb)
        outcome := .completed }

/-- A WRITE's access cycle that hits (44_timing_engine.md R214; 42_direct_mapped.md R165, 43_fourway_lru.md R188): the word goes into
the slot and, in range, into the four bytes of memory at the request address (41_cache_common.md R148); every other byte of
memory, `rdata` and the rest stay. Out of range memory drops the bytes and the four events follow
the trace, ascending (60_exceptions.md R283; log 12). -/
def Obligations.WriteHitCompletes : Prop :=
  ∀ (s : State) (q : Request) (xb : Bool) (p : Slot) (l : Line), Inv s → s.Ready →
    s.waitC = true → s.ccnt = 0 → s.latched = some q → q.isWrite = true →
    crossesLine s.cfg s.geom q.address = false →
    slotLine s p = some l → p.index = (decodeAddress s.geom q.address).index.toNat →
    l.holds (decodeAddress s.geom q.address).tag = true →
    ∃ t, exec (.cont xb true true q.address q.data) s = .next t ∧
      t = { s with
        complete := true, lastHit := true, oor := decide (65536 ≤ q.address.toNat)
        cycles := s.cycles + 1
        hits := s.hits + 1
        ccnt := s.cfg.cacheLatency
        waitC := false
        pend := 0
        pendWrite := false
        latched := none
        dm := t.dm, w4 := t.w4, age := (touch p s).age, mem := t.mem, trace := t.trace
        halted := decide (s.cycles + 1 = s.cfg.budget)
        overflow := s.overflow || (decide (s.cycles + 1 = s.cfg.budget) && xb)
        outcome := .completed } ∧
      slotLine t p = some { l with data := storeWord l.data (decodeAddress s.geom q.address).offset.toNat q.data } ∧
      (∀ p', p' ≠ p → slotLine t p' = slotLine s p') ∧
      (q.address.toNat < 65536 → t.trace = s.trace ∧
        ∀ b, Memory.read t.mem b =
          if q.address.toNat ≤ b ∧ b < q.address.toNat + 4 then
            BitVec.ofNat 8 (q.data.toNat / 256 ^ (b - q.address.toNat))
          else Memory.read s.mem b) ∧
      (65536 ≤ q.address.toNat → t.mem = s.mem ∧ t.trace = s.trace ++ writeEvents q.address)

/-- An access cycle that misses (44_timing_engine.md R214; 42_direct_mapped.md R163; 43_fourway_lru.md R189): the victim slot, the
indexed line under DM and the way of age 3 under W4, becomes VALID with the decoded tag; the miss is counted and the memory wait
begins. In range its data are memory's block, with a WRITE's word stored into it and into memory; the pending word of a READ is
memory's word. Out of range `oor` is set, memory stays and the events of the fill, then those of a
WRITE, follow the trace, ascending (41_cache_common.md R145, 60_exceptions.md R283; log 12); the filled bytes are free (log 4).
Every other slot and every other byte of memory stay. A READ may present any `data` (30_encoding.md R97). -/
def Obligations.AccessMissFillsTheVictim : Prop :=
  ∀ (s : State) (q : Request) (xb : Bool) (d : Word) (p : Slot), Inv s → s.Ready →
    s.waitC = true → s.ccnt = 0 → s.latched = some q → (q.isWrite = true → d = q.data) →
    crossesLine s.cfg s.geom q.address = false →
    p.index = (decodeAddress s.geom q.address).index.toNat →
    (∀ p' l, slotLine s p' = some l → p'.index = p.index → l.holds (decodeAddress s.geom q.address).tag = false) →
    (s.cfg.policy = .dm → p = .line p.index) →
    (s.cfg.policy = .w4 → ∃ ages v, s.age[p.index]? = some ages ∧ p = .way p.index v ∧ ages.get v = 3) →
    s.cycles + 1 ≠ s.cfg.budget ∨ xb = true →
    ∃ t l, exec (.cont xb true q.isWrite q.address d) s = .next t ∧
      t = { s with
        complete := false, lastHit := false, oor := decide (65536 ≤ q.address.toNat)
        cycles := s.cycles + 1
        misses := s.misses + 1
        ccnt := s.cfg.cacheLatency
        waitC := false
        waitM := true
        pend := t.pend
        pendWrite := q.isWrite
        dm := t.dm, w4 := t.w4, age := (touch p s).age, mem := t.mem, trace := t.trace, draws := t.draws
        halted := decide (s.cycles + 1 = s.cfg.budget)
        overflow := s.overflow || decide (s.cycles + 1 = s.cfg.budget)
        outcome := .waiting } ∧
      slotLine t p = some l ∧ l.valid = true ∧ l.tag = (decodeAddress s.geom q.address).tag ∧
      l.data.length = s.cfg.lineSize.toNat ∧
      (∀ p', p' ≠ p → slotLine t p' = slotLine s p') ∧
      (q.isWrite = true → assemble l.data (decodeAddress s.geom q.address).offset.toNat = q.data ∧ t.pend = 0) ∧
      (q.isWrite = false → t.pend = assemble l.data (decodeAddress s.geom q.address).offset.toNat ∧ t.mem = s.mem) ∧
      (q.address.toNat < 65536 → t.trace = s.trace ∧ t.draws = s.draws ∧
        (∀ k, k < s.cfg.lineSize.toNat → byteAt l.data k = Memory.read t.mem ((blockBase s.cfg q.address).toNat + k)) ∧
        ∀ b, Memory.read t.mem b =
          if q.isWrite = true ∧ q.address.toNat ≤ b ∧ b < q.address.toNat + 4 then
            BitVec.ofNat 8 (q.data.toNat / 256 ^ (b - q.address.toNat))
          else Memory.read s.mem b) ∧
      (65536 ≤ q.address.toNat → t.mem = s.mem ∧ t.trace = s.trace ++ missEvents s.cfg q)

/-! ## Model faults -/

/-- A CONTINUE that does not repeat the request (70_reset_and_hazards.md R330) raises HostProtocol(RequestNotHeld) with the presented
word: the state is the one before the step, with only `fault` set (60_exceptions.md R285); the code is 3 (R284). -/
def Obligations.UnheldRequestRaises : Prop :=
  ∀ (s : State) (q : Request) (xb v w : Bool) (a : Addr) (d : Word), s.Ready → s.busy = true → s.latched = some q →
    v = false ∨ w ≠ q.isWrite ∨ a ≠ q.address ∨ (q.isWrite = true ∧ d ≠ q.data) →
    exec (.cont xb v w a d) s = .next
      { s with
        fault := some (.requestNotHeld (encode (.cont xb v w a d)).step)
        trace := s.trace ++ [.fault (.requestNotHeld (encode (.cont xb v w a d)).step)]
        outcome := .faulted } ∧
    (FaultRecord.requestNotHeld (encode (.cont xb v w a d)).step).code = 3

/-- A word that runs past the end of its line raises LineCross at the access cycle (20_memory.md R70), before any state changes: the
cache, memory, counters and flags are as before, and `cycles` does not count the step (60_exceptions.md R287). -/
def Obligations.LineCrossingAccessRaises : Prop :=
  ∀ (s : State) (q : Request) (xb : Bool) (d : Word), s.Ready → s.waitC = true → s.waitM = false → s.ccnt = 0 →
    s.latched = some q → (q.isWrite = true → d = q.data) →
    s.cfg.lineSize.toNat < (decodeAddress s.geom q.address).offset.toNat + 4 →
    exec (.cont xb true q.isWrite q.address d) s = .next
      { s with
        fault := some (.lineCross q.address)
        trace := s.trace ++ [.fault (.lineCross q.address)]
        outcome := .faulted } ∧
    (FaultRecord.lineCross q.address).code = 2

/-- On the step that would make `cycles = B`, `xb = 0` with the request still in flight after it raises
HostProtocol(BudgetSignalMissing) (44_timing_engine.md R220, 70_reset_and_hazards.md R331): a first step, a cache wait, a memory wait
that is not the last, a miss. The state is the one before the step, with only `fault` set (60_exceptions.md R285); the trace keeps
the events the step had emitted (log 12). -/
def Obligations.FinalBudgetStepWithoutSignalRaises : Prop :=
  (∀ (s : State) (a : Addr) (d : Word) (isW : Bool), s.Ready → s.busy = false → s.ccnt ≠ 0 →
    s.cycles + 1 = s.cfg.budget →
    ∃ t word, exec (if isW then .write false a d else .read false a d) s = .next t ∧
      word = (encode (if isW then .write false a d else .read false a d)).step ∧
      t = { s with fault := some (.budgetSignalMissing word), trace := s.trace ++ [.fault (.budgetSignalMissing word)],
                   outcome := .faulted }) ∧
  (∀ (s : State) (q : Request) (d : Word), Inv s → s.Ready → s.busy = true → s.latched = some q →
    (q.isWrite = true → d = q.data) → s.cycles + 1 = s.cfg.budget → finishesNow s q = false →
    (s.atAccess = true → crossesLine s.cfg s.geom q.address = false) →
    ∃ t word, exec (.cont false true q.isWrite q.address d) s = .next t ∧
      word = (encode (.cont false true q.isWrite q.address d)).step ∧
      t.trace = s.trace ++ (if s.atAccess then missEvents s.cfg q else []) ++ [.fault (.budgetSignalMissing word)] ∧
      t = { s with fault := some (.budgetSignalMissing word), trace := t.trace, draws := t.draws, outcome := .faulted })

/-- The outputs (30_encoding.md R93, 44_timing_engine.md R236): `cycles` is the sentinel 2^64 − 2 while `overflow` is set, and the
true count, which no legal budget lets be the sentinel, otherwise; `faultCode` is the code of the recorded fault (60_exceptions.md
R284), 0 when there is none; the others are the registers. The Result (R237) is four of them, in every state. -/
def Obligations.OutputsReportTheSentinel : Prop :=
  (∀ s : State, s.overflow = true → s.out.cycles.toNat = 2 ^ 64 - 2) ∧
  (∀ s : State, s.overflow = false → s.out.cycles = s.cycles) ∧
  (∀ s : State, Inv s → s.configured = true → (s.out.cycles.toNat = 2 ^ 64 - 2 ↔ s.overflow = true)) ∧
  (∀ s : State, s.out.hits = s.hits ∧ s.out.misses = s.misses ∧ s.out.rdata = s.rdata ∧ s.out.waitC = s.waitC ∧
    s.out.waitM = s.waitM ∧ s.out.complete = s.complete ∧ s.out.lastHit = s.lastHit ∧ s.out.oor = s.oor ∧
    s.out.halted = s.halted ∧ s.out.overflow = s.overflow ∧ s.out.configured = s.configured ∧
    s.out.gateCount = s.gateCount) ∧
  (∀ s : State, (s.fault = none → s.out.faultCode = 0) ∧
    (∀ k, s.fault = some (.configError k) → s.out.faultCode = 1) ∧
    (∀ a, s.fault = some (.lineCross a) → s.out.faultCode = 2) ∧
    (∀ w, s.fault = some (.requestNotHeld w) → s.out.faultCode = 3) ∧
    (∀ w, s.fault = some (.budgetSignalMissing w) → s.out.faultCode = 3)) ∧
  (∀ s : State, s.result.cycles = s.out.cycles ∧ s.result.hits = s.out.hits ∧ s.result.misses = s.out.misses ∧
    s.result.gateCount = s.out.gateCount)

/-! ## Frames of the request commands -/

/-- READ, WRITE, IDLE and CONTINUE never write what only RESET writes (10_state.md R42), and never clear `halted`, `overflow` or
`fault` (R34, R35, R38). -/
def Obligations.RequestStepsKeepTheConfiguration : Prop :=
  ∀ (i : Instr) (s t : State), (∀ c, i ≠ .reset c) → exec i s = .next t →
    t.configured = s.configured ∧ t.cfg = s.cfg ∧ t.geom = s.geom ∧ t.gateCount = s.gateCount ∧ t.inputs = s.inputs ∧
    (s.halted = true → t.halted = true) ∧ (s.overflow = true → t.overflow = true) ∧
    (∀ f, s.fault = some f → t.fault = some f)

/-- Memory's frame (20_memory.md R61, R66): a step of READ, WRITE, IDLE or CONTINUE that is not an access cycle with `w = 1` leaves
every byte; an access cycle with `w = 1` leaves every byte but the four at the presented address. -/
def Obligations.OnlyAWriteAccessChangesMemory : Prop :=
  ∀ (i : Instr) (s t : State), (∀ c, i ≠ .reset c) → exec i s = .next t →
    (¬(s.atAccess = true ∧ i.stepIn.w = true) → t.mem = s.mem) ∧
    (∀ b : Nat, (∀ k, k < 4 → b ≠ (i.stepIn.addr + BitVec.ofNat 32 k).toNat) →
      Memory.read t.mem b = Memory.read s.mem b)

/-- The cache's frame (43_fourway_lru.md R181): a step that is not an access cycle leaves the whole cache; an access cycle leaves
every slot and every age outside the set (or line) of the presented address's index. -/
def Obligations.AccessTouchesOnlyItsSet : Prop :=
  ∀ (i : Instr) (s t : State), (∀ c, i ≠ .reset c) → exec i s = .next t →
    (s.atAccess = false → t.dm = s.dm ∧ t.w4 = s.w4 ∧ t.age = s.age) ∧
    (∀ p, p.index ≠ (decodeAddress s.geom i.stepIn.addr).index.toNat → slotLine t p = slotLine s p) ∧
    (∀ k, k ≠ (decodeAddress s.geom i.stepIn.addr).index.toNat → t.age[k]? = s.age[k]?)

/-- `rdata` is the data of the most recently completed read (10_state.md R36): a step of READ, WRITE, IDLE or CONTINUE changes it
only when it completes a read, at the end of a memory wait (the pending word) or at a hit. -/
def Obligations.OnlyACompletedReadChangesRdata : Prop :=
  ∀ (i : Instr) (s t : State), (∀ c, i ≠ .reset c) → exec i s = .next t → t.rdata ≠ s.rdata →
    t.complete = true ∧ t.outcome = .completed ∧
    ((s.waitM = true ∧ s.pendWrite = false ∧ t.rdata = s.pend) ∨
      (s.atAccess = true ∧ i.stepIn.w = false ∧ t.lastHit = true))

/-- The counters (44_timing_engine.md R211, R229): a counted step that raises nothing adds 1 to `cycles`; the access cycle adds 1 to
exactly one of `hits` and `misses`, and no other step adds to them; every step that is not counted, or raises, leaves all three. -/
def Obligations.CountersCountStepsAndAccesses : Prop :=
  ∀ (i : Instr) (s t : State), (∀ c, i ≠ .reset c) → exec i s = .next t →
    (s.Ready → s.busy = true ∨ i.stepIn.v = true → t.fault = none →
      t.cycles = s.cycles + 1 ∧
      (s.atAccess = false → t.hits = s.hits ∧ t.misses = s.misses) ∧
      (s.atAccess = true → (t.hits = s.hits + 1 ∧ t.misses = s.misses ∧ t.lastHit = true) ∨
        (t.hits = s.hits ∧ t.misses = s.misses + 1 ∧ t.lastHit = false))) ∧
    (¬ s.Ready ∨ (s.busy = false ∧ i.stepIn.v = false) ∨ t.fault ≠ none →
      t.cycles = s.cycles ∧ t.hits = s.hits ∧ t.misses = s.misses)

/-- The step's return value (44_timing_engine.md R231): after a counted or an IDLE step that raises nothing, `complete = 1` exactly
when the step returned `Completed`; a halted or faulted step leaves the pulses. -/
def Obligations.CompletePulseMatchesTheReturn : Prop :=
  ∀ (i : Instr) (s t : State), (∀ c, i ≠ .reset c) → exec i s = .next t →
    (s.Ready → t.fault = none → (t.complete = true ↔ t.outcome = .completed)) ∧
    (¬ s.Ready → t.complete = s.complete ∧ t.lastHit = s.lastHit ∧ t.oor = s.oor ∧
      (t.outcome = .halted ∨ t.outcome = .faulted)) ∧
    (s.Ready → t.fault ≠ none →
      t.outcome = .faulted ∧ t.complete = s.complete ∧ t.lastHit = s.lastHit ∧ t.oor = s.oor)

/-- A VALID line or way never goes back to EMPTY but by RESET (10_state.md R29, 20_memory.md R81). -/
def Obligations.ValidSlotsStayValid : Prop :=
  ∀ (i : Instr) (s t : State) (p : Slot) (l : Line), (∀ c, i ≠ .reset c) → exec i s = .next t →
    slotLine s p = some l → l.valid = true → ∃ l', slotLine t p = some l' ∧ l'.valid = true

/-! ## What the cache means -/

/-- The cache is transparent (41_cache_common.md R150): for an in-range address whose word stays in its line, an access that reads
always returns memory's word as it stood before, whether it hits or misses. -/
def Obligations.ReadReturnsMemorysWord : Prop :=
  ∀ (s : State) (a : Addr) (d : Word), Inv s → s.configured = true → a.toNat < 65536 →
    crossesLine s.cfg s.geom a = false →
    ∃ word hit t, access { address := a, isWrite := false, data := d } s = .done word hit t ∧
      word.toNat = (Memory.read s.mem a.toNat).toNat + 256 * (Memory.read s.mem (a.toNat + 1)).toNat
        + 256 ^ 2 * (Memory.read s.mem (a.toNat + 2)).toNat + 256 ^ 3 * (Memory.read s.mem (a.toNat + 3)).toNat

/-- The write-through property (41_cache_common.md R155): after an in-range write access the host's view of memory, bypassing the
cache, shows the word; out of range memory drops it (20_memory.md R74), and the cached line holds it. -/
def Obligations.WriteReachesMemory : Prop :=
  ∀ (s : State) (a : Addr) (w : Word), Inv s → s.configured = true → crossesLine s.cfg s.geom a = false →
    ∃ hit t, access { address := a, isWrite := true, data := w } s = .done 0 hit t ∧
      (a.toNat < 65536 → ∀ n k, k < 4 → memPeek n t (a + BitVec.ofNat 32 k) = BitVec.ofNat 8 (w.toNat / 256 ^ k)) ∧
      (65536 ≤ a.toNat → t.mem = s.mem) ∧
      ∃ p l, slotLine t p = some l ∧ p.index = (decodeAddress s.geom a).index.toNat ∧
        l.holds (decodeAddress s.geom a).tag = true ∧ assemble l.data (decodeAddress s.geom a).offset.toNat = w

/-- Re-access (41_cache_common.md R154): after an access the same address hits. -/
def Obligations.ReaccessHits : Prop :=
  ∀ (s t : State) (req : Request) (word : Word) (hit : Bool), Inv s → s.configured = true →
    access req s = .done word hit t → wouldHit t req.address = true

/-- Cold miss (41_cache_common.md R153): after a successful RESET no address hits. -/
def Obligations.FirstAccessMisses : Prop :=
  ∀ (c : RunConfig) (s : State), legality c = none →
    ∃ t, exec (.reset c) s = .next t ∧ ∀ a, wouldHit t a = false

/-- Aliasing (42_direct_mapped.md R166): in a direct-mapped cache an access evicts every block of the same index with another
tag. -/
def Obligations.AliasesEvictEachOther : Prop :=
  ∀ (s t : State) (req : Request) (word : Word) (hit : Bool) (a : Addr), Inv s → s.configured = true →
    s.cfg.policy = .dm → access req s = .done word hit t →
    (decodeAddress s.geom a).index = (decodeAddress s.geom req.address).index →
    (decodeAddress s.geom a).tag ≠ (decodeAddress s.geom req.address).tag → wouldHit t a = false

/-! ## The invariant -/

/-- The state after reset meets the invariant (10_state.md R43, R44); its configuration is the model's choice (log 1). -/
def Obligations.ResetStateMeetsTheInvariant : Prop := Inv State.reset

/-- Every step keeps the invariant (10_state.md R44): the canonical memory, and in a configured engine the eight items, the storage's
shape and the idle values of the countdowns. -/
def Obligations.EveryStepKeepsTheInvariant : Prop :=
  ∀ s t : State, Inv s → step s = .next t → Inv t

/-- From a state that meets the invariant no step stops: with a bundle presented to a configured engine, or a RESET presented to any,
there is a next state ("No exceptions cross the engine boundary for the data-path", 60_exceptions.md R280). -/
def Obligations.PresentedStepsNeverStop : Prop :=
  ∀ (s : State) (p : PortInput) (rest : List PortInput), Inv s → s.inputs = p :: rest →
    s.configured = true ∨ p.step.getLsbD 67 = true → ∃ t, step s = .next t

/-! ## Runs -/

/-- Per-request cost (44_timing_engine.md R222): presented as R101 says, a request that hits takes exactly `cL + 1` counted steps and
one that misses exactly `cL + mL + 1`, READ and WRITE alike; it is in flight after every earlier step, and complete after the
last. The words are the model's description of a dutiful host (log 16, log 18). -/
def Obligations.RequestTakesItsCycles : Prop :=
  ∀ (s : State) (r : Request) (more : Bool), Inv s → s.Ready → s.busy = false →
    crossesLine s.cfg s.geom r.address = false →
    ∀ k, k = requestSteps s.cfg (wouldHit s r.address) → s.cycles.toNat + k ≤ s.cfg.budget.toNat →
    (∀ j, 0 < j → j < k → ∃ u : State,
      Host.Core.run Sys2Proof.core j
        ({ s with inputs := requestWords r k s.cycles.toNat s.cfg.budget.toNat more } : State) = .next u ∧
      u.busy = true ∧ u.complete = false ∧ u.fault = none ∧ u.cycles.toNat = s.cycles.toNat + j) ∧
    ∃ t : State,
      Host.Core.run Sys2Proof.core k
        ({ s with inputs := requestWords r k s.cycles.toNat s.cfg.budget.toNat more } : State) = .next t ∧
      t.busy = false ∧ t.complete = true ∧ t.fault = none ∧ t.cycles.toNat = s.cycles.toNat + k ∧
      t.hits = s.hits + (if wouldHit s r.address then 1 else 0) ∧
      t.misses = s.misses + (if wouldHit s r.address then 0 else 1) ∧
      (r.isWrite = true → t.rdata = s.rdata)

/-- The overflow property (44_timing_engine.md R239, R220): a host that keeps its duties drives any stream of requests to the end of
the run (R238); the reported `cycles` is the sentinel exactly when a request is left unfinished, and the true count otherwise.
The host is the model's own description (log 16, log 18). -/
def Obligations.OverflowReportedExactlyWhenUnfinished : Prop :=
  ∀ (s : State) (stream : List Request) (fuel : Nat), Inv s → s.Ready → s.busy = false →
    (∀ r ∈ stream, crossesLine s.cfg s.geom r.address = false) →
    stream.length * requestSteps s.cfg false ≤ fuel →
    ∃ t left, driveStream fuel stream s = (.next t, left) ∧ runEnded t left = true ∧
      ((left ≠ [] ∨ t.busy = true) → t.out.cycles.toNat = 2 ^ 64 - 2 ∧ t.cycles = s.cfg.budget) ∧
      ((left = [] ∧ t.busy = false) → t.out.cycles = t.cycles ∧ t.out.cycles.toNat ≤ s.cfg.budget.toNat)

/-- The cycle count of a run (70_reset_and_hazards.md R341): a stream driven back to back to its end, no request left and the engine
not busy, took `h·(cL + 1) + m·(cL + mL + 1)` cycles for its `h` hits and `m` misses, whatever the budget; and a stream that fits the
budget even if every request misses is driven to its end. The host is the model's own description (log 16, log 18). -/
def Obligations.RunTakesTheCyclesOfItsRequests : Prop :=
  ∀ (s : State) (stream : List Request) (fuel : Nat), Inv s → s.Ready → s.busy = false →
    (∀ t : State, driveStream fuel stream s = (.next t, []) → t.busy = false →
      t.fault = none ∧
      ∃ h m : Nat, h + m = stream.length ∧ t.hits.toNat = s.hits.toNat + h ∧ t.misses.toNat = s.misses.toNat + m ∧
        t.cycles.toNat = s.cycles.toNat + h * requestSteps s.cfg true + m * requestSteps s.cfg false) ∧
    ((∀ r ∈ stream, crossesLine s.cfg s.geom r.address = false) →
      stream.length * requestSteps s.cfg false ≤ fuel →
      s.cycles.toNat + stream.length * requestSteps s.cfg false ≤ s.cfg.budget.toNat →
      ∃ t : State, driveStream fuel stream s = (.next t, []) ∧ t.busy = false)
end

