-- ==== Sys2Proof/Laws/State.lean ====
section
/-! SUPPORT. Each named update of State, field by field: simp reads one rewrite rule for each clause. -/

namespace Sys2Proof.Machine

/-- Every field after `clearPulses`. -/
@[simp] theorem clearPulses_fields (s : State) :
    (clearPulses s).configured = s.configured ∧ (clearPulses s).cfg = s.cfg ∧ (clearPulses s).geom = s.geom ∧
    (clearPulses s).gateCount = s.gateCount ∧ (clearPulses s).dm = s.dm ∧ (clearPulses s).w4 = s.w4 ∧
    (clearPulses s).age = s.age ∧ (clearPulses s).ccnt = s.ccnt ∧ (clearPulses s).mcnt = s.mcnt ∧
    (clearPulses s).waitC = s.waitC ∧ (clearPulses s).waitM = s.waitM ∧ (clearPulses s).pend = s.pend ∧
    (clearPulses s).pendWrite = s.pendWrite ∧ (clearPulses s).cycles = s.cycles ∧ (clearPulses s).hits = s.hits ∧
    (clearPulses s).misses = s.misses ∧ (clearPulses s).overflow = s.overflow ∧ (clearPulses s).halted = s.halted ∧
    (clearPulses s).rdata = s.rdata ∧ (clearPulses s).complete = false ∧ (clearPulses s).lastHit = false ∧
    (clearPulses s).oor = false ∧ (clearPulses s).fault = s.fault ∧ (clearPulses s).latched = s.latched ∧
    (clearPulses s).mem = s.mem ∧ (clearPulses s).inputs = s.inputs ∧ (clearPulses s).outcome = s.outcome ∧
    (clearPulses s).trace = s.trace ∧ (clearPulses s).draws = s.draws :=
  ⟨rfl, rfl, rfl, rfl, rfl, rfl, rfl, rfl, rfl, rfl, rfl, rfl, rfl, rfl, rfl, rfl, rfl, rfl, rfl, rfl, rfl, rfl, rfl, rfl, rfl, rfl, rfl, rfl, rfl⟩

/-- Every field after `emit`. -/
@[simp] theorem emit_fields (e : Event) (s : State) :
    (emit e s).configured = s.configured ∧ (emit e s).cfg = s.cfg ∧ (emit e s).geom = s.geom ∧
    (emit e s).gateCount = s.gateCount ∧ (emit e s).dm = s.dm ∧ (emit e s).w4 = s.w4 ∧ (emit e s).age = s.age ∧
    (emit e s).ccnt = s.ccnt ∧ (emit e s).mcnt = s.mcnt ∧ (emit e s).waitC = s.waitC ∧ (emit e s).waitM = s.waitM ∧
    (emit e s).pend = s.pend ∧ (emit e s).pendWrite = s.pendWrite ∧ (emit e s).cycles = s.cycles ∧
    (emit e s).hits = s.hits ∧ (emit e s).misses = s.misses ∧ (emit e s).overflow = s.overflow ∧
    (emit e s).halted = s.halted ∧ (emit e s).rdata = s.rdata ∧ (emit e s).complete = s.complete ∧
    (emit e s).lastHit = s.lastHit ∧ (emit e s).oor = s.oor ∧ (emit e s).fault = s.fault ∧
    (emit e s).latched = s.latched ∧ (emit e s).mem = s.mem ∧ (emit e s).inputs = s.inputs ∧
    (emit e s).outcome = s.outcome ∧ (emit e s).trace = s.trace ++ [e] ∧ (emit e s).draws = s.draws :=
  ⟨rfl, rfl, rfl, rfl, rfl, rfl, rfl, rfl, rfl, rfl, rfl, rfl, rfl, rfl, rfl, rfl, rfl, rfl, rfl, rfl, rfl, rfl, rfl, rfl, rfl, rfl, rfl, rfl, rfl⟩

/-- Every field after an out-of-range byte access. -/
@[simp] theorem noteOutOfRange_fields (k : AccessKind) (a : Addr) (s : State) :
    (noteOutOfRange k a s).configured = s.configured ∧ (noteOutOfRange k a s).cfg = s.cfg ∧
    (noteOutOfRange k a s).geom = s.geom ∧ (noteOutOfRange k a s).gateCount = s.gateCount ∧
    (noteOutOfRange k a s).dm = s.dm ∧ (noteOutOfRange k a s).w4 = s.w4 ∧ (noteOutOfRange k a s).age = s.age ∧
    (noteOutOfRange k a s).ccnt = s.ccnt ∧ (noteOutOfRange k a s).mcnt = s.mcnt ∧
    (noteOutOfRange k a s).waitC = s.waitC ∧ (noteOutOfRange k a s).waitM = s.waitM ∧
    (noteOutOfRange k a s).pend = s.pend ∧ (noteOutOfRange k a s).pendWrite = s.pendWrite ∧
    (noteOutOfRange k a s).cycles = s.cycles ∧ (noteOutOfRange k a s).hits = s.hits ∧
    (noteOutOfRange k a s).misses = s.misses ∧ (noteOutOfRange k a s).overflow = s.overflow ∧
    (noteOutOfRange k a s).halted = s.halted ∧ (noteOutOfRange k a s).rdata = s.rdata ∧
    (noteOutOfRange k a s).complete = s.complete ∧ (noteOutOfRange k a s).lastHit = s.lastHit ∧
    (noteOutOfRange k a s).oor = true ∧ (noteOutOfRange k a s).fault = s.fault ∧
    (noteOutOfRange k a s).latched = s.latched ∧ (noteOutOfRange k a s).mem = s.mem ∧
    (noteOutOfRange k a s).inputs = s.inputs ∧ (noteOutOfRange k a s).outcome = s.outcome ∧
    (noteOutOfRange k a s).trace = s.trace ++ [.outOfRange k a] ∧ (noteOutOfRange k a s).draws = s.draws :=
  ⟨rfl, rfl, rfl, rfl, rfl, rfl, rfl, rfl, rfl, rfl, rfl, rfl, rfl, rfl, rfl, rfl, rfl, rfl, rfl, rfl, rfl, rfl, rfl, rfl, rfl, rfl, rfl, rfl, rfl⟩

/-- Every field after `finish` (R216). -/
@[simp] theorem finish_fields (w : Bool) (x : Word) (s : State) :
    (finish w x s).configured = s.configured ∧ (finish w x s).cfg = s.cfg ∧ (finish w x s).geom = s.geom ∧
    (finish w x s).gateCount = s.gateCount ∧ (finish w x s).dm = s.dm ∧ (finish w x s).w4 = s.w4 ∧
    (finish w x s).age = s.age ∧ (finish w x s).ccnt = s.ccnt ∧ (finish w x s).mcnt = s.mcnt ∧
    (finish w x s).waitC = s.waitC ∧ (finish w x s).waitM = s.waitM ∧ (finish w x s).pend = 0 ∧
    (finish w x s).pendWrite = false ∧ (finish w x s).cycles = s.cycles ∧ (finish w x s).hits = s.hits ∧
    (finish w x s).misses = s.misses ∧ (finish w x s).overflow = s.overflow ∧ (finish w x s).halted = s.halted ∧
    (finish w x s).rdata = (if w then s.rdata else x) ∧ (finish w x s).complete = true ∧
    (finish w x s).lastHit = s.lastHit ∧ (finish w x s).oor = s.oor ∧ (finish w x s).fault = s.fault ∧
    (finish w x s).latched = none ∧ (finish w x s).mem = s.mem ∧ (finish w x s).inputs = s.inputs ∧
    (finish w x s).outcome = .completed ∧ (finish w x s).trace = s.trace ∧ (finish w x s).draws = s.draws :=
  ⟨rfl, rfl, rfl, rfl, rfl, rfl, rfl, rfl, rfl, rfl, rfl, rfl, rfl, rfl, rfl, rfl, rfl, rfl, rfl, rfl, rfl, rfl, rfl, rfl, rfl, rfl, rfl, rfl, rfl⟩

/-- Every field after a cache-wait cycle (R213). -/
@[simp] theorem cacheWait_fields (s : State) :
    (cacheWait s).configured = s.configured ∧ (cacheWait s).cfg = s.cfg ∧ (cacheWait s).geom = s.geom ∧
    (cacheWait s).gateCount = s.gateCount ∧ (cacheWait s).dm = s.dm ∧ (cacheWait s).w4 = s.w4 ∧
    (cacheWait s).age = s.age ∧ (cacheWait s).ccnt = s.ccnt - 1 ∧ (cacheWait s).mcnt = s.mcnt ∧
    (cacheWait s).waitC = true ∧ (cacheWait s).waitM = s.waitM ∧ (cacheWait s).pend = s.pend ∧
    (cacheWait s).pendWrite = s.pendWrite ∧ (cacheWait s).cycles = s.cycles ∧ (cacheWait s).hits = s.hits ∧
    (cacheWait s).misses = s.misses ∧ (cacheWait s).overflow = s.overflow ∧ (cacheWait s).halted = s.halted ∧
    (cacheWait s).rdata = s.rdata ∧ (cacheWait s).complete = s.complete ∧ (cacheWait s).lastHit = s.lastHit ∧
    (cacheWait s).oor = s.oor ∧ (cacheWait s).fault = s.fault ∧ (cacheWait s).latched = s.latched ∧
    (cacheWait s).mem = s.mem ∧ (cacheWait s).inputs = s.inputs ∧ (cacheWait s).outcome = .waiting ∧
    (cacheWait s).trace = s.trace ∧ (cacheWait s).draws = s.draws :=
  ⟨rfl, rfl, rfl, rfl, rfl, rfl, rfl, rfl, rfl, rfl, rfl, rfl, rfl, rfl, rfl, rfl, rfl, rfl, rfl, rfl, rfl, rfl, rfl, rfl, rfl, rfl, rfl, rfl, rfl⟩

/-- Every field after the cache wait ends (R214). -/
@[simp] theorem endCacheWait_fields (s : State) :
    (endCacheWait s).configured = s.configured ∧ (endCacheWait s).cfg = s.cfg ∧ (endCacheWait s).geom = s.geom ∧
    (endCacheWait s).gateCount = s.gateCount ∧ (endCacheWait s).dm = s.dm ∧ (endCacheWait s).w4 = s.w4 ∧
    (endCacheWait s).age = s.age ∧ (endCacheWait s).ccnt = s.cfg.cacheLatency ∧ (endCacheWait s).mcnt = s.mcnt ∧
    (endCacheWait s).waitC = false ∧ (endCacheWait s).waitM = s.waitM ∧ (endCacheWait s).pend = s.pend ∧
    (endCacheWait s).pendWrite = s.pendWrite ∧ (endCacheWait s).cycles = s.cycles ∧ (endCacheWait s).hits = s.hits ∧
    (endCacheWait s).misses = s.misses ∧ (endCacheWait s).overflow = s.overflow ∧
    (endCacheWait s).halted = s.halted ∧ (endCacheWait s).rdata = s.rdata ∧ (endCacheWait s).complete = s.complete ∧
    (endCacheWait s).lastHit = s.lastHit ∧ (endCacheWait s).oor = s.oor ∧ (endCacheWait s).fault = s.fault ∧
    (endCacheWait s).latched = s.latched ∧ (endCacheWait s).mem = s.mem ∧ (endCacheWait s).inputs = s.inputs ∧
    (endCacheWait s).outcome = s.outcome ∧ (endCacheWait s).trace = s.trace ∧ (endCacheWait s).draws = s.draws :=
  ⟨rfl, rfl, rfl, rfl, rfl, rfl, rfl, rfl, rfl, rfl, rfl, rfl, rfl, rfl, rfl, rfl, rfl, rfl, rfl, rfl, rfl, rfl, rfl, rfl, rfl, rfl, rfl, rfl, rfl⟩

/-- Every field after a hit is finished (R214, R216). -/
@[simp] theorem finishHit_fields (w : Bool) (x : Word) (s : State) :
    (finishHit w x s).configured = s.configured ∧ (finishHit w x s).cfg = s.cfg ∧ (finishHit w x s).geom = s.geom ∧
    (finishHit w x s).gateCount = s.gateCount ∧ (finishHit w x s).dm = s.dm ∧ (finishHit w x s).w4 = s.w4 ∧
    (finishHit w x s).age = s.age ∧ (finishHit w x s).ccnt = s.ccnt ∧ (finishHit w x s).mcnt = s.mcnt ∧
    (finishHit w x s).waitC = s.waitC ∧ (finishHit w x s).waitM = s.waitM ∧ (finishHit w x s).pend = 0 ∧
    (finishHit w x s).pendWrite = false ∧ (finishHit w x s).cycles = s.cycles ∧ (finishHit w x s).hits = s.hits + 1 ∧
    (finishHit w x s).misses = s.misses ∧ (finishHit w x s).overflow = s.overflow ∧
    (finishHit w x s).halted = s.halted ∧ (finishHit w x s).rdata = (if w then s.rdata else x) ∧
    (finishHit w x s).complete = true ∧ (finishHit w x s).lastHit = true ∧ (finishHit w x s).oor = s.oor ∧
    (finishHit w x s).fault = s.fault ∧ (finishHit w x s).latched = none ∧ (finishHit w x s).mem = s.mem ∧
    (finishHit w x s).inputs = s.inputs ∧ (finishHit w x s).outcome = .completed ∧
    (finishHit w x s).trace = s.trace ∧ (finishHit w x s).draws = s.draws :=
  ⟨rfl, rfl, rfl, rfl, rfl, rfl, rfl, rfl, rfl, rfl, rfl, rfl, rfl, rfl, rfl, rfl, rfl, rfl, rfl, rfl, rfl, rfl, rfl, rfl, rfl, rfl, rfl, rfl, rfl⟩

/-- Every field after a miss is counted (R214). -/
@[simp] theorem startMemoryWait_fields (w : Bool) (x : Word) (s : State) :
    (startMemoryWait w x s).configured = s.configured ∧ (startMemoryWait w x s).cfg = s.cfg ∧
    (startMemoryWait w x s).geom = s.geom ∧ (startMemoryWait w x s).gateCount = s.gateCount ∧
    (startMemoryWait w x s).dm = s.dm ∧ (startMemoryWait w x s).w4 = s.w4 ∧ (startMemoryWait w x s).age = s.age ∧
    (startMemoryWait w x s).ccnt = s.ccnt ∧ (startMemoryWait w x s).mcnt = s.mcnt ∧
    (startMemoryWait w x s).waitC = s.waitC ∧ (startMemoryWait w x s).waitM = true ∧
    (startMemoryWait w x s).pend = x ∧ (startMemoryWait w x s).pendWrite = w ∧
    (startMemoryWait w x s).cycles = s.cycles ∧ (startMemoryWait w x s).hits = s.hits ∧
    (startMemoryWait w x s).misses = s.misses + 1 ∧ (startMemoryWait w x s).overflow = s.overflow ∧
    (startMemoryWait w x s).halted = s.halted ∧ (startMemoryWait w x s).rdata = s.rdata ∧
    (startMemoryWait w x s).complete = s.complete ∧ (startMemoryWait w x s).lastHit = s.lastHit ∧
    (startMemoryWait w x s).oor = s.oor ∧ (startMemoryWait w x s).fault = s.fault ∧
    (startMemoryWait w x s).latched = s.latched ∧ (startMemoryWait w x s).mem = s.mem ∧
    (startMemoryWait w x s).inputs = s.inputs ∧ (startMemoryWait w x s).outcome = .waiting ∧
    (startMemoryWait w x s).trace = s.trace ∧ (startMemoryWait w x s).draws = s.draws :=
  ⟨rfl, rfl, rfl, rfl, rfl, rfl, rfl, rfl, rfl, rfl, rfl, rfl, rfl, rfl, rfl, rfl, rfl, rfl, rfl, rfl, rfl, rfl, rfl, rfl, rfl, rfl, rfl, rfl, rfl⟩

/-- Every field after a counted step is opened (R217). -/
@[simp] theorem openStep_fields (i : StepIn) (s : State) :
    (openStep i s).configured = s.configured ∧ (openStep i s).cfg = s.cfg ∧ (openStep i s).geom = s.geom ∧
    (openStep i s).gateCount = s.gateCount ∧ (openStep i s).dm = s.dm ∧ (openStep i s).w4 = s.w4 ∧
    (openStep i s).age = s.age ∧ (openStep i s).ccnt = s.ccnt ∧ (openStep i s).mcnt = s.mcnt ∧
    (openStep i s).waitC = s.waitC ∧ (openStep i s).waitM = s.waitM ∧ (openStep i s).pend = s.pend ∧
    (openStep i s).pendWrite = s.pendWrite ∧ (openStep i s).cycles = s.cycles + 1 ∧ (openStep i s).hits = s.hits ∧
    (openStep i s).misses = s.misses ∧ (openStep i s).overflow = s.overflow ∧ (openStep i s).halted = s.halted ∧
    (openStep i s).rdata = s.rdata ∧ (openStep i s).complete = false ∧ (openStep i s).lastHit = false ∧
    (openStep i s).oor = false ∧ (openStep i s).fault = s.fault ∧
    (openStep i s).latched = (if s.busy then s.latched else some (requestOf i)) ∧ (openStep i s).mem = s.mem ∧
    (openStep i s).inputs = s.inputs ∧ (openStep i s).outcome = s.outcome ∧ (openStep i s).trace = s.trace ∧
    (openStep i s).draws = s.draws :=
  ⟨rfl, rfl, rfl, rfl, rfl, rfl, rfl, rfl, rfl, rfl, rfl, rfl, rfl, rfl, rfl, rfl, rfl, rfl, rfl, rfl, rfl, rfl, rfl, rfl, rfl, rfl, rfl, rfl, rfl⟩

/-- Every field after IDLE (R227). -/
@[simp] theorem idleStep_fields (s : State) :
    (idleStep s).configured = s.configured ∧ (idleStep s).cfg = s.cfg ∧ (idleStep s).geom = s.geom ∧
    (idleStep s).gateCount = s.gateCount ∧ (idleStep s).dm = s.dm ∧ (idleStep s).w4 = s.w4 ∧
    (idleStep s).age = s.age ∧ (idleStep s).ccnt = s.ccnt ∧ (idleStep s).mcnt = s.mcnt ∧
    (idleStep s).waitC = s.waitC ∧ (idleStep s).waitM = s.waitM ∧ (idleStep s).pend = s.pend ∧
    (idleStep s).pendWrite = s.pendWrite ∧ (idleStep s).cycles = s.cycles ∧ (idleStep s).hits = s.hits ∧
    (idleStep s).misses = s.misses ∧ (idleStep s).overflow = s.overflow ∧ (idleStep s).halted = s.halted ∧
    (idleStep s).rdata = s.rdata ∧ (idleStep s).complete = false ∧ (idleStep s).lastHit = false ∧
    (idleStep s).oor = false ∧ (idleStep s).fault = s.fault ∧ (idleStep s).latched = s.latched ∧
    (idleStep s).mem = s.mem ∧ (idleStep s).inputs = s.inputs ∧ (idleStep s).outcome = .idle ∧
    (idleStep s).trace = s.trace ∧ (idleStep s).draws = s.draws :=
  ⟨rfl, rfl, rfl, rfl, rfl, rfl, rfl, rfl, rfl, rfl, rfl, rfl, rfl, rfl, rfl, rfl, rfl, rfl, rfl, rfl, rfl, rfl, rfl, rfl, rfl, rfl, rfl, rfl, rfl⟩

/-- Every field after a raise (60_exceptions.md R285). -/
@[simp] theorem raise_fields (s now : State) (f : FaultRecord) :
    (raise s now f).configured = s.configured ∧ (raise s now f).cfg = s.cfg ∧ (raise s now f).geom = s.geom ∧
    (raise s now f).gateCount = s.gateCount ∧ (raise s now f).dm = s.dm ∧ (raise s now f).w4 = s.w4 ∧
    (raise s now f).age = s.age ∧ (raise s now f).ccnt = s.ccnt ∧ (raise s now f).mcnt = s.mcnt ∧
    (raise s now f).waitC = s.waitC ∧ (raise s now f).waitM = s.waitM ∧ (raise s now f).pend = s.pend ∧
    (raise s now f).pendWrite = s.pendWrite ∧ (raise s now f).cycles = s.cycles ∧ (raise s now f).hits = s.hits ∧
    (raise s now f).misses = s.misses ∧ (raise s now f).overflow = s.overflow ∧ (raise s now f).halted = s.halted ∧
    (raise s now f).rdata = s.rdata ∧ (raise s now f).complete = s.complete ∧ (raise s now f).lastHit = s.lastHit ∧
    (raise s now f).oor = s.oor ∧ (raise s now f).fault = some f ∧ (raise s now f).latched = s.latched ∧
    (raise s now f).mem = s.mem ∧ (raise s now f).inputs = s.inputs ∧ (raise s now f).outcome = .faulted ∧
    (raise s now f).trace = now.trace ++ [.fault f] ∧ (raise s now f).draws = now.draws :=
  ⟨rfl, rfl, rfl, rfl, rfl, rfl, rfl, rfl, rfl, rfl, rfl, rfl, rfl, rfl, rfl, rfl, rfl, rfl, rfl, rfl, rfl, rfl, rfl, rfl, rfl, rfl, rfl, rfl, rfl⟩

/-- Every field but the storage after a slot is replaced. -/
@[simp] theorem putLine_fields (p : Slot) (l : Line) (s : State) :
    (putLine p l s).configured = s.configured ∧ (putLine p l s).cfg = s.cfg ∧ (putLine p l s).geom = s.geom ∧
    (putLine p l s).gateCount = s.gateCount ∧ (putLine p l s).age = s.age ∧ (putLine p l s).ccnt = s.ccnt ∧
    (putLine p l s).mcnt = s.mcnt ∧ (putLine p l s).waitC = s.waitC ∧ (putLine p l s).waitM = s.waitM ∧
    (putLine p l s).pend = s.pend ∧ (putLine p l s).pendWrite = s.pendWrite ∧ (putLine p l s).cycles = s.cycles ∧
    (putLine p l s).hits = s.hits ∧ (putLine p l s).misses = s.misses ∧ (putLine p l s).overflow = s.overflow ∧
    (putLine p l s).halted = s.halted ∧ (putLine p l s).rdata = s.rdata ∧ (putLine p l s).complete = s.complete ∧
    (putLine p l s).lastHit = s.lastHit ∧ (putLine p l s).oor = s.oor ∧ (putLine p l s).fault = s.fault ∧
    (putLine p l s).latched = s.latched ∧ (putLine p l s).mem = s.mem ∧ (putLine p l s).inputs = s.inputs ∧
    (putLine p l s).outcome = s.outcome ∧ (putLine p l s).trace = s.trace ∧ (putLine p l s).draws = s.draws :=
  by cases p <;> exact ⟨rfl, rfl, rfl, rfl, rfl, rfl, rfl, rfl, rfl, rfl, rfl, rfl, rfl, rfl, rfl, rfl, rfl, rfl, rfl, rfl, rfl, rfl, rfl, rfl, rfl, rfl, rfl⟩

/-- Every field but the ages after `touch`. -/
@[simp] theorem touch_fields (p : Slot) (s : State) :
    (touch p s).configured = s.configured ∧ (touch p s).cfg = s.cfg ∧ (touch p s).geom = s.geom ∧
    (touch p s).gateCount = s.gateCount ∧ (touch p s).dm = s.dm ∧ (touch p s).w4 = s.w4 ∧ (touch p s).ccnt = s.ccnt ∧
    (touch p s).mcnt = s.mcnt ∧ (touch p s).waitC = s.waitC ∧ (touch p s).waitM = s.waitM ∧
    (touch p s).pend = s.pend ∧ (touch p s).pendWrite = s.pendWrite ∧ (touch p s).cycles = s.cycles ∧
    (touch p s).hits = s.hits ∧ (touch p s).misses = s.misses ∧ (touch p s).overflow = s.overflow ∧
    (touch p s).halted = s.halted ∧ (touch p s).rdata = s.rdata ∧ (touch p s).complete = s.complete ∧
    (touch p s).lastHit = s.lastHit ∧ (touch p s).oor = s.oor ∧ (touch p s).fault = s.fault ∧
    (touch p s).latched = s.latched ∧ (touch p s).mem = s.mem ∧ (touch p s).inputs = s.inputs ∧
    (touch p s).outcome = s.outcome ∧ (touch p s).trace = s.trace ∧ (touch p s).draws = s.draws :=
  by cases p <;> exact ⟨rfl, rfl, rfl, rfl, rfl, rfl, rfl, rfl, rfl, rfl, rfl, rfl, rfl, rfl, rfl, rfl, rfl, rfl, rfl, rfl, rfl, rfl, rfl, rfl, rfl, rfl, rfl, rfl⟩

/-- Every field but `oor`, `trace` and `draws` after `MemRead`. -/
@[simp] theorem memRead_fields (a : Addr) (s : State) :
    ((memRead a s).2).configured = s.configured ∧ ((memRead a s).2).cfg = s.cfg ∧ ((memRead a s).2).geom = s.geom ∧
    ((memRead a s).2).gateCount = s.gateCount ∧ ((memRead a s).2).dm = s.dm ∧ ((memRead a s).2).w4 = s.w4 ∧
    ((memRead a s).2).age = s.age ∧ ((memRead a s).2).ccnt = s.ccnt ∧ ((memRead a s).2).mcnt = s.mcnt ∧
    ((memRead a s).2).waitC = s.waitC ∧ ((memRead a s).2).waitM = s.waitM ∧ ((memRead a s).2).pend = s.pend ∧
    ((memRead a s).2).pendWrite = s.pendWrite ∧ ((memRead a s).2).cycles = s.cycles ∧
    ((memRead a s).2).hits = s.hits ∧ ((memRead a s).2).misses = s.misses ∧ ((memRead a s).2).overflow = s.overflow ∧
    ((memRead a s).2).halted = s.halted ∧ ((memRead a s).2).rdata = s.rdata ∧
    ((memRead a s).2).complete = s.complete ∧ ((memRead a s).2).lastHit = s.lastHit ∧
    ((memRead a s).2).fault = s.fault ∧ ((memRead a s).2).latched = s.latched ∧ ((memRead a s).2).mem = s.mem ∧
    ((memRead a s).2).inputs = s.inputs ∧ ((memRead a s).2).outcome = s.outcome :=
  by unfold memRead; split <;> simp

/-- Every field but `oor`, `trace` and `mem` after `MemWrite`. -/
@[simp] theorem memWrite_fields (a : Addr) (v : Byte) (s : State) :
    (memWrite a v s).configured = s.configured ∧ (memWrite a v s).cfg = s.cfg ∧ (memWrite a v s).geom = s.geom ∧
    (memWrite a v s).gateCount = s.gateCount ∧ (memWrite a v s).dm = s.dm ∧ (memWrite a v s).w4 = s.w4 ∧
    (memWrite a v s).age = s.age ∧ (memWrite a v s).ccnt = s.ccnt ∧ (memWrite a v s).mcnt = s.mcnt ∧
    (memWrite a v s).waitC = s.waitC ∧ (memWrite a v s).waitM = s.waitM ∧ (memWrite a v s).pend = s.pend ∧
    (memWrite a v s).pendWrite = s.pendWrite ∧ (memWrite a v s).cycles = s.cycles ∧ (memWrite a v s).hits = s.hits ∧
    (memWrite a v s).misses = s.misses ∧ (memWrite a v s).overflow = s.overflow ∧
    (memWrite a v s).halted = s.halted ∧ (memWrite a v s).rdata = s.rdata ∧ (memWrite a v s).complete = s.complete ∧
    (memWrite a v s).lastHit = s.lastHit ∧ (memWrite a v s).fault = s.fault ∧ (memWrite a v s).latched = s.latched ∧
    (memWrite a v s).inputs = s.inputs ∧ (memWrite a v s).outcome = s.outcome ∧ (memWrite a v s).draws = s.draws :=
  by unfold memWrite; split <;> simp

/-- Every field but `oor`, `trace` and `draws` after reading bytes. -/
@[simp] theorem readBytes_fields (n : Nat) (a : Addr) (s : State) :
    ((readBytes n a s).2).configured = s.configured ∧ ((readBytes n a s).2).cfg = s.cfg ∧
    ((readBytes n a s).2).geom = s.geom ∧ ((readBytes n a s).2).gateCount = s.gateCount ∧
    ((readBytes n a s).2).dm = s.dm ∧ ((readBytes n a s).2).w4 = s.w4 ∧ ((readBytes n a s).2).age = s.age ∧
    ((readBytes n a s).2).ccnt = s.ccnt ∧ ((readBytes n a s).2).mcnt = s.mcnt ∧
    ((readBytes n a s).2).waitC = s.waitC ∧ ((readBytes n a s).2).waitM = s.waitM ∧
    ((readBytes n a s).2).pend = s.pend ∧ ((readBytes n a s).2).pendWrite = s.pendWrite ∧
    ((readBytes n a s).2).cycles = s.cycles ∧ ((readBytes n a s).2).hits = s.hits ∧
    ((readBytes n a s).2).misses = s.misses ∧ ((readBytes n a s).2).overflow = s.overflow ∧
    ((readBytes n a s).2).halted = s.halted ∧ ((readBytes n a s).2).rdata = s.rdata ∧
    ((readBytes n a s).2).complete = s.complete ∧ ((readBytes n a s).2).lastHit = s.lastHit ∧
    ((readBytes n a s).2).fault = s.fault ∧ ((readBytes n a s).2).latched = s.latched ∧
    ((readBytes n a s).2).mem = s.mem ∧ ((readBytes n a s).2).inputs = s.inputs ∧
    ((readBytes n a s).2).outcome = s.outcome :=
  by
    induction n generalizing a s with
    | zero => simp [readBytes]
    | succ n ih => simp [readBytes, ih]

/-- Every field but `oor`, `trace` and `draws` after a block fill (R145). -/
@[simp] theorem fill_fields (a : Addr) (s : State) :
    ((fill a s).2).configured = s.configured ∧ ((fill a s).2).cfg = s.cfg ∧ ((fill a s).2).geom = s.geom ∧
    ((fill a s).2).gateCount = s.gateCount ∧ ((fill a s).2).dm = s.dm ∧ ((fill a s).2).w4 = s.w4 ∧
    ((fill a s).2).age = s.age ∧ ((fill a s).2).ccnt = s.ccnt ∧ ((fill a s).2).mcnt = s.mcnt ∧
    ((fill a s).2).waitC = s.waitC ∧ ((fill a s).2).waitM = s.waitM ∧ ((fill a s).2).pend = s.pend ∧
    ((fill a s).2).pendWrite = s.pendWrite ∧ ((fill a s).2).cycles = s.cycles ∧ ((fill a s).2).hits = s.hits ∧
    ((fill a s).2).misses = s.misses ∧ ((fill a s).2).overflow = s.overflow ∧ ((fill a s).2).halted = s.halted ∧
    ((fill a s).2).rdata = s.rdata ∧ ((fill a s).2).complete = s.complete ∧ ((fill a s).2).lastHit = s.lastHit ∧
    ((fill a s).2).fault = s.fault ∧ ((fill a s).2).latched = s.latched ∧ ((fill a s).2).mem = s.mem ∧
    ((fill a s).2).inputs = s.inputs ∧ ((fill a s).2).outcome = s.outcome :=
  by simp [fill]

/-- Every field but `oor`, `trace` and `mem` after a write-through (R148). -/
@[simp] theorem writeThrough_fields (a : Addr) (w : Word) (s : State) :
    (writeThrough a w s).configured = s.configured ∧ (writeThrough a w s).cfg = s.cfg ∧
    (writeThrough a w s).geom = s.geom ∧ (writeThrough a w s).gateCount = s.gateCount ∧
    (writeThrough a w s).dm = s.dm ∧ (writeThrough a w s).w4 = s.w4 ∧ (writeThrough a w s).age = s.age ∧
    (writeThrough a w s).ccnt = s.ccnt ∧ (writeThrough a w s).mcnt = s.mcnt ∧ (writeThrough a w s).waitC = s.waitC ∧
    (writeThrough a w s).waitM = s.waitM ∧ (writeThrough a w s).pend = s.pend ∧
    (writeThrough a w s).pendWrite = s.pendWrite ∧ (writeThrough a w s).cycles = s.cycles ∧
    (writeThrough a w s).hits = s.hits ∧ (writeThrough a w s).misses = s.misses ∧
    (writeThrough a w s).overflow = s.overflow ∧ (writeThrough a w s).halted = s.halted ∧
    (writeThrough a w s).rdata = s.rdata ∧ (writeThrough a w s).complete = s.complete ∧
    (writeThrough a w s).lastHit = s.lastHit ∧ (writeThrough a w s).fault = s.fault ∧
    (writeThrough a w s).latched = s.latched ∧ (writeThrough a w s).inputs = s.inputs ∧
    (writeThrough a w s).outcome = s.outcome ∧ (writeThrough a w s).draws = s.draws :=
  by simp [writeThrough]

/-- Every field but `oor`, `trace` and `draws` after the lookup's line is filled. -/
@[simp] theorem filledLine_fields (a : Addr) (t : BitVec 32) (l : Line) (hit : Bool) (s : State) :
    ((filledLine a t l hit s).2).configured = s.configured ∧ ((filledLine a t l hit s).2).cfg = s.cfg ∧
    ((filledLine a t l hit s).2).geom = s.geom ∧ ((filledLine a t l hit s).2).gateCount = s.gateCount ∧
    ((filledLine a t l hit s).2).dm = s.dm ∧ ((filledLine a t l hit s).2).w4 = s.w4 ∧
    ((filledLine a t l hit s).2).age = s.age ∧ ((filledLine a t l hit s).2).ccnt = s.ccnt ∧
    ((filledLine a t l hit s).2).mcnt = s.mcnt ∧ ((filledLine a t l hit s).2).waitC = s.waitC ∧
    ((filledLine a t l hit s).2).waitM = s.waitM ∧ ((filledLine a t l hit s).2).pend = s.pend ∧
    ((filledLine a t l hit s).2).pendWrite = s.pendWrite ∧ ((filledLine a t l hit s).2).cycles = s.cycles ∧
    ((filledLine a t l hit s).2).hits = s.hits ∧ ((filledLine a t l hit s).2).misses = s.misses ∧
    ((filledLine a t l hit s).2).overflow = s.overflow ∧ ((filledLine a t l hit s).2).halted = s.halted ∧
    ((filledLine a t l hit s).2).rdata = s.rdata ∧ ((filledLine a t l hit s).2).complete = s.complete ∧
    ((filledLine a t l hit s).2).lastHit = s.lastHit ∧ ((filledLine a t l hit s).2).fault = s.fault ∧
    ((filledLine a t l hit s).2).latched = s.latched ∧ ((filledLine a t l hit s).2).mem = s.mem ∧
    ((filledLine a t l hit s).2).inputs = s.inputs ∧ ((filledLine a t l hit s).2).outcome = s.outcome :=
  by cases hit <;> simp [filledLine]

end Sys2Proof.Machine
end

