-- ==== Sys2Proof/Laws/Memory.lean ====
section
/-! SUPPORT. The memory list: reading after writing, and the canonical form that every write keeps. -/

namespace Sys2Proof.Machine

@[simp] theorem Memory.read_nil (a : Nat) : Memory.read [] a = 0 := rfl

@[simp] theorem Memory.wf_nil : Memory.wf [] = true := rfl

/-- The canonical form, entry by entry. -/
theorem Memory.wf_cons (k : Nat) (b : Byte) (m : Memory) :
    Memory.wf ((k, b) :: m) = true ↔
      (∀ x ∈ m, k < x.1) ∧ k < Config.memSize ∧ b ≠ 0 ∧ Memory.wf m = true := by
  simp only [Memory.wf, Bool.and_eq_true, decide_eq_true_eq, List.pairwise_cons, List.all_cons]
  tauto

theorem Memory.wf_iff (m : Memory) :
    Memory.wf m = true ↔
      m.Pairwise (fun x y => x.1 < y.1) ∧ ∀ x ∈ m, x.1 < Config.memSize ∧ x.2 ≠ 0 := by
  simp [Memory.wf]

/-- An address below every listed one reads as 0. -/
theorem Memory.read_of_lt (m : Memory) (a : Nat) (h : ∀ x ∈ m, a < x.1) : Memory.read m a = 0 := by
  induction m with
  | nil => rfl
  | cons x m ih =>
    have := h x (by simp)
    simp only [Memory.read]
    rw [if_neg (by omega)]
    exact ih fun y hy => h y (by simp [hy])

/-- A canonical memory holds nothing at or above MEM_SIZE. -/
theorem Memory.read_of_memSize_le (m : Memory) (a : Nat) (h : Memory.wf m = true) (ha : Config.memSize ≤ a) :
    Memory.read m a = 0 := by
  induction m with
  | nil => rfl
  | cons x m ih =>
    obtain ⟨k, b⟩ := x
    rw [Memory.wf_cons] at h
    simp only [Memory.read]
    rw [if_neg (by omega)]
    exact ih h.2.2.2

/-- A write leaves every other address alone. -/
theorem Memory.read_write_ne (m : Memory) (a b : Nat) (v : Byte) (h : b ≠ a) :
    Memory.read (Memory.write m a v) b = Memory.read m b := by
  induction m with
  | nil => unfold Memory.write; split <;> simp [Memory.read, Ne.symm h]
  | cons x m ih =>
    obtain ⟨k, c⟩ := x
    simp only [Memory.write]
    split_ifs with h1 h2 h3 h4
    · rfl
    · simp [Memory.read, Ne.symm h]
    · subst h3; simp [Memory.read, Ne.symm h]
    · subst h3; simp [Memory.read, Ne.symm h]
    · simp [Memory.read, ih]

/-- A canonical memory reads back what was written. -/
theorem Memory.read_write_same (m : Memory) (a : Nat) (v : Byte) (h : Memory.wf m = true) :
    Memory.read (Memory.write m a v) a = v := by
  induction m with
  | nil => unfold Memory.write; split <;> simp_all [Memory.read]
  | cons x m ih =>
    obtain ⟨k, c⟩ := x
    rw [Memory.wf_cons] at h
    simp only [Memory.write]
    split_ifs with h1 h2 h3 h4
    · subst h2
      exact Memory.read_of_lt _ _ fun y hy => by
        rcases List.mem_cons.1 hy with rfl | hy
        · exact h1
        · exact lt_trans h1 (h.1 y hy)
    · simp [Memory.read]
    · subst h3 h4; exact Memory.read_of_lt _ _ h.1
    · simp [Memory.read]
    · simp only [Memory.read]; rw [if_neg (by omega)]; exact ih h.2.2.2

/-- The byte at an address after a write to an address. -/
theorem Memory.read_write (m : Memory) (a b : Nat) (v : Byte) (h : Memory.wf m = true) :
    Memory.read (Memory.write m a v) b = if b = a then v else Memory.read m b := by
  split
  · subst b; exact Memory.read_write_same m a v h
  · exact Memory.read_write_ne m a b v ‹_›

/-- Every entry after a write was there before, or is the one written. -/
theorem Memory.mem_write (m : Memory) (a : Nat) (v : Byte) (x : Host.Cell) (h : x ∈ Memory.write m a v) :
    x ∈ m ∨ (x = (a, v) ∧ v ≠ 0) := by
  induction m with
  | nil => unfold Memory.write at h; split at h <;> simp_all
  | cons y m ih =>
    obtain ⟨k, c⟩ := y
    simp only [Memory.write] at h
    split_ifs at h with h1 h2 h3 h4
    · exact .inl h
    · rcases List.mem_cons.1 h with rfl | h
      · exact .inr ⟨rfl, h2⟩
      · exact .inl h
    · exact .inl (List.mem_cons_of_mem _ h)
    · rcases List.mem_cons.1 h with rfl | h
      · exact .inr ⟨rfl, h4⟩
      · exact .inl (List.mem_cons_of_mem _ h)
    · rcases List.mem_cons.1 h with rfl | h
      · exact .inl (List.mem_cons_self ..)
      · rcases ih h with h | h
        · exact .inl (List.mem_cons_of_mem _ h)
        · exact .inr h

/-- A write inside the address space keeps the canonical form. -/
theorem Memory.wf_write (m : Memory) (a : Nat) (v : Byte) (h : Memory.wf m = true) (ha : a < Config.memSize) :
    Memory.wf (Memory.write m a v) = true := by
  induction m with
  | nil => unfold Memory.write; split <;> simp_all [Memory.wf_cons]
  | cons x m ih =>
    obtain ⟨k, c⟩ := x
    have hw := h
    rw [Memory.wf_cons] at h
    simp only [Memory.write]
    split_ifs with h1 h2 h3 h4
    · exact hw
    · rw [Memory.wf_cons]
      refine ⟨fun y hy => ?_, ha, h2, hw⟩
      rcases List.mem_cons.1 hy with rfl | hy
      · exact h1
      · exact lt_trans h1 (h.1 y hy)
    · exact h.2.2.2
    · rw [Memory.wf_cons]
      subst h3
      exact ⟨h.1, ha, h4, h.2.2.2⟩
    · rw [Memory.wf_cons]
      refine ⟨fun y hy => ?_, h.2.1, h.2.2.1, ih h.2.2.2⟩
      rcases Memory.mem_write _ _ _ _ hy with hy | ⟨rfl, _⟩
      · exact h.1 y hy
      · show k < a; omega

/-- `MemWrite` keeps the canonical form (20_memory.md R63). -/
theorem memWrite_wf (a : Addr) (v : Byte) (s : State) (h : Memory.wf s.mem = true) :
    Memory.wf (memWrite a v s).mem = true := by
  unfold memWrite inRange
  split
  · exact Memory.wf_write _ _ _ h (by simp_all)
  · exact h

/-- The write-through keeps the canonical form. -/
theorem writeThrough_wf (a : Addr) (w : Word) (s : State) (h : Memory.wf s.mem = true) :
    Memory.wf (writeThrough a w s).mem = true := by
  unfold writeThrough
  exact memWrite_wf _ _ _ (memWrite_wf _ _ _ (memWrite_wf _ _ _ (memWrite_wf _ _ _ h)))

/-- Writing a list of bytes keeps the canonical form. -/
theorem writeAll_wf (xs : List (Nat × Byte)) (m : Memory) (h : Memory.wf m = true) : Memory.wf (writeAll m xs) = true := by
  induction xs generalizing m with
  | nil => exact h
  | cons x xs ih =>
    refine ih _ ?_
    split
    · exact Memory.wf_write m x.1 x.2 h ‹_›
    · exact h

/-- The memory of the unspecified state is in canonical form. -/
theorem freeMemory_wf (n : Nat) : Memory.wf (freeMemory n) = true := writeAll_wf _ [] rfl

/-- Reset memory is in canonical form. -/
theorem reset_memory_wf : Memory.wf State.reset.mem = true := rfl

end Sys2Proof.Machine
end

