-- ==== Sys2Proof/Laws/Operands.lean ====
section
/-! SUPPORT. The address decoder over the naturals, and the bytes of words and lines. -/

namespace Sys2Proof.Machine

theorem lowMask_toNat (n : Nat) (h : n < 32) : (lowMask n).toNat = 2 ^ n - 1 := by
  have hp : 2 ^ n < 2 ^ 32 := Nat.pow_lt_pow_right (by omega) h
  have h1 : 1 ≤ 2 ^ n := Nat.one_le_two_pow
  have ho : (1 : BitVec 32).toNat = 1 := rfl
  unfold lowMask
  rw [BitVec.toNat_sub, BitVec.toNat_shiftLeft, ho, Nat.shiftLeft_eq, one_mul, Nat.mod_eq_of_lt hp]
  omega

/-- `offset = address mod 2^offsetBits` (40_address_decoder.md R121). -/
theorem decodeAddress_offset_toNat (g : Geometry) (a : Addr) (h : g.offsetBits < 32) :
    (decodeAddress g a).offset.toNat = a.toNat % 2 ^ g.offsetBits := by
  simp [decodeAddress, lowMask_toNat _ h, Nat.and_two_pow_sub_one_eq_mod]

/-- `index = (address / 2^offsetBits) mod 2^indexBits` (R121). -/
theorem decodeAddress_index_toNat (g : Geometry) (a : Addr) (h : g.indexBits < 32) :
    (decodeAddress g a).index.toNat = a.toNat / 2 ^ g.offsetBits % 2 ^ g.indexBits := by
  simp [decodeAddress, lowMask_toNat _ h, Nat.and_two_pow_sub_one_eq_mod, Nat.shiftRight_eq_div_pow]

/-- `tag = address / 2^(offsetBits + indexBits)` (R121). -/
theorem decodeAddress_tag_toNat (g : Geometry) (a : Addr) :
    (decodeAddress g a).tag.toNat = a.toNat / 2 ^ (g.offsetBits + g.indexBits) := by
  simp [decodeAddress, Nat.shiftRight_eq_div_pow]

/-- Four bytes put together little-endian are the bytes they were. -/
theorem assemble_bytes (w : Word) :
    ((disassemble w).w0.setWidth 32 ||| ((disassemble w).w1.setWidth 32 <<< 8)
      ||| ((disassemble w).w2.setWidth 32 <<< 16) ||| ((disassemble w).w3.setWidth 32 <<< 24)) = w := by
  ext i hi
  simp only [disassemble, BitVec.getElem_or, BitVec.getElem_setWidth, BitVec.getElem_shiftLeft,
    BitVec.getLsbD_extractLsb']
  interval_cases i <;> simp

@[simp] theorem storeWord_length (data : List Byte) (off : Nat) (w : Word) :
    (storeWord data off w).length = data.length := by simp [storeWord]

/-- The byte at an offset after a word is stored (41_cache_common.md R141, R143). -/
theorem byteAt_storeWord (data : List Byte) (off k : Nat) (w : Word) (h : off + 4 ≤ data.length) :
    byteAt (storeWord data off w) k =
      if k = off then (disassemble w).w0 else if k = off + 1 then (disassemble w).w1
      else if k = off + 2 then (disassemble w).w2 else if k = off + 3 then (disassemble w).w3
      else byteAt data k := by
  simp only [byteAt, storeWord, List.getD_eq_getElem?_getD, List.getElem?_set, List.length_set]
  split_ifs <;> first | omega | rfl

end Sys2Proof.Machine
end

