-- ==== Sys2Proof/Laws/Ops.lean ====
section
/-! SUPPORT. What the MemoryModel primitives, the block fill and the write-through can do (20_memory.md R62, R63; 41_cache_common.md
R145, R148). -/

namespace Sys2Proof.Machine

/-- An in-range `MemRead` returns the byte and changes nothing (R62). -/
theorem memRead_inRange (a : Addr) (s : State) (h : a.toNat < Config.memSize) :
    memRead a s = (Memory.read s.mem a.toNat, s) := by simp [memRead, inRange, h]

/-- An out-of-range `MemRead` returns the next free value, sets `oor` and emits its event (R62). -/
theorem memRead_outOfRange (a : Addr) (s : State) (h : Config.memSize ≤ a.toNat) :
    memRead a s = (Config.oorReadValue s.draws,
      { s with oor := true, trace := s.trace ++ [.outOfRange .read a], draws := s.draws + 1 }) := by
  have : ¬ a.toNat < Config.memSize := by omega
  simp [memRead, inRange, this, noteOutOfRange, emit]

/-- An in-range `MemWrite` writes the byte (R63). -/
theorem memWrite_inRange (a : Addr) (v : Byte) (s : State) (h : a.toNat < Config.memSize) :
    memWrite a v s = { s with mem := Memory.write s.mem a.toNat v } := by simp [memWrite, inRange, h]

/-- An out-of-range `MemWrite` drops the byte, sets `oor` and emits its event (R63). -/
theorem memWrite_outOfRange (a : Addr) (v : Byte) (s : State) (h : Config.memSize ≤ a.toNat) :
    memWrite a v s = { s with oor := true, trace := s.trace ++ [.outOfRange .write a] } := by
  have : ¬ a.toNat < Config.memSize := by omega
  simp [memWrite, inRange, this, noteOutOfRange, emit]

@[simp] theorem readBytes_length (n : Nat) (a : Addr) (s : State) : (readBytes n a s).1.length = n := by
  induction n generalizing a s with
  | zero => rfl
  | succ n ih => simp [readBytes, ih]

@[simp] theorem fill_length (a : Addr) (s : State) : (fill a s).1.length = s.cfg.lineSize.toNat := by simp [fill]

/-- An address `k` bytes on, where it does not wrap. -/
theorem toNat_addr_add (a : Addr) (k : Nat) (h : a.toNat + k < 2 ^ 32) : (a + BitVec.ofNat 32 k).toNat = a.toNat + k := by
  rw [BitVec.toNat_add, BitVec.toNat_ofNat, Nat.add_mod_mod, Nat.mod_eq_of_lt h]

/-- Bytes read in range are memory's, and nothing changes. -/
theorem readBytes_inRange (n : Nat) (a : Addr) (s : State) (h : a.toNat + n ≤ Config.memSize) :
    readBytes n a s = ((List.range n).map fun k => Memory.read s.mem (a.toNat + k), s) := by
  induction n generalizing a s with
  | zero => rfl
  | succ n ih =>
    have hm : Config.memSize = 65536 := rfl
    rw [readBytes, memRead_inRange a s (by omega), List.range_succ_eq_map]
    cases n with
    | zero => rfl
    | succ n =>
      have h1 : (a + 1).toNat = a.toNat + 1 := toNat_addr_add a 1 (by omega)
      rw [ih (a + 1) s (by omega), h1]
      simp [Function.comp_def, Nat.add_assoc, Nat.add_comm 1]

/-- Bytes read out of range are the next free values; `oor` is set and one event emitted for each. -/
theorem readBytes_outOfRange (n : Nat) (a : Addr) (s : State) (h : Config.memSize ≤ a.toNat)
    (hw : a.toNat + n ≤ 2 ^ 32) (hn : 0 < n) :
    readBytes n a s = ((List.range n).map fun k => Config.oorReadValue (s.draws + k),
      { s with
        oor := true
        trace := s.trace ++ (List.range n).map fun k => .outOfRange .read (a + BitVec.ofNat 32 k)
        draws := s.draws + n }) := by
  induction n generalizing a s with
  | zero => omega
  | succ n ih =>
    rw [readBytes, memRead_outOfRange a s h, List.range_succ_eq_map]
    cases n with
    | zero => simp [readBytes]
    | succ n =>
      have h1 : (a + 1).toNat = a.toNat + 1 := toNat_addr_add a 1 (by omega)
      have h2 : ∀ x, a + 1#32 + BitVec.ofNat 32 x = a + BitVec.ofNat 32 (x + 1) := fun x => by
        rw [BitVec.add_assoc, Nat.add_comm x 1, BitVec.ofNat_add]
      rw [ih (a + 1) _ (by omega) (by omega) (by omega)]
      simp [Function.comp_def, Nat.add_assoc, Nat.add_comm 1, h2]

/-- A block fill out of range: one free byte and one event for each byte of the block (R145). -/
theorem fill_outOfRange (a : Addr) (s : State) (h : Config.memSize ≤ (blockBase s.cfg a).toNat)
    (hw : (blockBase s.cfg a).toNat + s.cfg.lineSize.toNat ≤ 2 ^ 32) (hn : 0 < s.cfg.lineSize.toNat) :
    fill a s = ((List.range s.cfg.lineSize.toNat).map fun k => Config.oorReadValue (s.draws + k),
      { s with oor := true, trace := s.trace ++ fillEvents s.cfg a, draws := s.draws + s.cfg.lineSize.toNat }) :=
  readBytes_outOfRange _ _ s h hw hn

/-- A write-through whose four bytes are in range: memory only. -/
theorem writeThrough_inRange (a : Addr) (w : Word) (s : State) (h : a.toNat + 4 ≤ Config.memSize) :
    writeThrough a w s =
      { s with
        mem :=
          Memory.write (Memory.write (Memory.write (Memory.write s.mem a.toNat (disassemble w).w0)
            (a.toNat + 1) (disassemble w).w1) (a.toNat + 2) (disassemble w).w2) (a.toNat + 3) (disassemble w).w3 } := by
  have hm : Config.memSize = 65536 := rfl
  have h1 : (a + 1).toNat = a.toNat + 1 := toNat_addr_add a 1 (by omega)
  have h2 : (a + 2).toNat = a.toNat + 2 := toNat_addr_add a 2 (by omega)
  have h3 : (a + 3).toNat = a.toNat + 3 := toNat_addr_add a 3 (by omega)
  unfold writeThrough
  simp only []
  rw [memWrite_inRange a _ _ (by omega), memWrite_inRange (a + 1) _ _ (by omega),
    memWrite_inRange (a + 2) _ _ (by omega), memWrite_inRange (a + 3) _ _ (by omega)]
  simp only [h1, h2, h3]

/-- A write-through whose four bytes are out of range: all dropped. -/
theorem writeThrough_outOfRange (a : Addr) (w : Word) (s : State) (h : Config.memSize ≤ a.toNat)
    (hw : a.toNat + 4 ≤ 2 ^ 32) :
    writeThrough a w s = { s with oor := true, trace := s.trace ++ writeEvents a } := by
  have h1 : (a + 1).toNat = a.toNat + 1 := toNat_addr_add a 1 (by omega)
  have h2 : (a + 2).toNat = a.toNat + 2 := toNat_addr_add a 2 (by omega)
  have h3 : (a + 3).toNat = a.toNat + 3 := toNat_addr_add a 3 (by omega)
  unfold writeThrough
  simp only []
  rw [memWrite_outOfRange a _ _ h, memWrite_outOfRange (a + 1) _ _ (by omega),
    memWrite_outOfRange (a + 2) _ _ (by omega), memWrite_outOfRange (a + 3) _ _ (by omega)]
  simp [writeEvents, List.range_succ]

/-- `fetch` takes the first bundle. -/
@[simp] theorem fetch_cons (s : State) (p : PortInput) (rest : List PortInput) (h : s.inputs = p :: rest) :
    fetch s = some (p, { s with inputs := rest }) := by simp [fetch, h]

theorem fetch_nil (s : State) (h : s.inputs = []) : fetch s = none := by simp [fetch, h]

@[simp] theorem fetch_present (s : State) (p : PortInput) : fetch (s.present p) = some (p, s) := rfl

end Sys2Proof.Machine
end

