-- ==== Sys2Proof/Laws/Ways.lean ====
section
/-! SUPPORT. The four-way record: reading after writing, searching, and the ages after a touch. -/

namespace Sys2Proof.Machine

variable {α : Type}

@[simp] theorem Four.get_set_same (f : Four α) (w : Fin 4) (x : α) : (f.set w x).get w = x := by
  fin_cases w <;> rfl

theorem Four.get_set_ne (f : Four α) (w y : Fin 4) (x : α) (h : y ≠ w) : (f.set w x).get y = f.get y := by
  fin_cases w <;> fin_cases y <;> first | rfl | exact absurd rfl h

theorem Four.get_set (f : Four α) (w y : Fin 4) (x : α) :
    (f.set w x).get y = if y = w then x else f.get y := by
  split
  · subst y; simp
  · exact Four.get_set_ne f w y x ‹_›

/-- Two records with the same four entries are the same. -/
theorem Four.ext_get {f g : Four α} (h : ∀ w, f.get w = g.get w) : f = g := by
  have h0 := h 0
  have h1 := h 1
  have h2 := h 2
  have h3 := h 3
  cases f; cases g
  simp_all [Four.get]

/-- What `find` answers satisfies the test. -/
theorem Four.find_some {f : Four α} {p : α → Bool} {w : Fin 4} (h : f.find p = some w) : p (f.get w) = true := by
  unfold Four.find at h
  split_ifs at h <;> simp_all <;> subst h <;> assumption

/-- `find` answers nothing exactly when no entry satisfies the test. -/
theorem Four.find_none {f : Four α} {p : α → Bool} : f.find p = none ↔ ∀ w, p (f.get w) = false := by
  unfold Four.find
  constructor
  · intro h w
    split_ifs at h
    fin_cases w <;> simp_all [Four.get]
  · intro h
    have h0 := h 0
    have h1 := h 1
    have h2 := h 2
    have h3 := h 3
    simp_all [Four.get]

/-- A test that only way `w` passes finds `w`. -/
theorem Four.find_unique {f : Four α} {p : α → Bool} {w : Fin 4} (hw : p (f.get w) = true)
    (hu : ∀ x, p (f.get x) = true → x = w) : f.find p = some w := by
  cases h : f.find p with
  | none => simp [Four.find_none.1 h w] at hw
  | some x => rw [hu x (Four.find_some h)]

/-- The ages after `touch(s, w)`, way by way (43_fourway_lru.md R184). -/
theorem touchAges_get (f : Four (BitVec 2)) (w x : Fin 4) :
    (touchAges f w).get x = if x = w then 0 else if f.get x < f.get w then f.get x + 1 else f.get x := by
  unfold touchAges
  rw [Four.get_set]
  split
  · rfl
  · fin_cases x <;> rfl

/-- The victim has age 3 (R183). -/
theorem victim_age {f : Four (BitVec 2)} {w : Fin 4} (h : victim f = some w) : f.get w = 3 := by
  simpa using Four.find_some h

end Sys2Proof.Machine
end

