-- ==== Sys2Proof/Laws/Cache.lean ====
section
/-! SUPPORT. What a lookup and an access can do (41_cache_common.md R141; 42_direct_mapped.md R161; 43_fourway_lru.md R182, R183). -/

namespace Sys2Proof.Machine

@[simp] theorem touch_line (k : Nat) (s : State) : touch (.line k) s = s := rfl

@[simp] theorem touch_way_age (k : Nat) (w : Fin 4) (s : State) :
    (touch (.way k w) s).age = s.age.modify k fun f => touchAges f w := rfl

@[simp] theorem putLine_line_dm (k : Nat) (l : Line) (s : State) : (putLine (.line k) l s).dm = s.dm.set k l := rfl
@[simp] theorem putLine_line_w4 (k : Nat) (l : Line) (s : State) : (putLine (.line k) l s).w4 = s.w4 := rfl
@[simp] theorem putLine_way_dm (k : Nat) (w : Fin 4) (l : Line) (s : State) : (putLine (.way k w) l s).dm = s.dm := rfl
@[simp] theorem putLine_way_w4 (k : Nat) (w : Fin 4) (l : Line) (s : State) :
    (putLine (.way k w) l s).w4 = s.w4.modify k fun f => f.set w l := rfl

/-- A slot's contents depend on the storage alone. -/
theorem slotLine_congr {s t : State} (hd : t.dm = s.dm) (hw : t.w4 = s.w4) (p : Slot) : slotLine t p = slotLine s p := by
  cases p <;> simp [slotLine, hd, hw]

/-- Reading a slot after replacing one that exists. -/
theorem slotLine_putLine {s : State} {p : Slot} {l0 : Line} (h : slotLine s p = some l0) (l : Line) (q : Slot) :
    slotLine (putLine p l s) q = if q = p then some l else slotLine s q := by
  cases p with
  | line i =>
    have hi : i < s.dm.length := by
      simp only [slotLine] at h
      exact (List.getElem?_eq_some_iff.1 h).1
    cases q with
    | line j =>
      simp only [slotLine, putLine, List.getElem?_set, Slot.line.injEq]
      by_cases hj : i = j <;> simp_all [eq_comm]
    | way k w => simp [slotLine, putLine]
  | way k w =>
    simp only [slotLine, Option.map_eq_some_iff] at h
    obtain ⟨f, hf, -⟩ := h
    cases q with
    | line j => simp [slotLine, putLine]
    | way j x =>
      simp only [slotLine, putLine, List.getElem?_modify, Slot.way.injEq]
      by_cases hj : k = j
      · subst hj
        by_cases hx : x = w
        · subst hx; simp [hf]
        · simp [hf, hx, Four.get_set_ne]
      · simp [hj, Ne.symm hj]

/-- What a lookup that finds a slot says about it. -/
theorem lookup_some {s : State} {d : Decoded} {p : Slot} {l : Line} {hit : Bool} (h : lookup s d = some (p, l, hit)) :
    slotLine s p = some l ∧ l.data.length = s.cfg.lineSize.toNat ∧ p.index = d.index.toNat ∧ l.holds d.tag = hit ∧
      (s.cfg.policy = .dm → p = .line d.index.toNat) ∧
      (s.cfg.policy = .w4 → ∃ f ages w, p = .way d.index.toNat w ∧ s.w4[d.index.toNat]? = some f ∧ f.get w = l ∧
        s.age[d.index.toNat]? = some ages ∧
        (hit = false → ages.get w = 3 ∧ ∀ x, (f.get x).holds d.tag = false)) := by
  unfold lookup at h
  split at h
  · simp at h
  · rename_i p' hit' hs
    split at h
    · simp at h
    · rename_i l' hl
      split at h
      · rename_i hlen
        simp only [Option.some.injEq, Prod.mk.injEq] at h
        obtain ⟨rfl, rfl, rfl⟩ := h
        refine ⟨hl, hlen, ?_⟩
        unfold lookupSlot at hs
        split at hs
        · rename_i hp
          simp only [Option.map_eq_some_iff, Prod.mk.injEq] at hs
          obtain ⟨m, hm, rfl, rfl⟩ := hs
          simp only [slotLine, hm, Option.some.injEq] at hl
          subst hl
          simp [Slot.index, hp]
        · rename_i hp
          split at hs
          · rename_i f ages hf ha
            split at hs
            · rename_i w hw
              simp only [Option.some.injEq, Prod.mk.injEq] at hs
              obtain ⟨rfl, rfl⟩ := hs
              simp only [slotLine, hf, Option.map_some, Option.some.injEq] at hl
              subst hl
              have := Four.find_some hw
              simp [Slot.index, hp, hf, ha, this]
            · rename_i hw
              rw [Four.find_none] at hw
              simp only [Option.map_eq_some_iff, Prod.mk.injEq] at hs
              obtain ⟨v, hv, rfl, rfl⟩ := hs
              simp only [slotLine, hf, Option.map_some, Option.some.injEq] at hl
              subst hl
              have := victim_age hv
              simp [Slot.index, hp, hf, ha, this, hw]
          · simp at hs
      · simp at h

/-- Everything an access that returns has done (R141). -/
theorem access_done {req : Request} {s t : State} {word : Word} {hit : Bool} (h : access req s = .done word hit t) :
    crossesLine s.cfg s.geom req.address = false ∧
      ∃ p l, lookup s (decodeAddress s.geom req.address) = some (p, l, hit) ∧
        (req.isWrite = true → word = 0 ∧
          t = writeThrough req.address req.data (touch p (putLine p
            { (filledLine req.address (decodeAddress s.geom req.address).tag l hit s).1 with
              data := storeWord (filledLine req.address (decodeAddress s.geom req.address).tag l hit s).1.data
                (decodeAddress s.geom req.address).offset.toNat req.data }
            (filledLine req.address (decodeAddress s.geom req.address).tag l hit s).2))) ∧
        (req.isWrite = false →
          word = assemble (filledLine req.address (decodeAddress s.geom req.address).tag l hit s).1.data
              (decodeAddress s.geom req.address).offset.toNat ∧
          t = touch p (putLine p (filledLine req.address (decodeAddress s.geom req.address).tag l hit s).1
            (filledLine req.address (decodeAddress s.geom req.address).tag l hit s).2)) := by
  unfold access at h
  simp only [] at h
  split at h
  · simp at h
  · rename_i hc
    refine ⟨by simpa using hc, ?_⟩
    split at h
    · simp at h
    · rename_i p l hit' hl
      split at h
      · rename_i hw
        simp only [AccessResult.done.injEq] at h
        obtain ⟨rfl, rfl, rfl⟩ := h
        exact ⟨p, l, hl, fun _ => ⟨rfl, rfl⟩, fun h' => by simp [hw] at h'⟩
      · rename_i hw
        simp only [AccessResult.done.injEq] at h
        obtain ⟨rfl, rfl, rfl⟩ := h
        exact ⟨p, l, hl, fun h' => absurd h' hw, fun _ => ⟨rfl, rfl⟩⟩

/-- What an access never changes. -/
theorem access_frame {req : Request} {s t : State} {word : Word} {hit : Bool} (h : access req s = .done word hit t) :
    t.configured = s.configured ∧ t.cfg = s.cfg ∧ t.geom = s.geom ∧ t.gateCount = s.gateCount ∧ t.ccnt = s.ccnt ∧
      t.mcnt = s.mcnt ∧ t.waitC = s.waitC ∧ t.waitM = s.waitM ∧ t.pend = s.pend ∧ t.pendWrite = s.pendWrite ∧
      t.cycles = s.cycles ∧ t.hits = s.hits ∧ t.misses = s.misses ∧ t.overflow = s.overflow ∧ t.halted = s.halted ∧
      t.rdata = s.rdata ∧ t.complete = s.complete ∧ t.lastHit = s.lastHit ∧ t.fault = s.fault ∧
      t.latched = s.latched ∧ t.inputs = s.inputs ∧ t.outcome = s.outcome := by
  obtain ⟨-, p, l, -, hw, hr⟩ := access_done h
  cases hi : req.isWrite with
  | true => rw [(hw hi).2]; simp
  | false => rw [(hr hi).2]; simp

/-- An access changes one slot of the storage, the one the lookup answers: it holds the filled line, with a write's word stored
into it. Of the ages only its set's are touched. -/
theorem access_slots {req : Request} {s t : State} {word : Word} {hit : Bool} (h : access req s = .done word hit t) :
    ∃ p l f, lookup s (decodeAddress s.geom req.address) = some (p, l, hit) ∧
      f = (filledLine req.address (decodeAddress s.geom req.address).tag l hit s).1 ∧ f.valid = true ∧
      f.tag = (decodeAddress s.geom req.address).tag ∧ f.data.length = s.cfg.lineSize.toNat ∧
      (∀ q, slotLine t q = if q = p then
          some (if req.isWrite then
            { f with data := storeWord f.data (decodeAddress s.geom req.address).offset.toNat req.data } else f)
        else slotLine s q) ∧
      t.age = (touch p s).age := by
  obtain ⟨-, p, l, hl, hw, hr⟩ := access_done h
  have hs := lookup_some hl
  have hf : ∀ q, slotLine (filledLine req.address (decodeAddress s.geom req.address).tag l hit s).2 q = slotLine s q := by
    intro q
    unfold filledLine
    split <;> apply slotLine_congr <;> simp
  have hage : (filledLine req.address (decodeAddress s.geom req.address).tag l hit s).2.age = s.age := by
    unfold filledLine
    split <;> simp
  have hv : (filledLine req.address (decodeAddress s.geom req.address).tag l hit s).1.valid = true ∧
      (filledLine req.address (decodeAddress s.geom req.address).tag l hit s).1.tag = (decodeAddress s.geom req.address).tag ∧
      (filledLine req.address (decodeAddress s.geom req.address).tag l hit s).1.data.length = s.cfg.lineSize.toNat := by
    have h1 := hs.2.1
    have h2 := hs.2.2.2.1
    unfold filledLine
    split <;> simp_all [Line.holds]
  have hput : ∀ (l' : Line) (u v : State), slotLine u p = some l → v.dm = (touch p (putLine p l' u)).dm →
      v.w4 = (touch p (putLine p l' u)).w4 → ∀ q, slotLine v q = if q = p then some l' else slotLine u q := by
    intro l' u v hu hd hv q
    rw [← slotLine_putLine hu l' q]
    exact slotLine_congr (by rw [hd]; simp) (by rw [hv]; simp) q
  have htouch : ∀ (l' : Line) (u : State), u.age = s.age → (touch p (putLine p l' u)).age = (touch p s).age := by
    intro l' u hu
    cases p <;> simp [touch, putLine, hu]
  refine ⟨p, l, _, hl, rfl, hv.1, hv.2.1, hv.2.2, ?_, ?_⟩
  · intro q
    rw [← hf q]
    cases hi : req.isWrite with
    | true => exact hput _ _ t ((hf p).trans hs.1) (by rw [(hw hi).2]; simp) (by rw [(hw hi).2]; simp) q
    | false => exact hput _ _ t ((hf p).trans hs.1) (by rw [(hr hi).2]; rfl) (by rw [(hr hi).2]; rfl) q
  · cases hi : req.isWrite with
    | true =>
      rw [(hw hi).2]
      simp only [writeThrough_fields]
      exact htouch _ _ hage
    | false =>
      rw [(hr hi).2]
      exact htouch _ _ hage

/-- A read access changes no memory (20_memory.md R61). -/
theorem access_read_mem {req : Request} {s t : State} {word : Word} {hit : Bool} (h : access req s = .done word hit t)
    (hi : req.isWrite = false) : t.mem = s.mem := by
  obtain ⟨-, p, l, -, -, hr⟩ := access_done h
  rw [(hr hi).2]; simp

end Sys2Proof.Machine
end

