-- ==== Sys2Proof/Laws/Invariant.lean ====
section
/-! SUPPORT. A decidable form of the invariant (10_state.md R44) for a concrete state, and the lemma that it is enough. -/

namespace Sys2Proof.Machine

/-- Every slot the storage has. -/
def State.slots (s : State) : List Slot :=
  (List.range s.dm.length).map Slot.line ++
    (List.range s.w4.length).flatMap fun k => [.way k 0, .way k 1, .way k 2, .way k 3]

theorem mem_slots {s : State} {p : Slot} {l : Line} (h : slotLine s p = some l) : p ∈ s.slots := by
  cases p with
  | line i =>
    have : i < s.dm.length := (List.getElem?_eq_some_iff.1 h).1
    simp [State.slots, this]
  | way k w =>
    simp only [slotLine, Option.map_eq_some_iff] at h
    obtain ⟨f, hf, -⟩ := h
    have : k < s.w4.length := (List.getElem?_eq_some_iff.1 hf).1
    fin_cases w <;> simp [State.slots, this]

/-- The line is as long as the configuration says, its tag has the tag's width, and a VALID in-range line holds memory's
block. -/
def lineOk (s : State) (p : Slot) (l : Line) : Bool :=
  decide (l.data.length = s.cfg.lineSize.toNat) &&
    decide (l.tag.toNat < 2 ^ (32 - s.geom.offsetBits - s.geom.indexBits)) &&
    (!l.valid || !decide ((blockAddress s.geom l.tag p.index).toNat < Config.memSize) ||
      (List.range s.cfg.lineSize.toNat).all fun k =>
        byteAt l.data k == Memory.read s.mem ((blockAddress s.geom l.tag p.index).toNat + k))

/-- The slots' part of the invariant. -/
def slotsOk (s : State) : Bool :=
  s.slots.all fun p => match slotLine s p with
    | some l => lineOk s p l
    | none => true

/-- A set's part of the invariant. -/
def setOk (f : Four Line) (ages : Four (BitVec 2)) : Bool :=
  decide (permutedAges ages) &&
    decide (∀ w x : Fin 4, (f.get w).valid = true → (f.get x).valid = true → (f.get w).tag = (f.get x).tag → w = x) &&
    decide (∀ w x : Fin 4, (f.get w).valid = false → (f.get x).valid = true → ages.get x < ages.get w)

/-- The sets' part of the invariant. -/
def setsOk (s : State) : Bool := decide (s.age.length = s.w4.length) && (s.w4.zip s.age).all fun x => setOk x.1 x.2

/-- The part of the invariant about the registers. -/
def registersOk (s : State) : Bool :=
  legality s.cfg == none && s.geom == deriveGeometry s.cfg &&
    s.gateCount == BitVec.ofNat 64 (gateCountNat s.cfg s.geom) &&
    decide (s.dm.length = if s.cfg.policy = .dm then s.cfg.numLines.toNat else 0) &&
    decide (s.w4.length = if s.cfg.policy = .w4 then s.geom.numSets else 0) &&
    !(s.waitC && s.waitM) && decide (1 ≤ s.mcnt.toNat) && decide (s.mcnt.toNat ≤ s.cfg.memoryLatency.toNat) &&
    decide (s.ccnt.toNat ≤ s.cfg.cacheLatency.toNat) &&
    (s.waitC || s.ccnt == s.cfg.cacheLatency) && (!s.waitC || decide (s.ccnt.toNat < s.cfg.cacheLatency.toNat)) &&
    (s.waitM || s.mcnt == s.cfg.memoryLatency) && decide (s.cycles.toNat ≤ s.cfg.budget.toNat) &&
    decide (s.hits.toNat + s.misses.toNat ≤ s.cycles.toNat) && (s.halted == (s.cycles == s.cfg.budget)) &&
    (!s.overflow || s.halted) && (s.latched.isNone == !s.busy)

theorem lineOk_iff {s : State} {p : Slot} {l : Line} :
    lineOk s p l = true ↔ l.data.length = s.cfg.lineSize.toNat ∧
      l.tag.toNat < 2 ^ (32 - s.geom.offsetBits - s.geom.indexBits) ∧ slotCoherent s p l := by
  simp only [lineOk, slotCoherent, Bool.and_eq_true, Bool.or_eq_true, decide_eq_true_eq, Bool.not_eq_true',
    decide_eq_false_iff_not, List.all_eq_true, List.mem_range, beq_iff_eq]
  cases l.valid <;> simp [and_assoc, imp_iff_not_or]

theorem setOk_of_index {s : State} (h : setsOk s = true) {k : Nat} {f : Four Line} {ages : Four (BitVec 2)}
    (hf : s.w4[k]? = some f) (ha : s.age[k]? = some ages) : setOk f ages = true := by
  simp only [setsOk, Bool.and_eq_true, List.all_eq_true] at h
  exact h.2 (f, ages) (List.mem_of_getElem? (i := k) (by simp [List.getElem?_zip_eq_some, hf, ha]))

/-- The checks are enough. -/
theorem runInv_of_checks {s : State} (hr : registersOk s = true) (hl : slotsOk s = true) (hs : setsOk s = true) :
    RunInv s := by
  have hline : ∀ p l, slotLine s p = some l → lineOk s p l = true := fun p l h => by
    have hp := List.all_eq_true.1 hl p (mem_slots h)
    rw [h] at hp
    exact hp
  have hlen : s.age.length = s.w4.length := by
    have h' := hs
    simp only [setsOk, Bool.and_eq_true, decide_eq_true_eq] at h'
    exact h'.1
  have hset : ∀ {k f}, s.w4[k]? = some f → ∃ ages, s.age[k]? = some ages ∧ setOk f ages = true := fun {k f} hf => by
    have hk := (List.getElem?_eq_some_iff.1 hf).1
    have hk' : k < s.age.length := by omega
    exact ⟨s.age[k], List.getElem?_eq_getElem hk', setOk_of_index hs hf (List.getElem?_eq_getElem hk')⟩
  simp only [registersOk, Bool.and_eq_true, Bool.or_eq_true, beq_iff_eq, decide_eq_true_eq, Bool.not_eq_true'] at hr
  obtain ⟨⟨⟨⟨⟨⟨⟨⟨⟨⟨⟨⟨⟨⟨⟨⟨h1, h2⟩, h3⟩, h4⟩, h5⟩, h6⟩, h7⟩, h8⟩, h9⟩, h10⟩, h11⟩, h12⟩, h13⟩, h14⟩, h15⟩, h16⟩, h17⟩ := hr
  refine
    { legalConfig := h1, geometryDerived := h2, costComputed := h3, lineCount := h4, setCount := h5, ageCount := hlen
      slotShape := fun p l h => ⟨(lineOk_iff.1 (hline p l h)).1, (lineOk_iff.1 (hline p l h)).2.1⟩
      agesPermuted := fun f hf => ?_, tagsDistinct := fun f hf => ?_
      emptyOlder := fun k f ages hf ha => ?_
      notBothWaits := by simpa using h6, mcntRange := ⟨h7, h8⟩, ccntRange := h9
      ccntIdle := fun h => by simpa [h] using h10, ccntWaiting := fun h => by simpa [h] using h11
      mcntIdle := fun h => by simpa [h] using h12, cyclesBound := h13, accessesBound := h14
      haltedExactly := ?_, overflowHalted := fun h => by simpa [h] using h16, latchedExactly := ?_
      slotsCoherent := fun p l h => (lineOk_iff.1 (hline p l h)).2.2 }
  · obtain ⟨k, hk⟩ := List.getElem?_of_mem hf
    have hk' := (List.getElem?_eq_some_iff.1 hk).1
    have := setOk_of_index hs (k := k) (f := s.w4[k]'(by omega)) (List.getElem?_eq_getElem (by omega)) hk
    simp only [setOk, Bool.and_eq_true, decide_eq_true_eq] at this
    exact this.1.1
  · obtain ⟨k, hk⟩ := List.getElem?_of_mem hf
    obtain ⟨ages, -, hok⟩ := hset hk
    simp only [setOk, Bool.and_eq_true, decide_eq_true_eq] at hok
    exact hok.1.2
  · have := setOk_of_index hs hf ha
    simp only [setOk, Bool.and_eq_true, decide_eq_true_eq] at this
    exact this.2
  · rw [h15]; simp
  · cases hb : s.busy <;> cases hq : s.latched <;> simp [hb, hq] at h17 ⊢

/-- A concrete state meets the invariant when the checks pass. -/
theorem inv_of_checks {s : State} (hm : Memory.wf s.mem = true) (hr : registersOk s = true) (hl : slotsOk s = true)
    (hs : setsOk s = true) : Inv s := ⟨hm, fun _ => runInv_of_checks hr hl hs⟩

end Sys2Proof.Machine
end

