-- ==== Sys2Proof/Laws/Timing.lean ====
section
/-! SUPPORT. What a cycle, a counted step and the step function can do (44_timing_engine.md R213 to R221). -/

namespace Sys2Proof.Machine

/-- A memory-wait cycle either goes on or finishes (R215). -/
theorem memoryWait_cases (s : State) :
    (s.mcnt - 1 ≠ 0 ∧ memoryWait s = { s with mcnt := s.mcnt - 1, outcome := .waiting }) ∨
      (s.mcnt - 1 = 0 ∧
        memoryWait s = finish s.pendWrite s.pend { s with mcnt := s.cfg.memoryLatency, waitM := false }) := by
  unfold memoryWait
  split
  · exact .inr ⟨‹_›, rfl⟩
  · exact .inl ⟨‹_›, rfl⟩

/-- What an access cycle that does not raise has done (R214). -/
theorem accessCycle_ok {i : StepIn} {s t : State} (h : accessCycle i s = .ok t) :
    ∃ word hit u, access (requestOf i) (endCacheWait s) = .done word hit u ∧
      ((hit = true ∧ t = finishHit i.w word u) ∨ (hit = false ∧ t = startMemoryWait i.w word u)) := by
  unfold accessCycle at h
  split at h
  · simp at h
  · simp at h
  · rename_i word hit u hu
    simp only [CycleResult.ok.injEq] at h
    refine ⟨word, hit, u, hu, ?_⟩
    cases hit <;> simp_all

/-- The only raise inside a cycle is LineCross, before any state changes (R214, 20_memory.md R70). -/
theorem accessCycle_raised {i : StepIn} {s now : State} {f : FaultRecord} (h : accessCycle i s = .raised f now) :
    f = .lineCross i.addr ∧ now = s ∧ crossesLine s.cfg s.geom i.addr = true := by
  unfold accessCycle at h
  split at h
  · rename_i ha
    simp only [CycleResult.raised.injEq] at h
    refine ⟨h.1.symm, h.2.symm, ?_⟩
    unfold access at ha
    simp only [] at ha
    split at ha
    · rename_i hc; simpa [requestOf, endCacheWait] using hc
    · split at ha
      · simp at ha
      · split at ha <;> simp at ha
  · simp at h
  · simp at h

/-- The three kinds of cycle (R213 to R215, R217). -/
theorem cycle_ok {i : StepIn} {s t : State} (h : cycle i s = .ok t) :
    (s.waitM = true ∧ t = memoryWait s) ∨
      (s.waitM = false ∧ s.ccnt ≠ 0 ∧ t = cacheWait s) ∨
      (s.waitM = false ∧ s.ccnt = 0 ∧ accessCycle i s = .ok t) := by
  unfold cycle at h
  split_ifs at h with h1 h2
  · exact .inl ⟨h1, by simpa using h.symm⟩
  · exact .inr (.inl ⟨by simpa using h1, h2, by simpa using h.symm⟩)
  · exact .inr (.inr ⟨by simpa using h1, by simpa using h2, h⟩)

theorem cycle_raised {i : StepIn} {s now : State} {f : FaultRecord} (h : cycle i s = .raised f now) :
    s.waitM = false ∧ s.ccnt = 0 ∧ f = .lineCross i.addr ∧ now = s ∧ crossesLine s.cfg s.geom i.addr = true := by
  unfold cycle at h
  split_ifs at h with h1 h2
  have := accessCycle_raised h
  exact ⟨by simpa using h1, by simpa using h2, this⟩

/-- What the budget check leaves (R220, R221). -/
theorem budgetCheck_cases (i : StepIn) (before s : State) :
    (s.cycles ≠ s.cfg.budget ∧ budgetCheck i before s = s) ∨
      (s.cycles = s.cfg.budget ∧ i.xb = false ∧ s.busy = true ∧
        budgetCheck i before s = raise before s (.budgetSignalMissing i.bits)) ∨
      (s.cycles = s.cfg.budget ∧ (i.xb = true ∨ s.busy = false) ∧
        budgetCheck i before s = { s with halted := true, overflow := s.overflow || i.xb }) := by
  unfold budgetCheck
  split_ifs with h1 h2
  · refine .inr (.inl ⟨h1, ?_⟩)
    simp only [Bool.and_eq_true, Bool.not_eq_true'] at h2
    exact ⟨h2.1, h2.2, rfl⟩
  · refine .inr (.inr ⟨h1, ?_, rfl⟩)
    cases hx : i.xb <;> simp_all
  · exact .inl ⟨h1, rfl⟩

/-- Everything a counted step that answers a next state has done (R217). -/
theorem countedStep_next {i : StepIn} {s t : State} (h : countedStep i s = .next t) :
    (∃ u, cycle i (openStep i s) = .ok u ∧ t = budgetCheck i s u) ∨
      ((openStep i s).waitM = false ∧ (openStep i s).ccnt = 0 ∧ crossesLine s.cfg s.geom i.addr = true ∧
        t = raise s (openStep i s) (.lineCross i.addr)) := by
  unfold countedStep at h
  split at h
  · rename_i u hu
    exact .inl ⟨u, hu, by simpa using h.symm⟩
  · rename_i f now hf
    obtain ⟨h1, h2, rfl, rfl, hc⟩ := cycle_raised hf
    exact .inr ⟨h1, h2, by simpa using hc, by simpa using h.symm⟩
  · simp at h

/-- Everything the step function can do for `rst = 0` when it answers a next state (R217, 60_exceptions.md R289). -/
theorem engineStep_next {i : StepIn} {s t : State} (h : engineStep i s = .next t) :
    s.configured = true ∧
      ((s.fault.isSome = true ∧ t = { s with outcome := .faulted }) ∨
        (s.fault = none ∧ s.halted = true ∧ t = { s with outcome := .halted }) ∨
        (s.Ready ∧ s.busy = false ∧ i.v = false ∧ t = idleStep s) ∨
        (s.Ready ∧ s.busy = true ∧ (∃ q, s.latched = some q ∧ requestHeld i q = false) ∧
          t = raise s s (.requestNotHeld i.bits)) ∨
        (s.Ready ∧ s.busy = true ∧ (∃ q, s.latched = some q ∧ requestHeld i q = true) ∧ countedStep i s = .next t) ∨
        (s.Ready ∧ s.busy = false ∧ i.v = true ∧ countedStep i s = .next t)) := by
  unfold engineStep at h
  split_ifs at h with h1 h2 h3 h4 h5
  · exact ⟨by simpa using h1, .inl ⟨h2, by simpa using h.symm⟩⟩
  · exact ⟨by simpa using h1, .inr (.inl ⟨by simpa using h2, h3, by simpa using h.symm⟩)⟩
  · have hr : s.Ready := ⟨by simpa using h1, by simpa using h2, by simpa using h3⟩
    refine ⟨hr.configured, ?_⟩
    split at h
    · simp at h
    · rename_i q hq
      split_ifs at h with h6
      · exact .inr (.inr (.inr (.inr (.inl ⟨hr, h4, ⟨q, hq, h6⟩, h⟩))))
      · exact .inr (.inr (.inr (.inl ⟨hr, h4, ⟨q, hq, by simpa using h6⟩, by simpa using h.symm⟩)))
  · have hr : s.Ready := ⟨by simpa using h1, by simpa using h2, by simpa using h3⟩
    exact ⟨hr.configured, .inr (.inr (.inr (.inr (.inr ⟨hr, by simpa using h4, h5, h⟩))))⟩
  · have hr : s.Ready := ⟨by simpa using h1, by simpa using h2, by simpa using h3⟩
    exact ⟨hr.configured, .inr (.inr (.inl ⟨hr, by simpa using h4, by simpa using h5, by simpa using h.symm⟩))⟩

/-- The step function's next states, sorted by what they change: nothing but the return value; the pulses; the fault record and
the trace (a raise, 60_exceptions.md R285); or a whole counted step that ended without a raise. -/
theorem engineStep_sorted {i : StepIn} {s t : State} (h : engineStep i s = .next t) :
    (¬ s.Ready ∧ ((s.fault.isSome = true ∧ t = { s with outcome := .faulted }) ∨
        (s.fault = none ∧ s.halted = true ∧ t = { s with outcome := .halted }))) ∨
      (s.Ready ∧ s.busy = false ∧ i.v = false ∧ t = idleStep s) ∨
      (s.Ready ∧ ∃ now f, t = raise s now f) ∨
      (s.Ready ∧ (s.busy = true ∨ i.v = true) ∧ ∃ u, cycle i (openStep i s) = .ok u ∧
        ((u.cycles ≠ u.cfg.budget ∧ t = u) ∨
          (u.cycles = u.cfg.budget ∧ (i.xb = true ∨ u.busy = false) ∧
            t = { u with halted := true, overflow := u.overflow || i.xb }))) := by
  have counted : countedStep i s = .next t → (∃ now f, t = raise s now f) ∨
      ∃ u, cycle i (openStep i s) = .ok u ∧ ((u.cycles ≠ u.cfg.budget ∧ t = u) ∨
        (u.cycles = u.cfg.budget ∧ (i.xb = true ∨ u.busy = false) ∧
          t = { u with halted := true, overflow := u.overflow || i.xb })) := fun hc => by
    rcases countedStep_next hc with ⟨u, hu, rfl⟩ | ⟨-, -, -, rfl⟩
    · rcases budgetCheck_cases i s u with ⟨h1, e⟩ | ⟨-, -, -, e⟩ | ⟨h1, h2, e⟩
      · exact .inr ⟨u, hu, .inl ⟨h1, e⟩⟩
      · exact .inl ⟨_, _, e⟩
      · exact .inr ⟨u, hu, .inr ⟨h1, h2, e⟩⟩
    · exact .inl ⟨_, _, rfl⟩
  obtain ⟨-, ⟨hf, rfl⟩ | ⟨hf, hh, rfl⟩ | ⟨hr, hb, hv, rfl⟩ | ⟨hr, -, -, rfl⟩ | ⟨hr, hb, -, hc⟩ | ⟨hr, -, hv, hc⟩⟩ := engineStep_next h
  · exact .inl ⟨fun hr => by simp [hr.noFault] at hf, .inl ⟨hf, rfl⟩⟩
  · exact .inl ⟨fun hr => by simp [hr.running] at hh, .inr ⟨hf, hh, rfl⟩⟩
  · exact .inr (.inl ⟨hr, hb, hv, rfl⟩)
  · exact .inr (.inr (.inl ⟨hr, _, _, rfl⟩))
  · exact (counted hc).elim (fun h => .inr (.inr (.inl ⟨hr, h⟩))) fun h => .inr (.inr (.inr ⟨hr, .inl hb, h⟩))
  · exact (counted hc).elim (fun h => .inr (.inr (.inl ⟨hr, h⟩))) fun h => .inr (.inr (.inr ⟨hr, .inr hv, h⟩))

/-- An engine that takes commands runs a held request's counted step. -/
theorem engineStep_held {i : StepIn} {s : State} {q : Request} (hr : s.Ready) (hb : s.busy = true)
    (hq : s.latched = some q) (hh : requestHeld i q = true) : engineStep i s = countedStep i s := by
  simp [engineStep, hr.configured, hr.noFault, hr.running, hb, hq, hh]

/-- An engine that takes commands and is not busy starts a request. -/
theorem engineStep_start {i : StepIn} {s : State} (hr : s.Ready) (hb : s.busy = false) (hv : i.v = true) :
    engineStep i s = countedStep i s := by
  simp [engineStep, hr.configured, hr.noFault, hr.running, hb, hv]

/-- Every command but RESET is the step function on the command's own `STEP` fields. -/
theorem exec_eq_engineStep (i : Instr) (s : State) (h : ∀ c, i ≠ .reset c) : exec i s = engineStep i.stepIn s := by
  cases i with
  | reset c => exact absurd rfl (h c)
  | read xb a d => rfl
  | write xb a d => rfl
  | idle => rfl
  | cont xb v w a d => rfl

end Sys2Proof.Machine
end

