-- ==== Sys2Proof/Laws/Step.lean ====
section
/-! SUPPORT. What one step can do (44_timing_engine.md R210). -/

namespace Sys2Proof.Machine

/-- A step that answers a next state took the host's next bundle and ran its command. -/
theorem step_next {s t : State} (h : step s = .next t) :
    ∃ p rest, s.inputs = p :: rest ∧ exec (decode s.busy p) { s with inputs := rest } = .next t := by
  unfold step at h
  cases hi : s.inputs with
  | nil => simp [fetch_nil s hi] at h
  | cons p rest =>
    rw [fetch_cons s p rest hi] at h
    exact ⟨p, rest, rfl, h⟩

/-- A step with a bundle presented. -/
theorem step_present (s : State) (p : PortInput) : step (s.present p) = exec (decode s.busy p) s := rfl

/-- What RESET answers (70_reset_and_hazards.md R310): always a next state. -/
theorem execReset_cases (c : RunConfig) (s : State) :
    (legality c = none ∧ execReset c s = .next (startRun c s)) ∨
      (∃ k, legality c = some k ∧ execReset c s = .next (rejectConfig k s)) := by
  unfold execReset
  cases h : legality c with
  | none => exact .inl ⟨rfl, rfl⟩
  | some k => exact .inr ⟨k, rfl, rfl⟩

/-- What a failed RESET is known to leave (R310, 60_exceptions.md R281): everything else is free. -/
@[simp] theorem rejectConfig_fields (k : ConfigCheck) (s : State) :
    (rejectConfig k s).configured = false ∧ (rejectConfig k s).fault = some (.configError k) ∧
      (rejectConfig k s).outcome = .configError k ∧ (rejectConfig k s).inputs = s.inputs ∧
      (rejectConfig k s).trace = s.trace ++ [.configError k] ∧ (rejectConfig k s).draws = s.draws + 1 :=
  ⟨rfl, rfl, rfl, rfl, rfl, rfl⟩

/-- The free memory it leaves is in canonical form. -/
theorem rejectConfig_memory_wf (k : ConfigCheck) (s : State) : Memory.wf (rejectConfig k s).mem = true := by
  simp only [rejectConfig, unspecifiedState, freeMemory_wf]

/-- The word an opcode-table number puts on the ports is the next one fetched. -/
theorem fetch_withFetchWord (s : State) (nbits w : Nat) (p : PortInput) (h : portOfNat (w % 2 ^ nbits) = .ok p) :
    fetch (s.withFetchWord nbits w) = some (p, s) := by
  unfold State.withFetchWord
  rw [h]
  rfl

end Sys2Proof.Machine
end

