-- ==== Sys2Proof/Laws/PerInstr.lean ====
section
/-! SUPPORT. Per command: its encoded `STEP` word has its row's fixed bits (30_encoding.md R96). -/

namespace Sys2Proof

/-- An encoded `STEP` word as a number (30_encoding.md R91). -/
theorem StepIn.bits_toNat (i : StepIn) :
    i.bits.toNat = (8 * i.rst.toNat + 4 * i.xb.toNat + 2 * i.v.toNat + i.w.toNat) * 2 ^ 64 + i.addr.toNat * 2 ^ 32
      + i.data.toNat := by
  have h1 := Bool.toNat_le i.rst
  have h2 := Bool.toNat_le i.xb
  have h3 := Bool.toNat_le i.v
  have h4 := Bool.toNat_le i.w
  have h5 := i.addr.isLt
  have h6 := i.data.isLt
  unfold StepIn.bits
  rw [BitVec.toNat_ofNat, Nat.mod_eq_of_lt]
  omega

/-- The four flag bits of an encoded `STEP` word (R91). -/
theorem StepIn.bits_flags (i : StepIn) :
    i.bits.getLsbD 67 = i.rst ∧ i.bits.getLsbD 66 = i.xb ∧ i.bits.getLsbD 65 = i.v ∧ i.bits.getLsbD 64 = i.w := by
  have h5 := i.addr.isLt
  have h6 := i.data.isLt
  simp only [BitVec.getLsbD, StepIn.bits_toNat, Nat.testBit_eq_decide_div_mod_eq]
  cases i.rst <;> cases i.xb <;> cases i.v <;> cases i.w <;>
    simp only [Bool.toNat_true, Bool.toNat_false, decide_eq_true_eq, decide_eq_false_iff_not] <;> omega

/-- A 68-bit word under a mask of flag bits: it is enough to compare the flags. -/
theorem and_mask_eq (b m k : BitVec 68) (hlow : ∀ j < 64, m.getLsbD j = false ∧ k.getLsbD j = false)
    (h64 : (b.getLsbD 64 && m.getLsbD 64) = k.getLsbD 64) (h65 : (b.getLsbD 65 && m.getLsbD 65) = k.getLsbD 65)
    (h66 : (b.getLsbD 66 && m.getLsbD 66) = k.getLsbD 66) (h67 : (b.getLsbD 67 && m.getLsbD 67) = k.getLsbD 67) :
    b &&& m = k := by
  apply BitVec.eq_of_getLsbD_eq
  intro j hj
  rw [BitVec.getLsbD_and]
  by_cases h : j < 64
  · simp [hlow j h]
  · have : j = 64 ∨ j = 65 ∨ j = 66 ∨ j = 67 := by omega
    rcases this with rfl | rfl | rfl | rfl <;> assumption

namespace Laws.TableRow

/-- The command's word under its row's mask is its row's match value. -/
def Statement (i : Instr) : Prop := (encode i).step &&& i.tableMask = i.tableMatch

theorem reset (c : RunConfig) : Statement (.reset c) := by
  obtain ⟨h67, h66, h65, h64⟩ := StepIn.bits_flags (Instr.reset c).stepIn
  exact and_mask_eq _ _ _ (by simp only [Instr.tableMask, Instr.tableMatch]; decide)
    (by rw [encode, h64]; simp [Instr.stepIn, Instr.tableMask, Instr.tableMatch]) (by rw [encode, h65]; simp [Instr.stepIn, Instr.tableMask, Instr.tableMatch])
    (by rw [encode, h66]; simp [Instr.stepIn, Instr.tableMask, Instr.tableMatch]) (by rw [encode, h67]; simp [Instr.stepIn, Instr.tableMask, Instr.tableMatch])

theorem read (xb : Bool) (addr : Addr) (data : Word) : Statement (.read xb addr data) := by
  obtain ⟨h67, h66, h65, h64⟩ := StepIn.bits_flags (Instr.read xb addr data).stepIn
  exact and_mask_eq _ _ _ (by simp only [Instr.tableMask, Instr.tableMatch]; decide)
    (by rw [encode, h64]; simp [Instr.stepIn, Instr.tableMask, Instr.tableMatch]) (by rw [encode, h65]; simp [Instr.stepIn, Instr.tableMask, Instr.tableMatch])
    (by rw [encode, h66]; simp [Instr.stepIn, Instr.tableMask, Instr.tableMatch]) (by rw [encode, h67]; simp [Instr.stepIn, Instr.tableMask, Instr.tableMatch])

theorem write (xb : Bool) (addr : Addr) (data : Word) : Statement (.write xb addr data) := by
  obtain ⟨h67, h66, h65, h64⟩ := StepIn.bits_flags (Instr.write xb addr data).stepIn
  exact and_mask_eq _ _ _ (by simp only [Instr.tableMask, Instr.tableMatch]; decide)
    (by rw [encode, h64]; simp [Instr.stepIn, Instr.tableMask, Instr.tableMatch]) (by rw [encode, h65]; simp [Instr.stepIn, Instr.tableMask, Instr.tableMatch])
    (by rw [encode, h66]; simp [Instr.stepIn, Instr.tableMask, Instr.tableMatch]) (by rw [encode, h67]; simp [Instr.stepIn, Instr.tableMask, Instr.tableMatch])

theorem idle : Statement .idle := by
  unfold Statement; decide

theorem cont (xb v w : Bool) (addr : Addr) (data : Word) : Statement (.cont xb v w addr data) := by
  obtain ⟨h67, h66, h65, h64⟩ := StepIn.bits_flags (Instr.cont xb v w addr data).stepIn
  exact and_mask_eq _ _ _ (by simp only [Instr.tableMask, Instr.tableMatch]; decide)
    (by rw [encode, h64]; simp [Instr.stepIn, Instr.tableMask, Instr.tableMatch]) (by rw [encode, h65]; simp [Instr.stepIn, Instr.tableMask, Instr.tableMatch])
    (by rw [encode, h66]; simp [Instr.stepIn, Instr.tableMask, Instr.tableMatch]) (by rw [encode, h67]; simp [Instr.stepIn, Instr.tableMask, Instr.tableMatch])

end Laws.TableRow

end Sys2Proof
end

