-- ==== Sys2Proof/Machine/Text.lean ====
section
/-! DEFINITION. The request-level text of test programs (30_encoding.md R100): one line of characters to one program line. The
engine does not contain this (log 16). -/

namespace Sys2Proof.Machine

/-- What a line of text says. -/
inductive TextLine where
  /-- Nothing but blanks and a comment. -/
  | blank
  | command (l : ProgramLine)
  /-- Not a line of R100. -/
  | malformed
  deriving DecidableEq, Repr

/-- A finished token: none where no character was read. `acc` holds its characters, last first. -/
def finishToken (acc : List Char) : List (List Char) := if acc.isEmpty then [] else [acc.reverse]

/-- The tokens of a line: separated by blanks, a comma a token of its own, up to the `;` that starts a comment. -/
def tokens : List Char → List Char → List (List Char)
  | [], acc => finishToken acc
  | c :: cs, acc =>
    if c = ';' then finishToken acc
    else if c = ' ' ∨ c = '\t' ∨ c = '\r' then finishToken acc ++ tokens cs []
    else if c = ',' then finishToken acc ++ [','] :: tokens cs []
    else tokens cs (c :: acc)

/-- The value of a hexadecimal digit, of either case. -/
def digitValue (c : Char) : Option Nat :=
  if 48 ≤ c.toNat ∧ c.toNat ≤ 57 then some (c.toNat - 48)
  else if 65 ≤ c.toNat ∧ c.toNat ≤ 70 then some (c.toNat - 55)
  else if 97 ≤ c.toNat ∧ c.toNat ≤ 102 then some (c.toNat - 87)
  else none

/-- The number the digits stand for, after `n`. -/
def digitsValue (base : Nat) : List Char → Nat → Option Nat
  | [], n => some n
  | c :: cs, n =>
    match digitValue c with
    | some d => if d < base then digitsValue base cs (base * n + d) else none
    | none => none

/-- What follows a key in a token. -/
def afterKey : List Char → List Char → Option (List Char)
  | [], t => some t
  | _ :: _, [] => none
  | k :: ks, c :: cs => if k = c then afterKey ks cs else none

/-- The number of a string of at least one digit. -/
def numeral (base : Nat) (t : List Char) : Option Nat := if t.isEmpty then none else digitsValue base t 0

/-- A decimal or `0x` hexadecimal number that fits `width` bits. -/
def number (width : Nat) (t : List Char) : Option (BitVec width) :=
  let n := match afterKey ['0', 'x'] t with
    | some digits => numeral 16 digits
    | none => numeral 10 t
  match n with
  | some n => if n < 2 ^ width then some (BitVec.ofNat width n) else none
  | none => none

/-- The number of a `key=number` token. -/
def field (width : Nat) (key t : List Char) : Option (BitVec width) :=
  match afterKey key t with
  | some v => number width v
  | none => none

/-- The policy of a `policy=DM` or `policy=W4` token. -/
def policyField (t : List Char) : Option Policy :=
  if t = ['p', 'o', 'l', 'i', 'c', 'y', '=', 'D', 'M'] then some .dm
  else if t = ['p', 'o', 'l', 'i', 'c', 'y', '=', 'W', '4'] then some .w4
  else none

/-- The record of a `RESET` line's six fields. -/
def configFields (p l n c m b : List Char) : Option RunConfig :=
  match policyField p, field 32 ['l', 'i', 'n', 'e', '='] l, field 32 ['l', 'i', 'n', 'e', 's', '='] n,
    field 32 ['c', 'l', 'a', 't', '='] c, field 32 ['m', 'l', 'a', 't', '='] m,
    field 64 ['b', 'u', 'd', 'g', 'e', 't', '='] b with
  | some p, some l, some n, some c, some m, some b =>
    some { policy := p, lineSize := l, numLines := n, cacheLatency := c, memoryLatency := m, budget := b }
  | _, _, _, _, _, _ => none

/-- A line that holds a command, `malformed` where its fields do not read. -/
def commandOf (l : Option ProgramLine) : TextLine :=
  match l with
  | some l => .command l
  | none => .malformed

/-- One line of text (R100). -/
def parseLine (text : List Char) : TextLine :=
  match tokens text [] with
  | [] => .blank
  | name :: args =>
    if name = ['R', 'E', 'S', 'E', 'T'] then
      match args with
      | [p, l, n, c, m, b] => commandOf ((configFields p l n c m b).map .reset)
      | _ => .malformed
    else if name = ['R', 'E', 'A', 'D'] then
      match args with
      | [a] => commandOf ((number 32 a).map .read)
      | _ => .malformed
    else if name = ['W', 'R', 'I', 'T', 'E'] then
      match args with
      | [a, comma, d] =>
        if comma = [','] then commandOf ((number 32 a).bind fun a => (number 32 d).map fun d => .write a d) else .malformed
      | _ => .malformed
    else if name = ['I', 'D', 'L', 'E'] then
      match args with
      | [] => .command .idle
      | _ => .malformed
    else .malformed

end Sys2Proof.Machine
end

