-- ==== Sys2Proof/Tests/Slice0.lean ====
section
/-! SUPPORT. The model's own tests: well-formedness, words written out from the spec's encodings, single steps from the spec's test
vectors, and one witness for each statement that has hypotheses. -/

namespace Sys2Proof.Tests

open Sys2Proof Sys2Proof.Machine

/-! ## Well-formedness -/

/-- A busy engine never selects READ, WRITE or IDLE (30_encoding.md R95). -/
theorem test_wf_refuses_new_commands_while_busy :
    (Instr.read false 0 0).wf true = false ∧ (Instr.write false 0 0).wf true = false ∧ Instr.idle.wf true = false := by decide

/-- An engine that is not busy never selects CONTINUE (R95). -/
theorem test_wf_refuses_continue_while_not_busy : (Instr.cont false true false 0 0).wf false = false := by decide

/-! ## Words written out from 30_encoding.md R91, R92, R102 -/

/-- A configuration record. -/
def cfgOf (p : Policy) (l n cL mL : BitVec 32) (b : Count) : RunConfig :=
  { policy := p, lineSize := l, numLines := n, cacheLatency := cL, memoryLatency := mL, budget := b }

/-- W4, L 4, N 8, cL 2, mL 3, B 1000, written field by field (R92). -/
theorem test_reset_word :
    decode false
      { step := 0x80000000000000000
        config := 0b1#1 ++ 0x00000004#32 ++ 0x00000008#32 ++ 0x00000002#32 ++ 0x00000003#32 ++ 0x00000000000003E8#64 } =
      .reset (cfgOf .w4 4 8 2 3 1000) := by decide +kernel

/-- Each field of a request at its own place (R91): `{rst, xb, v, w, addr, data}`. -/
theorem test_write_word :
    decode false { step := 0b0#1 ++ 0b1#1 ++ 0b1#1 ++ 0b1#1 ++ 0x80000001#32 ++ 0x7FFFFFFE#32, config := 0 } =
      .write true 0x80000001 0x7FFFFFFE := by decide

theorem test_read_word :
    decode false { step := 0b0#1 ++ 0b0#1 ++ 0b1#1 ++ 0b0#1 ++ 0x00000010#32 ++ 0x00000000#32, config := 0 } =
      .read false 0x10 0 := by decide

theorem test_idle_word : decode false { step := 0x1FFFFFFFFFFFFFFFF, config := 0 } = .idle := by decide

theorem test_continue_word :
    decode true { step := 0b0#1 ++ 0b1#1 ++ 0b0#1 ++ 0b1#1 ++ 0x00000004#32 ++ 0x00000002#32, config := 0 } =
      .cont true false true 4 2 := by decide

/-- A number with a bit above the two bundles is rejected by name. -/
theorem test_too_wide_is_rejected :
    decodeNat false (2 ^ 68 * 2 ^ 193) = .error .tooWide ∧ decodeNat false (2 ^ 68 * 2 ^ 193 - 1) ≠ .error .tooWide := by
  constructor
  · rfl
  · intro h; cases h

/-- The match values of opcode_table.json select their own rows in an engine that is not busy. -/
theorem test_table_words :
    decodeTableWord 72 0x20000000000000000 = some (.read false 0 0) ∧
    decodeTableWord 72 0x30000000000000000 = some (.write false 0 0) ∧
    decodeTableWord 72 0x00000000000000000 = some .idle ∧
    decodeTableWord 72 0x80000000000000000 = some (.reset (cfgOf .dm 0 0 0 0 0)) := by decide

/-! ## Small states -/

/-- DM, one line of 4 bytes, `cL = mL = 2`, `B = 10` (gateCount 161: 95_test_vectors.md V5). -/
def dmState (l : Line) : State :=
  { State.reset with
    cfg := cfgOf .dm 4 1 2 2 10
    geom := { offsetBits := 2, indexBits := 0, tagBits := 14, numSets := 1 }
    gateCount := 161
    dm := [l]
    ccnt := 2
    mcnt := 2 }

/-- W4, one set of four 4-byte ways, `cL = mL = 2`, `B = 10` (gateCount 964: V5). -/
def w4State (f : Four Line) (ages : Four (BitVec 2)) : State :=
  { State.reset with
    cfg := cfgOf .w4 4 4 2 2 10
    geom := { offsetBits := 2, indexBits := 0, tagBits := 14, numSets := 1 }
    gateCount := 964
    dm := []
    w4 := [f]
    age := [ages]
    ccnt := 2
    mcnt := 2 }

def emptyL : Line := { valid := false, tag := 0, data := [0, 0, 0, 0] }

/-- A VALID line of zeros with this tag. -/
def validL (tag : BitVec 32) : Line := { valid := true, tag := tag, data := [0, 0, 0, 0] }

/-- After READ 0x0 (V3.2): way 0 holds tag 0, ages [0, 3, 2, 1]. -/
def oneWay : State := w4State { w0 := validL 0, w1 := emptyL, w2 := emptyL, w3 := emptyL } { w0 := 0, w1 := 3, w2 := 2, w3 := 1 }

/-- After READ 0x0, 0x4, 0x8, 0xC (V3.3): tags 0 to 3, ages [3, 2, 1, 0]. -/
def fullSet : State := w4State { w0 := validL 0, w1 := validL 1, w2 := validL 2, w3 := validL 3 } { w0 := 3, w1 := 2, w2 := 1, w3 := 0 }

/-- In the cache wait, after `n` counted steps with `ccnt` left. -/
def waitingAt (q : Request) (n : Count) (ccnt : BitVec 32) (s : State) : State :=
  { s with cycles := n, waitC := true, ccnt := ccnt, latched := some q }

/-- In the memory wait. -/
def missingAt (q : Request) (n : Count) (mcnt : BitVec 32) (s : State) : State :=
  { s with cycles := n, misses := 1, waitM := true, mcnt := mcnt, pendWrite := q.isWrite, latched := some q }

def readOf (a : Addr) : Request := { address := a, isWrite := false, data := 0 }
def writeOf (a : Addr) (d : Word) : Request := { address := a, isWrite := true, data := d }

/-- The next state of an outcome, for a check of some of its fields. -/
def check (o : Host.Outcome State Fault Refusal) (p : State → Bool) : Bool :=
  match o with
  | .next s => p s
  | .fault _ => false
  | .refused _ => false

/-! ## Single steps -/

/-- State.reset is what RESET leaves, but for the EMPTY lines' free contents (10_state.md R43; log 1, log 6). -/
theorem test_reset_state :
    { startRun State.reset.cfg State.reset with dm := State.reset.dm, draws := 0 } = State.reset ∧
      (startRun State.reset.cfg State.reset).dm.length = 8 := by
  constructor <;> decide +kernel

/-- V6: `B = 0` and `L = 6`, two failures: the first in table order is reported. -/
theorem test_reset_first_failure :
    check (exec (.reset (cfgOf .dm 6 8 2 3 0)) State.reset) (fun t =>
      t.configured == false && t.fault == some (.configError .budgetZero) && t.outcome == .configError .budgetZero) = true := by
  rfl

/-- V6: RESET while a request is in flight; the cost is V5's for DM, N 1, L 4. -/
theorem test_reset_while_busy :
    check (exec (.reset (cfgOf .dm 4 1 1 1 5)) (waitingAt (readOf 0) 1 1 (dmState (validL 0)))) (fun t =>
      t.latched == none && t.waitC == false && t.cycles == 0 && t.gateCount == 161 && t.ccnt == 1 && t.outcome == .reset) = true := by
  decide +kernel

/-- V4.6: `xb = 1` on a step that is not the last of the budget is ignored. -/
theorem test_read_first_step :
    check (exec (.read true 0 0) (dmState emptyL)) (fun t =>
      t.waitC && t.ccnt == 1 && t.cycles == 1 && !t.overflow && t.latched == some (readOf 0)) = true := by decide

/-- V4.4 step 2: a write that misses changes memory in its access cycle. -/
theorem test_write_miss_writes_memory :
    check (exec (.cont false true true 0x10 0xDEADBEEF) (waitingAt (writeOf 0x10 0xDEADBEEF) 2 0 (dmState emptyL))) (fun t =>
      t.mem == [(0x10, 0xEF), (0x11, 0xBE), (0x12, 0xAD), (0x13, 0xDE)] && t.waitM && t.misses == 1 && !t.complete &&
        t.dm == [{ valid := true, tag := 4, data := [0xEF, 0xBE, 0xAD, 0xDE] }]) = true := by decide

/-- V4.4 step 1: a WRITE's first step writes nothing. -/
theorem test_write_first_step :
    check (exec (.write false 0x10 0xDEADBEEF) (dmState emptyL)) (fun t =>
      t.mem == [] && t.waitC && t.dm == [emptyL] && t.outcome == .waiting) = true := by decide

/-- V4.5: IDLE clears `complete` and counts nothing. -/
theorem test_idle :
    check (exec .idle { dmState (validL 0) with complete := true, cycles := 3, rdata := 7 }) (fun t =>
      !t.complete && t.cycles == 3 && t.rdata == 7 && t.outcome == .idle) = true := by decide

/-- V4.9: a step after `halted = 1` returns `Halted` and changes nothing. -/
theorem test_idle_halted :
    check (exec .idle { dmState (validL 0) with complete := true, cycles := 10, halted := true }) (fun t =>
      t.complete && t.outcome == .halted) = true := by decide

/-- V3.6: READ 0x10 (tag 4) evicts way 1, whose age is 3. -/
theorem test_continue_lru_miss :
    check (exec (.cont false true false 0x10 0) (waitingAt (readOf 0x10) 2 0
        { fullSet with age := [{ w0 := 1, w1 := 3, w2 := 2, w3 := 0 }] })) (fun t =>
      t.age == [{ w0 := 2, w1 := 0, w2 := 3, w3 := 1 }] &&
        t.w4 == [{ w0 := validL 0, w1 := validL 4, w2 := validL 2, w3 := validL 3 }] && !t.lastHit) = true := by decide

/-- V1: two rows of the address decoder's table, one of them out of range. -/
theorem test_address_decoder :
    decodeAddress { offsetBits := 3, indexBits := 3, tagBits := 10, numSets := 8 } 0x1234 = { tag := 0x48, index := 6, offset := 4 } ∧
    decodeAddress { offsetBits := 4, indexBits := 12, tagBits := 0, numSets := 4096 } 0x1FFFF =
      { tag := 1, index := 4095, offset := 15 } := by decide

/-- Two lines of program P1 (95_test_vectors.md) in the text of 30_encoding.md R100. -/
theorem test_program_text :
    parseLine ['W', 'R', 'I', 'T', 'E', ' ', '0', 'x', '1', '0', ',', ' ', '0', 'x', 'D', 'E', 'A', 'D', 'B', 'E', 'E', 'F', ' ', ';',
      ' ', 'm', 'i', 's', 's'] = .command (.write 0x10 0xDEADBEEF) ∧
    parseLine ['R', 'E', 'S', 'E', 'T', ' ', 'p', 'o', 'l', 'i', 'c', 'y', '=', 'D', 'M', ' ', 'l', 'i', 'n', 'e', '=', '8', ' ',
      'l', 'i', 'n', 'e', 's', '=', '8', ' ', 'c', 'l', 'a', 't', '=', '1', ' ', 'm', 'l', 'a', 't', '=', '2', ' ',
      'b', 'u', 'd', 'g', 'e', 't', '=', '1', '0', '0'] = .command (.reset (cfgOf .dm 8 8 1 2 100)) := by decide +kernel

/-- R101: `READ 0x10` that misses with `cL = mL = 2` stands for five words, the fifth with `xb` where it is the budget's last and
more requests wait. -/
theorem test_program_words :
    ProgramLine.words { dmState emptyL with cycles := 5 } true (.read 0x10) =
      [{ step := 0x20000001000000000, config := 0 }, { step := 0x20000001000000000, config := 0 },
       { step := 0x20000001000000000, config := 0 }, { step := 0x20000001000000000, config := 0 },
       { step := 0x60000001000000000, config := 0 }] := by decide +kernel

/-- P6: `READ 0x2` with 4-byte lines and `cL = 1` stands for two words, up to the step that raises LineCross. -/
theorem test_program_words_line_cross :
    ProgramLine.words { dmState emptyL with cfg := cfgOf .dm 4 1 1 1 100 } true (.read 2) =
      [{ step := 0x20000000200000000, config := 0 }, { step := 0x20000000200000000, config := 0 }] := by decide +kernel

/-! ## The small states meet the invariant -/

theorem dmEmpty_inv : Inv (dmState emptyL) := inv_of_checks (by decide) (by decide) (by decide) (by decide)
theorem dmValid_inv : Inv (dmState (validL 0)) := inv_of_checks (by decide) (by decide) (by decide) (by decide)
theorem oneWay_inv : Inv oneWay := inv_of_checks (by decide) (by decide) (by decide) (by decide)
theorem fullSet_inv : Inv fullSet := inv_of_checks (by decide) (by decide) (by decide) (by decide)

/-! ## Witnesses: for each statement with hypotheses, a state and operands that meet them -/

theorem witness_EncodeThenDecodeIsIdentity :
    (Instr.reset (cfgOf .w4 4 8 2 3 1000)).wf true = true ∧ (Instr.read true 0xFFFFFFFF 1).wf false = true ∧
    (Instr.write true 0xFFFFFFFF 1).wf false = true ∧ Instr.idle.wf false = true ∧
    (Instr.cont true false true 0xFFFFFFFF 1).wf true = true := by decide

/-- Both ways a word keeps its bits, and RESET. -/
theorem witness_DecodeThenEncodeKeepsTheWord :
    ((0x00000000000000000 : BitVec 68).getLsbD 67 = false ∧ true = true) ∧
    ((0x2FFFFFFFFFFFFFFFF : BitVec 68).getLsbD 67 = false ∧ (0x2FFFFFFFFFFFFFFFF : BitVec 68).getLsbD 65 = true) ∧
    (0x80000000000000000 : BitVec 68).getLsbD 67 = true := by decide

/-- One word for each row of the command map. -/
theorem witness_CommandMapFollowsTheTable :
    (0xFFFFFFFFFFFFFFFFF : BitVec 68).getLsbD 67 = true ∧
    (0x00000000000000000 : BitVec 68).getLsbD 67 = false ∧
    ((0x6FFFFFFFFFFFFFFFF : BitVec 68).getLsbD 67 = false ∧ (0x6FFFFFFFFFFFFFFFF : BitVec 68).getLsbD 65 = true ∧
      (0x6FFFFFFFFFFFFFFFF : BitVec 68).getLsbD 64 = false) ∧
    ((0x70000000000000000 : BitVec 68).getLsbD 67 = false ∧ (0x70000000000000000 : BitVec 68).getLsbD 65 = true ∧
      (0x70000000000000000 : BitVec 68).getLsbD 64 = true) ∧
    ((0x5FFFFFFFFFFFFFFFF : BitVec 68).getLsbD 67 = false ∧ (0x5FFFFFFFFFFFFFFFF : BitVec 68).getLsbD 65 = false) := by decide

theorem witness_StepRunsTheDecodedCommand :
    ({ dmState emptyL with inputs := [encode .idle] } : State).inputs = encode .idle :: [] ∧
    (∃ p, portOfNat ((2 ^ 68 * 2 ^ 193 - 1) % 2 ^ 264) = .ok p) ∧ State.reset.inputs = [] := by
  refine ⟨rfl, ⟨{ step := BitVec.ofNat 68 (2 ^ 68 * 2 ^ 193 - 1), config := BitVec.ofNat 193 (2 ^ 193 - 1) }, ?_⟩, rfl⟩
  decide +kernel

/-- For FirstAccessMisses and every statement with a legal configuration, the edges: `tagBits = 0` under either policy (V6), one
line (V5), the largest budget. -/
theorem witness_legalConfigurations :
    legality (cfgOf .dm 4 0x4000 1 1 1) = none ∧ legality (cfgOf .w4 4 0x10000 1 1 0xFFFFFFFFFFFFFFFD) = none ∧
    legality (cfgOf .dm 0x10000 1 0xFFFFFFFF 0xFFFFFFFF 100) = none := by decide +kernel

theorem witness_LegalResetSetsResetValues :
    legality (cfgOf .dm 4 1 2 2 10) = none ∧ (cfgOf .dm 4 1 2 2 10).policy = .dm ∧
    legality (cfgOf .w4 4 4 2 2 10) = none ∧ (cfgOf .w4 4 4 2 2 10).policy = .w4 := by decide +kernel

theorem witness_IllegalResetIsRejected :
    legality (cfgOf .dm 8 8 2 3 0xFFFFFFFFFFFFFFFE) = some .budgetTooLarge ∧ ∀ c', Instr.idle ≠ .reset c' :=
  ⟨by decide +kernel, fun _ h => Instr.noConfusion h⟩

/-- Not a power of two: between two neighbouring ones. -/
theorem not_pow_between {n k : Nat} (h1 : 2 ^ k < n) (h2 : n < 2 ^ (k + 1)) : ¬ ∃ o, n = 2 ^ o := by
  rintro ⟨o, rfl⟩
  rw [Nat.pow_lt_pow_iff_right (by omega)] at h1 h2
  omega

/-- The table's first checks (R312), each at a boundary value; the budget clauses at 0, 2^64 − 2, 1 and 2^64 − 3. -/
theorem witness_LegalityReportsTheFirstFailingCheck_line :
    (0#64).toNat = 0 ∧
    ((0xFFFFFFFFFFFFFFFE#64).toNat ≠ 0 ∧ 2 ^ 64 - 3 < (0xFFFFFFFFFFFFFFFE#64).toNat) ∧
    ((1#64).toNat ≠ 0 ∧ (0xFFFFFFFFFFFFFFFD#64).toNat ≤ 2 ^ 64 - 3) ∧
    (0#32).toNat = 0 ∧ (6#32).toNat % 4 ≠ 0 ∧
    ((12#32).toNat ≠ 0 ∧ (12#32).toNat % 4 = 0 ∧ ¬ ∃ o, (12#32).toNat = 2 ^ o) ∧
    (2 ≤ 2 ∧ (4#32).toNat = 2 ^ 2) :=
  ⟨rfl, by decide, by decide, rfl, by decide, ⟨by decide, by decide, not_pow_between (k := 3) (by decide) (by decide)⟩, by decide⟩

/-- The checks on `N`, with `L = 4` (`o = 2`). -/
theorem witness_LegalityReportsTheFirstFailingCheck_lines :
    (0#32).toNat = 0 ∧
    ((3#32).toNat ≠ 0 ∧ ¬ ∃ j, (3#32).toNat = 2 ^ j) ∧
    (10#32).toNat % 4 ≠ 0 ∧
    ((12#32).toNat ≠ 0 ∧ (12#32).toNat % 4 = 0 ∧ ¬ ∃ j, (12#32).toNat = 4 * 2 ^ j) := by
  refine ⟨rfl, ⟨by decide, not_pow_between (k := 1) (by decide) (by decide)⟩, by decide, by decide, by decide, ?_⟩
  rintro ⟨j, hj⟩
  refine not_pow_between (n := 3) (k := 1) (by decide) (by decide) ⟨j, ?_⟩
  have : (12#32).toNat = 12 := rfl
  omega

/-- The last checks: `o + j` at 17 and 16 under either policy, latencies at 0 and 1. -/
theorem witness_LegalityReportsTheFirstFailingCheck_tag :
    ((0x8000#32).toNat = 2 ^ 15 ∧ 16 < 2 + 15) ∧ ((0x20000#32).toNat = 4 * 2 ^ 15 ∧ 16 < 2 + 15) ∧
    ((0x4000#32).toNat = 2 ^ 14 ∧ 2 + 14 ≤ 16) ∧ ((0x10000#32).toNat = 4 * 2 ^ 14 ∧ 2 + 14 ≤ 16) ∧
    (0#32).toNat = 0 ∧ (1#32).toNat ≠ 0 := by decide

theorem witness_LegalGeometryFillsTheAddressWidth :
    legality (cfgOf .dm 4 0x4000 1 1 1) = none ∧ (cfgOf .dm 4 0x4000 1 1 1).policy = .dm ∧
    legality (cfgOf .w4 4 0x10000 1 1 1) = none ∧ (cfgOf .w4 4 0x10000 1 1 1).policy = .w4 := by decide +kernel

theorem witness_ResetComputesTheGateCount :
    legality (cfgOf .w4 4 0x10000 1 1 1) = none ∧ (cfgOf .w4 4 0x10000 1 1 1).policy = .w4 ∧
    legality (cfgOf .dm 8 8 2 3 100) = none ∧ (cfgOf .dm 8 8 2 3 100).policy = .dm := by decide +kernel

theorem idle_not_reset (c : RunConfig) : Instr.idle ≠ .reset c := Instr.noConfusion
theorem cont_not_reset (xb v w : Bool) (a : Addr) (d : Word) (c : RunConfig) : Instr.cont xb v w a d ≠ .reset c := Instr.noConfusion

theorem witness_UnconfiguredEngineRefuses :
    (∀ c, Instr.idle ≠ .reset c) ∧ ({ dmState emptyL with configured := false } : State).configured = false :=
  ⟨idle_not_reset, rfl⟩

theorem witness_FaultedEngineIsFrozen :
    (∀ c, Instr.idle ≠ .reset c) ∧ (dmState emptyL).configured = true ∧
    ({ dmState emptyL with fault := some (.lineCross 2) } : State).fault = some (.lineCross 2) := ⟨idle_not_reset, rfl, rfl⟩

/-- A halted engine: `cycles = B`. -/
def haltedState : State := { dmState (validL 0) with cycles := 10, halted := true, complete := true }

theorem witness_HaltedEngineIsFrozen :
    (∀ c, Instr.idle ≠ .reset c) ∧ haltedState.configured = true ∧ haltedState.fault = none ∧ haltedState.halted = true :=
  ⟨idle_not_reset, rfl, rfl, rfl⟩

theorem witness_IdleClearsThePulses :
    ((dmState emptyL).Ready ∧ (dmState emptyL).busy = false) ∧
    (({ dmState emptyL with fault := some (.lineCross 2) } : State).fault.isSome = true) ∧
    (haltedState.configured = true ∧ haltedState.fault = none ∧ haltedState.halted = true) ∧
    ((0x5FFFFFFFFFFFFFFFF : BitVec 68).getLsbD 67 = false ∧ (0x5FFFFFFFFFFFFFFFF : BitVec 68).getLsbD 65 = false) :=
  ⟨⟨⟨rfl, rfl, rfl⟩, rfl⟩, rfl, ⟨rfl, rfl, rfl⟩, by decide⟩

theorem witness_DecodedFieldsRecomposeTheAddress :
    (deriveGeometry (cfgOf .dm 16 4096 1 1 1)).offsetBits + (deriveGeometry (cfgOf .dm 16 4096 1 1 1)).indexBits = 16 := by
  decide +kernel

/-- The edges of the address space, for DecodedFieldsHaveTheirRanges, BlockBaseRoundsDown and FillReadsTheBlock. -/
theorem witness_addressRanges :
    legality (dmState emptyL).cfg = none ∧ legality oneWay.cfg = none ∧
    (0xFFFF : Addr).toNat < 65536 ∧ 65536 ≤ (0x10000 : Addr).toNat ∧ 65536 ≤ (0xFFFFFFFF : Addr).toNat := by decide +kernel

theorem witness_WordsAreLittleEndian : 4 + 4 ≤ ([0, 1, 2, 3, 4, 5, 6, 7] : List Byte).length ∧ 3 < 4 ∧ 4 + 4 ≤ 8 := by decide

theorem witness_MemoryPrimitivesCheckBounds :
    (0xFFFF : Addr).toNat < 65536 ∧ 65536 ≤ (0x10000 : Addr).toNat ∧
    Memory.wf ({ dmState emptyL with mem := [(0, 1), (65535, 2)] } : State).mem = true := by decide

/-- For TouchMakesTheWayMostRecent and RecencyListMovesToFront. -/
theorem witness_permutedAges :
    permutedAges { w0 := 0, w1 := 3, w2 := 2, w3 := 1 } ∧ permutedAges { w0 := 3, w1 := 2, w2 := 1, w3 := 0 } := by decide

/-- A set with a VALID way 0 and EMPTY older ways, as after V3.2. -/
theorem witness_VictimIsTheOldestWay :
    permutedAges { w0 := 0, w1 := 3, w2 := 2, w3 := 1 } ∧
    (∀ w x : Fin 4,
      (Four.get { w0 := validL 0, w1 := emptyL, w2 := emptyL, w3 := emptyL } w).valid = false →
      (Four.get { w0 := validL 0, w1 := emptyL, w2 := emptyL, w3 := emptyL } x).valid = true →
      Four.get ({ w0 := 0, w1 := 3, w2 := 2, w3 := 1 } : Four (BitVec 2)) x < Four.get { w0 := 0, w1 := 3, w2 := 2, w3 := 1 } w) ∧
    (∃ w : Fin 4, (Four.get { w0 := validL 0, w1 := emptyL, w2 := emptyL, w3 := emptyL } w).valid = false) := by decide

theorem witness_LeastRecentlyTouchedIsEvicted :
    permutedAges { w0 := 3, w1 := 2, w2 := 1, w3 := 0 } ∧
    (3 : Fin 4) ≠ 1 ∧ (3 : Fin 4) ≠ 0 ∧ (3 : Fin 4) ≠ 2 ∧ (1 : Fin 4) ≠ 0 ∧ (1 : Fin 4) ≠ 2 ∧ (0 : Fin 4) ≠ 2 := by decide

/-- A first step off the final budget step, and one on it with `xb = 1`. -/
theorem witness_NewRequestWaitsForTheCache :
    ((dmState emptyL).Ready ∧ (dmState emptyL).busy = false ∧ (dmState emptyL).ccnt ≠ 0 ∧
      (dmState emptyL).cycles + 1 ≠ (dmState emptyL).cfg.budget) ∧
    (({ dmState emptyL with cycles := 9 } : State).Ready ∧ ({ dmState emptyL with cycles := 9 } : State).busy = false ∧
      ({ dmState emptyL with cycles := 9 } : State).cycles + 1 = ({ dmState emptyL with cycles := 9 } : State).cfg.budget) :=
  ⟨⟨⟨rfl, rfl, rfl⟩, rfl, by decide, by decide⟩, ⟨rfl, rfl, rfl⟩, rfl, by decide⟩

theorem witness_CacheWaitCycleCountsDown :
    (waitingAt (writeOf 0 5) 1 1 (dmState emptyL)).Ready ∧ (waitingAt (writeOf 0 5) 1 1 (dmState emptyL)).waitC = true ∧
    (waitingAt (writeOf 0 5) 1 1 (dmState emptyL)).waitM = false ∧ (waitingAt (writeOf 0 5) 1 1 (dmState emptyL)).ccnt ≠ 0 ∧
    (waitingAt (writeOf 0 5) 1 1 (dmState emptyL)).latched = some (writeOf 0 5) ∧
    (waitingAt (writeOf 0 5) 1 1 (dmState emptyL)).cycles + 1 ≠ (waitingAt (writeOf 0 5) 1 1 (dmState emptyL)).cfg.budget :=
  ⟨⟨rfl, rfl, rfl⟩, rfl, rfl, by decide, rfl, by decide⟩

/-- A memory wait that goes on (`mcnt = 2`) and one that ends (`mcnt = 1`), a read and a write. -/
theorem witness_MemoryWaitCycleCountsDownAndFinishes :
    ((missingAt (readOf 0) 3 2 (dmState (validL 0))).Ready ∧ (missingAt (readOf 0) 3 2 (dmState (validL 0))).waitC = false ∧
      (missingAt (readOf 0) 3 2 (dmState (validL 0))).waitM = true ∧
      (missingAt (readOf 0) 3 2 (dmState (validL 0))).latched = some (readOf 0) ∧
      (missingAt (readOf 0) 3 2 (dmState (validL 0))).mcnt ≠ 1 ∧
      (missingAt (readOf 0) 3 2 (dmState (validL 0))).cycles + 1 ≠ (missingAt (readOf 0) 3 2 (dmState (validL 0))).cfg.budget) ∧
    ((missingAt (writeOf 0 0) 4 1 (dmState (validL 0))).Ready ∧
      (missingAt (writeOf 0 0) 4 1 (dmState (validL 0))).latched = some (writeOf 0 0) ∧
      (missingAt (writeOf 0 0) 4 1 (dmState (validL 0))).mcnt = 1) :=
  ⟨⟨⟨rfl, rfl, rfl⟩, rfl, rfl, rfl, by decide, by decide⟩, ⟨rfl, rfl, rfl⟩, rfl, rfl⟩

/-- A read of tag 3 waiting on the full set: a hit in way 3. -/
def w4Hit : State := waitingAt (readOf 12) 2 0 fullSet
/-- A write of an address whose tag the line holds. -/
def dmHit : State := waitingAt (writeOf 0 5) 9 0 (dmState (validL 0))
/-- A read of tag 4: a miss on the full set, victim way 0. -/
def w4Miss : State := waitingAt (readOf 16) 2 0 fullSet
/-- A write at the top of the address space: a miss of the EMPTY line. -/
def dmMiss : State := waitingAt (writeOf 0xFFFC 5) 2 0 (dmState emptyL)
/-- An out-of-range read: a miss. -/
def oorMiss : State := waitingAt (readOf 0x10000) 2 0 (dmState (validL 0))

theorem w4Hit_inv : Inv w4Hit := inv_of_checks (by decide) (by decide) (by decide) (by decide)
theorem dmHit_inv : Inv dmHit := inv_of_checks (by decide) (by decide) (by decide) (by decide)
theorem w4Miss_inv : Inv w4Miss := inv_of_checks (by decide) (by decide) (by decide) (by decide)
theorem dmMiss_inv : Inv dmMiss := inv_of_checks (by decide) (by decide) (by decide) (by decide)
theorem oorMiss_inv : Inv oorMiss := inv_of_checks (by decide) (by decide) (by decide) (by decide)

theorem witness_ReadHitCompletes :
    Inv w4Hit ∧ w4Hit.Ready ∧ w4Hit.waitC = true ∧ w4Hit.ccnt = 0 ∧ w4Hit.latched = some (readOf 12) ∧
    (readOf 12).isWrite = false ∧ crossesLine w4Hit.cfg w4Hit.geom (readOf 12).address = false ∧
    slotLine w4Hit (.way 0 3) = some (validL 3) ∧
    (Slot.way 0 3).index = (decodeAddress w4Hit.geom (readOf 12).address).index.toNat ∧
    (validL 3).holds (decodeAddress w4Hit.geom (readOf 12).address).tag = true :=
  ⟨w4Hit_inv, ⟨rfl, rfl, rfl⟩, rfl, rfl, rfl, rfl, by decide, by decide, by decide, by decide⟩

/-- On the final budget step. -/
theorem witness_WriteHitCompletes :
    Inv dmHit ∧ dmHit.Ready ∧ dmHit.waitC = true ∧ dmHit.ccnt = 0 ∧ dmHit.latched = some (writeOf 0 5) ∧
    (writeOf 0 5).isWrite = true ∧ crossesLine dmHit.cfg dmHit.geom (writeOf 0 5).address = false ∧
    slotLine dmHit (.line 0) = some (validL 0) ∧
    (Slot.line 0).index = (decodeAddress dmHit.geom (writeOf 0 5).address).index.toNat ∧
    (validL 0).holds (decodeAddress dmHit.geom (writeOf 0 5).address).tag = true :=
  ⟨dmHit_inv, ⟨rfl, rfl, rfl⟩, rfl, rfl, rfl, rfl, by decide, by decide, by decide, by decide⟩

/-- An out-of-range write hit: the line holds tag 0x4000, which is 0x10000's. -/
theorem witness_WriteHitCompletes_outOfRange :
    Inv (waitingAt (writeOf 0x10000 5) 2 0 (dmState (validL 0x4000))) ∧
    (validL 0x4000).holds (decodeAddress (dmState (validL 0x4000)).geom 0x10000).tag = true ∧
    crossesLine (dmState (validL 0x4000)).cfg (dmState (validL 0x4000)).geom 0x10000 = false ∧
    65536 ≤ (writeOf 0x10000 5).address.toNat :=
  ⟨inv_of_checks (by decide) (by decide) (by decide) (by decide), by decide, by decide, by decide⟩

theorem no_hit {s : State} {tag : BitVec 32} {i : Nat}
    (h : (s.slots.all fun p => match slotLine s p with
      | some l => !(p.index == i) || !l.holds tag
      | none => true) = true) :
    ∀ p' l, slotLine s p' = some l → p'.index = i → l.holds tag = false := by
  intro p l hl hi
  have := List.all_eq_true.1 h p (mem_slots hl)
  rw [hl] at this
  simpa [hi] using this

theorem witness_AccessMissFillsTheVictim_w4 :
    Inv w4Miss ∧ w4Miss.Ready ∧ w4Miss.waitC = true ∧ w4Miss.ccnt = 0 ∧ w4Miss.latched = some (readOf 16) ∧
    crossesLine w4Miss.cfg w4Miss.geom (readOf 16).address = false ∧
    (Slot.way 0 0).index = (decodeAddress w4Miss.geom (readOf 16).address).index.toNat ∧
    (∀ p' l, slotLine w4Miss p' = some l → p'.index = 0 → l.holds (decodeAddress w4Miss.geom (readOf 16).address).tag = false) ∧
    w4Miss.cfg.policy = .w4 ∧
    (∃ ages v, w4Miss.age[(Slot.way 0 0).index]? = some ages ∧ Slot.way 0 0 = .way 0 v ∧ ages.get v = 3) ∧
    w4Miss.cycles + 1 ≠ w4Miss.cfg.budget ∧ ((readOf 16).isWrite = true → (9 : Word) = (readOf 16).data) :=
  ⟨w4Miss_inv, ⟨rfl, rfl, rfl⟩, rfl, rfl, rfl, by decide, by decide, no_hit (by decide), rfl,
    ⟨{ w0 := 3, w1 := 2, w2 := 1, w3 := 0 }, 0, rfl, rfl, rfl⟩, by decide, by decide⟩

/-- In range at the top of memory, and just out of range. -/
theorem witness_AccessMissFillsTheVictim_dm :
    (Inv dmMiss ∧ dmMiss.Ready ∧ dmMiss.waitC = true ∧ dmMiss.ccnt = 0 ∧ dmMiss.latched = some (writeOf 0xFFFC 5) ∧
      crossesLine dmMiss.cfg dmMiss.geom (writeOf 0xFFFC 5).address = false ∧
      (Slot.line 0).index = (decodeAddress dmMiss.geom (writeOf 0xFFFC 5).address).index.toNat ∧
      (∀ p' l, slotLine dmMiss p' = some l → p'.index = 0 →
        l.holds (decodeAddress dmMiss.geom (writeOf 0xFFFC 5).address).tag = false) ∧
      dmMiss.cfg.policy = .dm ∧ dmMiss.cycles + 1 ≠ dmMiss.cfg.budget) ∧
    (Inv oorMiss ∧ oorMiss.Ready ∧ oorMiss.latched = some (readOf 0x10000) ∧ 65536 ≤ (readOf 0x10000).address.toNat ∧
      crossesLine oorMiss.cfg oorMiss.geom (readOf 0x10000).address = false ∧
      (∀ p' l, slotLine oorMiss p' = some l → p'.index = 0 →
        l.holds (decodeAddress oorMiss.geom (readOf 0x10000).address).tag = false)) :=
  ⟨⟨dmMiss_inv, ⟨rfl, rfl, rfl⟩, rfl, rfl, rfl, by decide, by decide, no_hit (by decide), rfl, by decide⟩,
    oorMiss_inv, ⟨rfl, rfl, rfl⟩, rfl, by decide, by decide, no_hit (by decide)⟩

/-- Each of the four ways a CONTINUE fails to repeat the request (R330). -/
theorem witness_UnheldRequestRaises :
    dmHit.Ready ∧ dmHit.busy = true ∧ dmHit.latched = some (writeOf 0 5) ∧
    (false ≠ (writeOf 0 5).isWrite ∧ (4 : Addr) ≠ (writeOf 0 5).address ∧
      ((writeOf 0 5).isWrite = true ∧ (6 : Word) ≠ (writeOf 0 5).data)) :=
  ⟨⟨rfl, rfl, rfl⟩, rfl, rfl, by decide⟩

/-- V7.4: address 2 of a 4-byte line; address 1 is the least that crosses. -/
theorem witness_LineCrossingAccessRaises :
    (waitingAt (readOf 1) 2 0 (dmState emptyL)).Ready ∧ (waitingAt (readOf 1) 2 0 (dmState emptyL)).waitC = true ∧
    (waitingAt (readOf 1) 2 0 (dmState emptyL)).waitM = false ∧ (waitingAt (readOf 1) 2 0 (dmState emptyL)).ccnt = 0 ∧
    (waitingAt (readOf 1) 2 0 (dmState emptyL)).latched = some (readOf 1) ∧
    (dmState emptyL).cfg.lineSize.toNat < (decodeAddress (dmState emptyL).geom (readOf 1).address).offset.toNat + 4 :=
  ⟨⟨rfl, rfl, rfl⟩, rfl, rfl, rfl, rfl, by decide⟩

/-- A first step, a memory wait that goes on (V7.5) and a miss, each on the final budget step. -/
theorem witness_FinalBudgetStepWithoutSignalRaises :
    (({ dmState emptyL with cycles := 9 } : State).Ready ∧ ({ dmState emptyL with cycles := 9 } : State).busy = false ∧
      ({ dmState emptyL with cycles := 9 } : State).ccnt ≠ 0 ∧
      ({ dmState emptyL with cycles := 9 } : State).cycles + 1 = (dmState emptyL).cfg.budget) ∧
    (Inv (missingAt (readOf 0) 9 2 (dmState (validL 0))) ∧ (missingAt (readOf 0) 9 2 (dmState (validL 0))).Ready ∧
      (missingAt (readOf 0) 9 2 (dmState (validL 0))).busy = true ∧
      (missingAt (readOf 0) 9 2 (dmState (validL 0))).latched = some (readOf 0) ∧
      finishesNow (missingAt (readOf 0) 9 2 (dmState (validL 0))) (readOf 0) = false ∧
      (missingAt (readOf 0) 9 2 (dmState (validL 0))).atAccess = false) ∧
    (Inv (waitingAt (readOf 0x10000) 9 0 (dmState (validL 0))) ∧
      finishesNow (waitingAt (readOf 0x10000) 9 0 (dmState (validL 0))) (readOf 0x10000) = false ∧
      (waitingAt (readOf 0x10000) 9 0 (dmState (validL 0))).atAccess = true ∧
      crossesLine (dmState (validL 0)).cfg (dmState (validL 0)).geom 0x10000 = false) :=
  ⟨⟨⟨rfl, rfl, rfl⟩, rfl, by decide, by decide⟩,
    ⟨inv_of_checks (by decide) (by decide) (by decide) (by decide), ⟨rfl, rfl, rfl⟩, rfl, rfl, by decide, by decide⟩,
    inv_of_checks (by decide) (by decide) (by decide) (by decide), by decide, by decide, by decide⟩

/-- With each kind of fault record. -/
theorem witness_OutputsReportTheSentinel :
    ({ haltedState with overflow := true } : State).overflow = true ∧ haltedState.overflow = false ∧
    Inv { haltedState with overflow := true } ∧ Inv haltedState ∧ haltedState.configured = true ∧ haltedState.fault = none ∧
    ({ haltedState with fault := some (.configError .budgetZero) } : State).fault = some (.configError .budgetZero) ∧
    ({ haltedState with fault := some (.lineCross 2) } : State).fault = some (.lineCross 2) ∧
    ({ haltedState with fault := some (.requestNotHeld 0) } : State).fault = some (.requestNotHeld 0) ∧
    ({ haltedState with fault := some (.budgetSignalMissing 0) } : State).fault = some (.budgetSignalMissing 0) :=
  ⟨rfl, rfl, inv_of_checks (by decide) (by decide) (by decide) (by decide),
    inv_of_checks (by decide) (by decide) (by decide) (by decide), rfl, rfl, rfl, rfl, rfl, rfl⟩

/-- For RequestStepsKeepTheConfiguration, OnlyAWriteAccessChangesMemory, AccessTouchesOnlyItsSet, CountersCountStepsAndAccesses and
CompletePulseMatchesTheReturn, the common hypotheses: a command but RESET that answers a next state, here the write hit of `dmHit`. Its word changes
memory; it is an access cycle; it counts a hit and completes. -/
theorem witness_frames :
    (∀ c, Instr.cont false true true 0 5 ≠ .reset c) ∧
    ∃ t, exec (.cont false true true 0 5) dmHit = .next t ∧ dmHit.Ready ∧ dmHit.busy = true ∧ t.fault = none ∧
      dmHit.atAccess = true ∧ (Instr.cont false true true 0 5).stepIn.w = true ∧
      (∀ k, k < 4 → 4 ≠ ((Instr.cont false true true 0 5).stepIn.addr + BitVec.ofNat 32 k).toNat) :=
  ⟨cont_not_reset _ _ _ _ _, _, rfl, ⟨rfl, rfl, rfl⟩, rfl, by decide, by decide, rfl, by decide⟩

/-- The other clauses of the frames: a halted, a faulting and an IDLE step, and a slot outside the accessed set. -/
theorem witness_frames_otherClauses :
    (∃ t, exec .idle haltedState = .next t ∧ haltedState.halted = true ∧ t.outcome = .halted) ∧
    (∃ t, exec (.cont false true false 0 5) dmHit = .next t ∧ t.fault ≠ none ∧ dmHit.Ready) ∧
    (∃ t, exec .idle (dmState emptyL) = .next t ∧ (dmState emptyL).Ready ∧ (dmState emptyL).busy = false ∧
      Instr.idle.stepIn.v = false ∧ (dmState emptyL).atAccess = false) ∧
    (Slot.line 1).index ≠ (decodeAddress dmHit.geom (Instr.cont false true true 0 5).stepIn.addr).index.toNat := by
  refine ⟨⟨_, rfl, rfl, rfl⟩, ⟨_, rfl, by decide, rfl, rfl, rfl⟩, ⟨_, rfl, ⟨rfl, rfl, rfl⟩, rfl, rfl, by decide⟩, by decide⟩

/-- A read that changes `rdata`: memory's wait ends with the pending word. -/
theorem witness_OnlyACompletedReadChangesRdata :
    ∃ t, exec (.cont false true false 0 0) { missingAt (readOf 0) 4 1 (dmState (validL 0)) with pend := 7 } = .next t ∧
      t.rdata ≠ (missingAt (readOf 0) 4 1 (dmState (validL 0))).rdata := ⟨_, rfl, by decide⟩

theorem witness_ValidSlotsStayValid :
    (∃ t, exec (.cont false true true 0 5) dmHit = .next t) ∧ slotLine dmHit (.line 0) = some (validL 0) ∧ (validL 0).valid = true :=
  ⟨⟨_, rfl⟩, rfl, rfl⟩

theorem witness_ReadReturnsMemorysWord :
    Inv fullSet ∧ fullSet.configured = true ∧ (0xFFFC : Addr).toNat < 65536 ∧ crossesLine fullSet.cfg fullSet.geom 0xFFFC = false :=
  ⟨fullSet_inv, rfl, by decide, by decide⟩

theorem witness_WriteReachesMemory :
    Inv fullSet ∧ fullSet.configured = true ∧ crossesLine fullSet.cfg fullSet.geom 0xFFFC = false ∧ (0xFFFC : Addr).toNat < 65536 ∧
    crossesLine fullSet.cfg fullSet.geom 0x10000 = false ∧ 65536 ≤ (0x10000 : Addr).toNat :=
  ⟨fullSet_inv, rfl, by decide, by decide, by decide, by decide⟩

theorem witness_ReaccessHits :
    Inv oneWay ∧ oneWay.configured = true ∧ ∃ t, access (readOf 4) oneWay = .done 0 false t := ⟨oneWay_inv, rfl, _, rfl⟩

/-- V2.4's aliases, on the one-line cache. -/
theorem witness_AliasesEvictEachOther :
    Inv (dmState (validL 0)) ∧ (dmState (validL 0)).configured = true ∧ (dmState (validL 0)).cfg.policy = .dm ∧
    (∃ t, access (readOf 0x40) (dmState (validL 0)) = .done 0 false t) ∧
    (decodeAddress (dmState (validL 0)).geom 0).index = (decodeAddress (dmState (validL 0)).geom (readOf 0x40).address).index ∧
    (decodeAddress (dmState (validL 0)).geom 0).tag ≠ (decodeAddress (dmState (validL 0)).geom (readOf 0x40).address).tag :=
  ⟨dmValid_inv, rfl, rfl, ⟨_, rfl⟩, by decide, by decide⟩

theorem witness_EveryStepKeepsTheInvariant :
    Inv (dmHit.present (encode (.cont false true true 0 5))) ∧
    ∃ t, step (dmHit.present (encode (.cont false true true 0 5))) = .next t :=
  ⟨inv_of_checks (by decide) (by decide) (by decide) (by decide), _, rfl⟩

theorem witness_PresentedStepsNeverStop :
    Inv (dmHit.present (encode .idle)) ∧ (dmHit.present (encode .idle)).inputs = encode .idle :: [] ∧
    (dmHit.present (encode .idle)).configured = true ∧
    Inv { dmHit.present (encode (.reset (cfgOf .dm 4 1 2 2 10))) with configured := false } ∧
    (encode (.reset (cfgOf .dm 4 1 2 2 10))).step.getLsbD 67 = true :=
  ⟨inv_of_checks (by decide) (by decide) (by decide) (by decide), rfl, rfl,
    ⟨by decide, fun h => by simp at h⟩, by decide⟩

/-- A miss of 5 steps that uses the budget up to its end, from `cycles = 5`, `B = 10`. -/
theorem witness_RequestTakesItsCycles :
    Inv { dmState emptyL with cycles := 5 } ∧ ({ dmState emptyL with cycles := 5 } : State).Ready ∧
    ({ dmState emptyL with cycles := 5 } : State).busy = false ∧
    crossesLine (dmState emptyL).cfg (dmState emptyL).geom (readOf 0).address = false ∧
    5 = requestSteps (dmState emptyL).cfg (wouldHit { dmState emptyL with cycles := 5 } (readOf 0).address) ∧
    ({ dmState emptyL with cycles := 5 } : State).cycles.toNat + 5 ≤ ({ dmState emptyL with cycles := 5 } : State).cfg.budget.toNat :=
  ⟨inv_of_checks (by decide) (by decide) (by decide) (by decide), ⟨rfl, rfl, rfl⟩, rfl, by decide, by decide, by decide⟩

/-- A hit of 3 steps driven to the budget's end, where a miss of 5 would not fit. -/
theorem witness_RunTakesTheCyclesOfItsRequests_hit :
    Inv { dmState (validL 0) with cycles := 7 } ∧ ({ dmState (validL 0) with cycles := 7 } : State).Ready ∧
    ({ dmState (validL 0) with cycles := 7 } : State).busy = false ∧
    ∃ t, driveStream 3 [readOf 0] { dmState (validL 0) with cycles := 7 } = (.next t, []) ∧ t.busy = false :=
  ⟨inv_of_checks (by decide) (by decide) (by decide) (by decide), ⟨rfl, rfl, rfl⟩, rfl, _, rfl, rfl⟩

/-- For OverflowReportedExactlyWhenUnfinished and RunTakesTheCyclesOfItsRequests: three requests do not fit in `B = 10` when each misses; two do. -/
theorem witness_runs :
    Inv (dmState emptyL) ∧ (dmState emptyL).Ready ∧ (dmState emptyL).busy = false ∧
    (∀ r ∈ [readOf 0, writeOf 4 1, readOf 8], crossesLine (dmState emptyL).cfg (dmState emptyL).geom r.address = false) ∧
    [readOf 0, writeOf 4 1, readOf 8].length * requestSteps (dmState emptyL).cfg false ≤ 15 ∧
    (dmState emptyL).cycles.toNat + [readOf 0, writeOf 4 1].length * requestSteps (dmState emptyL).cfg false
      ≤ (dmState emptyL).cfg.budget.toNat :=
  ⟨dmEmpty_inv, ⟨rfl, rfl, rfl⟩, rfl, by decide, by decide, by decide⟩

end Sys2Proof.Tests
end

