-- ==== Sys2Proof/Proofs/Legality.lean ====
section
/-! What a legal configuration record is (70_reset_and_hazards.md R312) and the geometry derived from it (00_scope.md R11). -/

namespace Sys2Proof.Machine

/-- No check is reported exactly when no check of the list fails. -/
theorem firstFailing_eq_none_iff (checks : List (ConfigCheck × Bool)) :
    firstFailing checks = none ↔ ∀ check ∈ checks, check.2 = false := by
  induction checks with
  | nil => simp [firstFailing]
  | cons check rest ih =>
    obtain ⟨k, failed⟩ := check
    cases failed <;> simp [firstFailing, ih]

theorem isPowerOfTwo_iff (n : Nat) : isPowerOfTwo n = true ↔ n = 2 ^ Nat.log2 n := by
  rw [isPowerOfTwo, beq_iff_eq, eq_comm]

/-- The twelve checks of R312, each as the condition a legal record meets. -/
structure LegalRecord (c : RunConfig) : Prop where
  budget_ne_zero : c.budget.toNat ≠ 0
  budget_le : c.budget.toNat ≤ Config.maxBudget
  lineSize_ne_zero : c.lineSize.toNat ≠ 0
  lineSize_mod_four : c.lineSize.toNat % 4 = 0
  lineSize_pow : c.lineSize.toNat = 2 ^ Nat.log2 c.lineSize.toNat
  numLines_ne_zero : c.numLines.toNat ≠ 0
  dm_numLines_pow : c.policy = .dm → c.numLines.toNat = 2 ^ Nat.log2 c.numLines.toNat
  w4_numLines_mod_four : c.policy = .w4 → c.numLines.toNat % 4 = 0
  w4_numSets_pow : c.policy = .w4 → c.numLines.toNat / 4 = 2 ^ Nat.log2 (c.numLines.toNat / 4)
  bits_le : (deriveGeometry c).offsetBits + (deriveGeometry c).indexBits ≤ Config.addressWidth
  cacheLatency_ne_zero : c.cacheLatency.toNat ≠ 0
  memoryLatency_ne_zero : c.memoryLatency.toNat ≠ 0

/-- The checks report `ok` exactly for the legal records. -/
theorem legality_eq_none_iff (c : RunConfig) : legality c = none ↔ LegalRecord c := by
  rw [legality, firstFailing_eq_none_iff]
  simp only [configChecks, List.forall_mem_cons, List.not_mem_nil, false_implies, implies_true, and_true,
    beq_eq_false_iff_ne, bne_eq_false_iff_eq, decide_eq_false_iff_not, not_lt, Bool.not_eq_false',
    Bool.and_eq_false_imp, beq_iff_eq, isPowerOfTwo_iff]
  constructor
  · rintro ⟨h1, h2, h3, h4, h5, h6, h7, h8, h9, h10, h11, h12⟩
    exact ⟨h1, h2, h3, h4, h5, h6, h7, h8, h9, h10, h11, h12⟩
  · rintro ⟨h1, h2, h3, h4, h5, h6, h7, h8, h9, h10, h11, h12⟩
    exact ⟨h1, h2, h3, h4, h5, h6, h7, h8, h9, h10, h11, h12⟩

theorem numSetsOf_dm {c : RunConfig} (h : c.policy = .dm) : numSetsOf c = c.numLines.toNat := by
  simp only [numSetsOf, h]

theorem numSetsOf_w4 {c : RunConfig} (h : c.policy = .w4) : numSetsOf c = c.numLines.toNat / 4 := by
  simp only [numSetsOf, h, Config.ways]

namespace LegalRecord

variable {c : RunConfig}

/-- `L = 2^offsetBits` (R11). -/
theorem lineSize_eq (h : LegalRecord c) : c.lineSize.toNat = 2 ^ (deriveGeometry c).offsetBits :=
  h.lineSize_pow

/-- A line holds at least one word: a power of two that 4 divides has an exponent of at least 2. -/
theorem two_le_offsetBits (h : LegalRecord c) : 2 ≤ (deriveGeometry c).offsetBits := by
  have hdvd : 2 ^ 2 ∣ 2 ^ (deriveGeometry c).offsetBits := h.lineSize_eq ▸ Nat.dvd_of_mod_eq_zero h.lineSize_mod_four
  exact (Nat.pow_dvd_pow_iff_le_right (by decide)).mp hdvd

/-- `numSets = 2^indexBits` (R11): each policy has its own check of it. -/
theorem numSets_eq (h : LegalRecord c) : (deriveGeometry c).numSets = 2 ^ (deriveGeometry c).indexBits := by
  change numSetsOf c = 2 ^ Nat.log2 (numSetsOf c)
  cases hp : c.policy with
  | dm => simpa only [numSetsOf_dm hp] using h.dm_numLines_pow hp
  | w4 => simpa only [numSetsOf_w4 hp] using h.w4_numSets_pow hp

/-- Under W4 the sets of four ways use every line (R11). -/
theorem four_mul_numSets (h : LegalRecord c) (hp : c.policy = .w4) :
    4 * (deriveGeometry c).numSets = c.numLines.toNat := by
  have hmod := h.w4_numLines_mod_four hp
  have hsets : (deriveGeometry c).numSets = c.numLines.toNat / 4 := numSetsOf_w4 hp
  omega

/-- The three fields of an address fill its 16 bits (R8, R11): the check of `tagBits` keeps its subtraction from truncating. -/
theorem bits_sum (h : LegalRecord c) :
    (deriveGeometry c).indexBits + (deriveGeometry c).tagBits + (deriveGeometry c).offsetBits = 16 := by
  have hle : (deriveGeometry c).offsetBits + (deriveGeometry c).indexBits ≤ 16 := h.bits_le
  have htag : (deriveGeometry c).tagBits = 16 - (deriveGeometry c).indexBits - (deriveGeometry c).offsetBits := rfl
  omega

end LegalRecord

/-- Settles O9, from the twelve checks that a legal configuration passes. -/
theorem legalGeometryFillsTheAddressWidth : Obligations.LegalGeometryFillsTheAddressWidth := by
  intro c hc
  have h : LegalRecord c := (legality_eq_none_iff c).mp hc
  exact ⟨h.lineSize_eq, h.numSets_eq, numSetsOf_dm, h.four_mul_numSets, h.bits_sum, h.two_le_offsetBits⟩

end Sys2Proof.Machine
end

