-- ==== Sys2Proof/Proofs/Ages.lean ====
section
/-! The ages of a set as a permutation, and what a touch keeps of their order (43_fourway_lru.md R184; 10_state.md R44 item 1). -/

namespace Sys2Proof.Machine

/-- Four 2-bit ages are a permutation of {0, 1, 2, 3} exactly when no two ways have the same age. -/
theorem permutedAges_iff_injective (f : Four (BitVec 2)) : permutedAges f ↔ Function.Injective f.get := by
  have hlist : [f.w0, f.w1, f.w2, f.w3] = List.ofFn f.get := rfl
  rw [permutedAges, hlist, ← List.nodup_ofFn]
  constructor
  · intro h
    exact h.nodup_iff.2 (by decide)
  · intro h
    have hall : ∀ a : BitVec 2, a ∈ [0, 1, 2, 3] := by decide
    exact (List.subperm_of_subset h fun a _ => hall a).perm_of_length_le (by simp)

/-- The ages after `touch(s, w)` as numbers: no age wraps, since only ages below another one grow (R184). -/
theorem touchAges_get_toNat (f : Four (BitVec 2)) (w x : Fin 4) :
    ((touchAges f w).get x).toNat =
      if x = w then 0 else if (f.get x).toNat < (f.get w).toNat then (f.get x).toNat + 1 else (f.get x).toNat := by
  have hw := (f.get w).isLt
  rw [touchAges_get]
  simp only [BitVec.lt_def]
  split_ifs with hx hlt
  · rfl
  · exact BitVec.toNat_add_of_lt (show (f.get x).toNat + 1 < 2 ^ 2 by omega)
  · rfl

/-- Under a permutation, two ways have the same age only if they are one way. -/
theorem age_ne_of_ne {f : Four (BitVec 2)} (hf : permutedAges f) {x y : Fin 4} (h : x ≠ y) :
    (f.get x).toNat ≠ (f.get y).toNat :=
  fun he => h ((permutedAges_iff_injective f).1 hf (BitVec.eq_of_toNat_eq he))

/-- A touch keeps the order of the ways other than the touched one (R184). -/
theorem touchAges_lt_iff {f : Four (BitVec 2)} (hf : permutedAges f) {w x y : Fin 4} (hx : x ≠ w) (hy : y ≠ w) :
    (touchAges f w).get x < (touchAges f w).get y ↔ f.get x < f.get y := by
  have hxw := age_ne_of_ne hf hx
  have hyw := age_ne_of_ne hf hy
  simp only [BitVec.lt_def, touchAges_get_toNat, if_neg hx, if_neg hy]
  split_ifs <;> omega

/-- The touched way becomes the most recent one (R184). -/
theorem touchAges_self_lt {f : Four (BitVec 2)} (hf : permutedAges f) {w x : Fin 4} (h : x ≠ w) :
    (touchAges f w).get w < (touchAges f w).get x := by
  have hxw := age_ne_of_ne hf h
  simp only [BitVec.lt_def, touchAges_get_toNat, if_neg h, if_pos]
  split_ifs <;> omega

/-- A touch keeps the permutation (R184). -/
theorem permutedAges_touchAges {f : Four (BitVec 2)} (hf : permutedAges f) (w : Fin 4) : permutedAges (touchAges f w) := by
  rw [permutedAges_iff_injective]
  intro x y he
  by_contra hxy
  rcases eq_or_ne x w with rfl | hx
  · exact BitVec.ne_of_lt (touchAges_self_lt hf (Ne.symm hxy)) he
  · rcases eq_or_ne y w with rfl | hy
    · exact BitVec.ne_of_lt (touchAges_self_lt hf hxy) he.symm
    · rcases Nat.lt_or_gt_of_ne (age_ne_of_ne hf hxy) with hlt | hgt
      · exact BitVec.ne_of_lt ((touchAges_lt_iff hf hx hy).2 hlt) he
      · exact BitVec.ne_of_lt ((touchAges_lt_iff hf hy hx).2 hgt) he.symm

end Sys2Proof.Machine
end

