-- ==== Sys2Proof/Proofs/Blocks.lean ====
section
/-! The block of an address as numbers (40_address_decoder.md R121, R125; 41_cache_common.md R144), and the bytes that a block fill
reads and a word's write-through writes (R145, R148). -/

namespace Sys2Proof.Machine

/-- A quotient and a remainder below the divisor are determined by the number they make up. -/
theorem mul_add_inj {d m m' r r' : Nat} (hr : r < d) (hr' : r' < d) (h : m * d + r = m' * d + r') : m = m' ∧ r = r' := by
  have hquot : ∀ n x : Nat, x < d → (n * d + x) / d = n := fun n x hx => by
    rw [Nat.mul_comm, Nat.mul_add_div (Nat.zero_lt_of_lt hx), Nat.div_eq_of_lt hx, Nat.add_zero]
  have hm : m = m' := by rw [← hquot m r hr, h, hquot m' r' hr']
  subst hm
  exact ⟨rfl, Nat.add_left_cancel h⟩

namespace LegalRecord

variable {c : RunConfig}

/-- The offset and the index together fit the address (R312). -/
theorem bits_le_sixteen (h : LegalRecord c) : (deriveGeometry c).offsetBits + (deriveGeometry c).indexBits ≤ 16 :=
  h.bits_le

/-- A line divides every power of two that is at least the memory's size (R11). -/
theorem lineSize_dvd_two_pow (h : LegalRecord c) {n : Nat} (hn : 16 ≤ n) : c.lineSize.toNat ∣ 2 ^ n := by
  have hbits := h.bits_le_sixteen
  rw [h.lineSize_eq]
  exact Nat.pow_dvd_pow 2 (by omega)

/-- `blockBase` rounds an address down to a multiple of the line size (R144). -/
theorem blockBase_toNat (h : LegalRecord c) (a : Addr) :
    (blockBase c a).toNat = a.toNat / c.lineSize.toNat * c.lineSize.toNat := by
  have hone : 1 ≤ c.lineSize.toNat := Nat.one_le_iff_ne_zero.2 h.lineSize_ne_zero
  have hmask : (c.lineSize - 1).toNat = 2 ^ (deriveGeometry c).offsetBits - 1 := by
    rw [← h.lineSize_eq]
    exact BitVec.toNat_sub_of_le hone
  have hshift : blockBase c a = (a >>> (deriveGeometry c).offsetBits) <<< (deriveGeometry c).offsetBits := by
    refine BitVec.eq_of_getLsbD_eq fun j hj => ?_
    have hbit : (c.lineSize - 1).getLsbD j = decide (j < (deriveGeometry c).offsetBits) := by
      rw [BitVec.getLsbD, hmask, Nat.testBit_two_pow_sub_one]
    simp only [blockBase, BitVec.getLsbD_and, BitVec.getLsbD_not, hbit, BitVec.getLsbD_shiftLeft, BitVec.getLsbD_ushiftRight]
    by_cases hlow : j < (deriveGeometry c).offsetBits
    · simp [hlow]
    · simp [hlow, hj, Nat.add_sub_cancel' (Nat.le_of_not_lt hlow)]
  rw [hshift, BitVec.toNat_shiftLeft, BitVec.toNat_ushiftRight, Nat.shiftLeft_eq, Nat.shiftRight_eq_div_pow, ← h.lineSize_eq]
  exact Nat.mod_eq_of_lt (lt_of_le_of_lt (Nat.div_mul_le_self _ _) a.isLt)

/-- The offset of an address is what `blockBase` takes off (R121, R144). -/
theorem blockBase_add_offset (h : LegalRecord c) (a : Addr) :
    (blockBase c a).toNat + (decodeAddress (deriveGeometry c) a).offset.toNat = a.toNat := by
  have hbits := h.bits_le_sixteen
  rw [h.blockBase_toNat, decodeAddress_offset_toNat _ _ (by omega), ← h.lineSize_eq]
  exact Nat.div_add_mod' _ _

/-- A block that starts below `2^n` ends there at the latest, when the line divides it (R145: no block straddles the end of
memory, and no address wraps). -/
theorem blockBase_add_lineSize_le (h : LegalRecord c) {a : Addr} {n : Nat} (hn : 16 ≤ n)
    (ha : (blockBase c a).toNat < 2 ^ n) : (blockBase c a).toNat + c.lineSize.toNat ≤ 2 ^ n := by
  have hdvd : c.lineSize.toNat ∣ 2 ^ n - (blockBase c a).toNat :=
    Nat.dvd_sub (h.lineSize_dvd_two_pow hn) (h.blockBase_toNat a ▸ Nat.dvd_mul_left _ _)
  have hle := Nat.le_of_dvd (by omega) hdvd
  omega

/-- The index of an address is one of the sets (R124). -/
theorem decodeAddress_index_lt (h : LegalRecord c) (a : Addr) :
    (decodeAddress (deriveGeometry c) a).index.toNat < (deriveGeometry c).numSets := by
  have hbits := h.bits_le_sixteen
  rw [h.numSets_eq, decodeAddress_index_toNat _ _ (by omega)]
  exact Nat.mod_lt _ (Nat.two_pow_pos _)

/-- The tag of an address has `32 − offsetBits − indexBits` bits (R124). -/
theorem decodeAddress_tag_lt (h : LegalRecord c) (a : Addr) :
    (decodeAddress (deriveGeometry c) a).tag.toNat
      < 2 ^ (32 - (deriveGeometry c).offsetBits - (deriveGeometry c).indexBits) := by
  have hbits := h.bits_le_sixteen
  rw [Nat.sub_sub]
  exact BitVec.toNat_ushiftRight_lt a _ (by omega)

/-- A block's address from its tag and index: the bits do not overlap (10_state.md R44 item 8). -/
theorem blockAddress_toNat (h : LegalRecord c) {tag : BitVec 32} {index : Nat}
    (htag : tag.toNat < 2 ^ (32 - (deriveGeometry c).offsetBits - (deriveGeometry c).indexBits))
    (hindex : index < (deriveGeometry c).numSets) :
    (blockAddress (deriveGeometry c) tag index).toNat
      = (tag.toNat * (deriveGeometry c).numSets + index) * c.lineSize.toNat := by
  have hbits := h.bits_le_sixteen
  have hsets := h.numSets_eq
  have hline := h.lineSize_eq
  set o := (deriveGeometry c).offsetBits with ho
  set i := (deriveGeometry c).indexBits with hi
  have hsplit : (2 : Nat) ^ 32 = 2 ^ (32 - o - i) * 2 ^ i * 2 ^ o := by
    rw [← pow_add, ← pow_add]
    congr 1
    omega
  have hlow : index * 2 ^ o < 2 ^ (o + i) := by
    rw [pow_add, Nat.mul_comm]
    exact Nat.mul_lt_mul_of_pos_left (hsets ▸ hindex) (Nat.two_pow_pos o)
  have hhigh : tag.toNat * 2 ^ (o + i) < 2 ^ 32 := by
    rw [hsplit, Nat.mul_assoc, ← pow_add, Nat.add_comm i o]
    exact Nat.mul_lt_mul_of_pos_right htag (Nat.two_pow_pos _)
  have hle : 2 ^ (o + i) ≤ 2 ^ 32 := Nat.pow_le_pow_right (by omega) (by omega)
  have hi32 : index < 2 ^ 32 := lt_of_le_of_lt (Nat.le_mul_of_pos_right _ (Nat.two_pow_pos o)) (lt_of_lt_of_le hlow hle)
  rw [blockAddress, BitVec.toNat_or, BitVec.toNat_shiftLeft, BitVec.toNat_shiftLeft, BitVec.toNat_ofNat,
    Nat.mod_eq_of_lt hi32, Nat.shiftLeft_eq, Nat.shiftLeft_eq, Nat.mod_eq_of_lt hhigh,
    Nat.mod_eq_of_lt (lt_of_lt_of_le hlow hle), Nat.mul_comm tag.toNat, ← Nat.two_pow_add_eq_or_of_lt hlow, hsets, hline]
  ring

/-- The block of an address starts at its tag and index (R125). -/
theorem blockAddress_decodeAddress (h : LegalRecord c) (a : Addr) :
    blockAddress (deriveGeometry c) (decodeAddress (deriveGeometry c) a).tag
      (decodeAddress (deriveGeometry c) a).index.toNat = blockBase c a := by
  have hbits := h.bits_le_sixteen
  apply BitVec.eq_of_toNat_eq
  rw [h.blockAddress_toNat (h.decodeAddress_tag_lt a) (h.decodeAddress_index_lt a), h.blockBase_toNat,
    decodeAddress_tag_toNat, decodeAddress_index_toNat _ _ (by omega), pow_add, ← Nat.div_div_eq_div_mul, h.numSets_eq,
    h.lineSize_eq, Nat.div_add_mod']

/-- Blocks with different tags or indices share no byte: a common byte makes tag and index the same. -/
theorem tag_index_eq_of_blockAddress_eq (h : LegalRecord c) {tag tag' : BitVec 32} {index index' : Nat}
    (htag : tag.toNat < 2 ^ (32 - (deriveGeometry c).offsetBits - (deriveGeometry c).indexBits))
    (htag' : tag'.toNat < 2 ^ (32 - (deriveGeometry c).offsetBits - (deriveGeometry c).indexBits))
    (hindex : index < (deriveGeometry c).numSets) (hindex' : index' < (deriveGeometry c).numSets)
    {j k : Nat} (hj : j < c.lineSize.toNat) (hk : k < c.lineSize.toNat)
    (he : (blockAddress (deriveGeometry c) tag index).toNat + j = (blockAddress (deriveGeometry c) tag' index').toNat + k) :
    tag = tag' ∧ index = index' := by
  rw [h.blockAddress_toNat htag hindex, h.blockAddress_toNat htag' hindex'] at he
  obtain ⟨hblock, -⟩ := mul_add_inj hj hk he
  obtain ⟨ht, hi⟩ := mul_add_inj hindex hindex' hblock
  exact ⟨BitVec.eq_of_toNat_eq ht, hi⟩

end LegalRecord

/-- A block fill in range holds memory's bytes of the block (R145). -/
theorem byteAt_fill {s : State} (a : Addr) (h : (blockBase s.cfg a).toNat + s.cfg.lineSize.toNat ≤ Config.memSize) {k : Nat}
    (hk : k < s.cfg.lineSize.toNat) :
    byteAt (fill a s).1 k = Memory.read s.mem ((blockBase s.cfg a).toNat + k) := by
  rw [fill, readBytes_inRange _ _ _ h]
  simp [byteAt, hk]

/-- Every byte of memory after a write-through in range (R148). -/
theorem read_writeThrough {s : State} (hm : Memory.wf s.mem = true) {a : Addr} (h : a.toNat + 4 ≤ Config.memSize) (w : Word)
    (b : Nat) :
    Memory.read (writeThrough a w s).mem b =
      if b = a.toNat then (disassemble w).w0 else if b = a.toNat + 1 then (disassemble w).w1
      else if b = a.toNat + 2 then (disassemble w).w2 else if b = a.toNat + 3 then (disassemble w).w3
      else Memory.read s.mem b := by
  have h0 := Memory.wf_write s.mem a.toNat (disassemble w).w0 hm (by omega)
  have h1 := Memory.wf_write _ (a.toNat + 1) (disassemble w).w1 h0 (by omega)
  have h2 := Memory.wf_write _ (a.toNat + 2) (disassemble w).w2 h1 (by omega)
  rw [writeThrough_inRange a w s h]
  simp only [Memory.read_write _ _ _ _ hm, Memory.read_write _ _ _ _ h0, Memory.read_write _ _ _ _ h1,
    Memory.read_write _ _ _ _ h2]
  grind

end Sys2Proof.Machine
end

