-- ==== Sys2Proof/Proofs/Storage.lean ====
section
/-! The part of the invariant about the cache and memory (10_state.md R26 to R29, R44 items 1 to 3 and 8),
and what an access leaves of the cache. -/

namespace Sys2Proof.Machine

theorem Line.holds_iff (l : Line) (tag : BitVec 32) : l.holds tag = true ↔ l.valid = true ∧ l.tag = tag := by
  simp [Line.holds]

/-- A way of a set as a slot. -/
theorem slotLine_way_iff {s : State} {k : Nat} {w : Fin 4} {l : Line} :
    slotLine s (.way k w) = some l ↔ ∃ f, s.w4[k]? = some f ∧ f.get w = l := by
  simp [slotLine]

/-- What RESET computes and only RESET writes (10_state.md R42). -/
structure ConfigInv (s : State) : Prop where
  legal : LegalRecord s.cfg
  geometry : s.geom = deriveGeometry s.cfg
  cost : s.gateCount = BitVec.ofNat 64 (gateCountNat s.cfg s.geom)

/-- What `RunInv` says of the cache and memory, slot by slot. -/
structure StorageInv (s : State) : Prop where
  lineCount : s.dm.length = if s.cfg.policy = .dm then s.cfg.numLines.toNat else 0
  setCount : s.w4.length = if s.cfg.policy = .w4 then s.geom.numSets else 0
  ageCount : s.age.length = s.w4.length
  slotShape : ∀ p l, slotLine s p = some l →
    l.data.length = s.cfg.lineSize.toNat ∧ l.tag.toNat < 2 ^ (32 - s.geom.offsetBits - s.geom.indexBits)
  agesPermuted : ∀ (k : Nat) (ages : Four (BitVec 2)), s.age[k]? = some ages → permutedAges ages
  tagsDistinct : ∀ (k : Nat) (w x : Fin 4) (l m : Line), slotLine s (.way k w) = some l → slotLine s (.way k x) = some m →
    l.valid = true → m.valid = true → l.tag = m.tag → w = x
  emptyOlder : ∀ (k : Nat) (w x : Fin 4) (l m : Line) (ages : Four (BitVec 2)), slotLine s (.way k w) = some l →
    slotLine s (.way k x) = some m → s.age[k]? = some ages → l.valid = false → m.valid = true → ages.get x < ages.get w
  slotsCoherent : ∀ p l, slotLine s p = some l → slotCoherent s p l

theorem RunInv.config {s : State} (h : RunInv s) : ConfigInv s :=
  ⟨(legality_eq_none_iff s.cfg).1 h.legalConfig, h.geometryDerived, h.costComputed⟩

theorem RunInv.storage {s : State} (h : RunInv s) : StorageInv s where
  lineCount := h.lineCount
  setCount := h.setCount
  ageCount := h.ageCount
  slotShape := h.slotShape
  agesPermuted k ages hk := h.agesPermuted ages (List.mem_of_getElem? hk)
  tagsDistinct k w x l m hl hm := by
    obtain ⟨f, hf, rfl⟩ := slotLine_way_iff.1 hl
    obtain ⟨g, hg, rfl⟩ := slotLine_way_iff.1 hm
    obtain rfl : f = g := Option.some.inj (hf.symm.trans hg)
    exact h.tagsDistinct f (List.mem_of_getElem? hf) w x
  emptyOlder k w x l m ages hl hm ha := by
    obtain ⟨f, hf, rfl⟩ := slotLine_way_iff.1 hl
    obtain ⟨g, hg, rfl⟩ := slotLine_way_iff.1 hm
    obtain rfl : f = g := Option.some.inj (hf.symm.trans hg)
    exact h.emptyOlder k f ages hf ha w x
  slotsCoherent := h.slotsCoherent

/-- The storage's part depends on these six fields alone. -/
theorem StorageInv.congr {s t : State} (h : StorageInv s) (hcfg : t.cfg = s.cfg) (hgeom : t.geom = s.geom) (hdm : t.dm = s.dm)
    (hw4 : t.w4 = s.w4) (hage : t.age = s.age) (hmem : t.mem = s.mem) : StorageInv t := by
  cases s
  cases t
  dsimp only at *
  subst hcfg hgeom hdm hw4 hage hmem
  exact { h with }

section slots

variable {s : State} (hc : ConfigInv s) (hs : StorageInv s)

include hs in
/-- Lines stand in a direct-mapped cache (R26). -/
theorem StorageInv.policy_of_line {k : Nat} {l : Line} (h : slotLine s (.line k) = some l) : s.cfg.policy = .dm := by
  have hk : k < s.dm.length := (List.getElem?_eq_some_iff.1 h).1
  rw [hs.lineCount] at hk
  by_contra hp
  simp [hp] at hk

include hs in
/-- Ways stand in a four-way cache (R27). -/
theorem StorageInv.policy_of_way {k : Nat} {w : Fin 4} {l : Line} (h : slotLine s (.way k w) = some l) :
    s.cfg.policy = .w4 := by
  obtain ⟨f, hf, -⟩ := slotLine_way_iff.1 h
  have hk : k < s.w4.length := (List.getElem?_eq_some_iff.1 hf).1
  rw [hs.setCount] at hk
  by_contra hp
  simp [hp] at hk

include hc hs in
/-- A slot's index is a line or a set number of the geometry (R26, R27). -/
theorem StorageInv.slot_index_lt {p : Slot} {l : Line} (h : slotLine s p = some l) :
    p.index < (deriveGeometry s.cfg).numSets := by
  cases p with
  | line k =>
    have hp := hs.policy_of_line h
    have hk : k < s.dm.length := (List.getElem?_eq_some_iff.1 h).1
    rw [hs.lineCount, if_pos hp, ← numSetsOf_dm hp] at hk
    exact hk
  | way k w =>
    have hp := hs.policy_of_way h
    obtain ⟨f, hf, -⟩ := slotLine_way_iff.1 h
    have hk : k < s.w4.length := (List.getElem?_eq_some_iff.1 hf).1
    rw [hs.setCount, if_pos hp, hc.geometry] at hk
    exact hk

include hs in
/-- Only the slot that a lookup answers can hold the block it looks for (42_direct_mapped.md R161, 43_fourway_lru.md R182). -/
theorem StorageInv.eq_of_lookup_of_holds {d : Decoded} {p q : Slot} {l m : Line} {hit : Bool}
    (hl : lookup s d = some (p, l, hit)) (hq : slotLine s q = some m) (hi : q.index = d.index.toNat)
    (hm : m.holds d.tag = true) : q = p := by
  obtain ⟨hp, -, -, hhit, hdm, hw4⟩ := lookup_some hl
  cases q with
  | line k => rw [hdm (hs.policy_of_line hq), ← hi]; rfl
  | way k x =>
    obtain ⟨f, ages, w, rfl, hf, -, -, hmiss⟩ := hw4 (hs.policy_of_way hq)
    obtain rfl : k = d.index.toNat := hi
    obtain ⟨g, hg, rfl⟩ := slotLine_way_iff.1 hq
    obtain rfl : f = g := Option.some.inj (hf.symm.trans hg)
    cases hit with
    | false => simp [(hmiss rfl).2 x] at hm
    | true =>
      obtain ⟨hmv, hmt⟩ := (Line.holds_iff _ _).1 hm
      obtain ⟨hlv, hlt⟩ := (Line.holds_iff _ _).1 hhit
      rw [hs.tagsDistinct _ x w _ l hq hp hmv hlv (hmt.trans hlt.symm)]

end slots

/-! ## An access -/

/-- What an access leaves of the storage: the looked-up slot holds the block, the other slots stay, the set's ages are touched. -/
structure SlotWritten (s t : State) (d : Decoded) (p : Slot) (l m : Line) (hit : Bool) : Prop where
  cfg : t.cfg = s.cfg
  geom : t.geom = s.geom
  lineCount : t.dm.length = s.dm.length
  setCount : t.w4.length = s.w4.length
  found : lookup s d = some (p, l, hit)
  valid : m.valid = true
  tag : m.tag = d.tag
  length : m.data.length = s.cfg.lineSize.toNat
  slots : ∀ q, slotLine t q = if q = p then some m else slotLine s q
  ages : t.age = (touch p s).age

/-- Replacing a slot leaves the storage's size. -/
@[simp] theorem putLine_lengths (p : Slot) (l : Line) (s : State) :
    (putLine p l s).dm.length = s.dm.length ∧ (putLine p l s).w4.length = s.w4.length := by
  cases p <;> simp

theorem access_lengths {req : Request} {s t : State} {word : Word} {hit : Bool} (h : access req s = .done word hit t) :
    t.dm.length = s.dm.length ∧ t.w4.length = s.w4.length := by
  obtain ⟨-, p, l, -, hw, hr⟩ := access_done h
  cases hi : req.isWrite with
  | true =>
    obtain ⟨-, rfl⟩ := hw hi
    simp
  | false =>
    obtain ⟨-, rfl⟩ := hr hi
    simp

/-- The line an access leaves in its slot: the looked-up or filled one, with a write's word stored into it (R141). -/
def accessedLine (req : Request) (s : State) (l : Line) (hit : Bool) : Line :=
  let f := (filledLine req.address (decodeAddress s.geom req.address).tag l hit s).1
  if req.isWrite then { f with data := storeWord f.data (decodeAddress s.geom req.address).offset.toNat req.data } else f

theorem access_slotWritten {req : Request} {s t : State} {word : Word} {hit : Bool} (h : access req s = .done word hit t) :
    ∃ p l, SlotWritten s t (decodeAddress s.geom req.address) p l (accessedLine req s l hit) hit := by
  obtain ⟨-, hcfg, hgeom, -⟩ := access_frame h
  obtain ⟨hdm, hw4⟩ := access_lengths h
  obtain ⟨p, l, f, hl, rfl, hv, ht, hlen, hslots, hage⟩ := access_slots h
  refine ⟨p, l, hcfg, hgeom, hdm, hw4, hl, ?_, ?_, ?_, hslots, hage⟩ <;>
    unfold accessedLine <;> cases req.isWrite <;> simpa

section written

variable {s t : State} {d : Decoded} {p : Slot} {l m : Line} {hit : Bool} (h : SlotWritten s t d p l m hit) (hs : StorageInv s)
include h

theorem SlotWritten.slots_self : slotLine t p = some m := by rw [h.slots, if_pos rfl]

theorem SlotWritten.slots_ne {q : Slot} (hq : q ≠ p) : slotLine t q = slotLine s q := by rw [h.slots, if_neg hq]

/-- A line of the new state is the written one or an old one in another slot. -/
theorem SlotWritten.cases {q : Slot} {x : Line} (hx : slotLine t q = some x) :
    (q = p ∧ x = m) ∨ (q ≠ p ∧ slotLine s q = some x) := by
  by_cases hq : q = p
  · subst hq
    exact .inl ⟨rfl, Option.some.inj (hx.symm.trans h.slots_self)⟩
  · exact .inr ⟨hq, h.slots_ne hq ▸ hx⟩

/-- The ages of a set of the new state: the written way's set is touched. -/
theorem SlotWritten.age_cases {k : Nat} {ages : Four (BitVec 2)} (ha : t.age[k]? = some ages) :
    ((∀ w, p ≠ .way k w) ∧ s.age[k]? = some ages) ∨
      ∃ w old, p = .way k w ∧ s.age[k]? = some old ∧ ages = touchAges old w := by
  rw [h.ages] at ha
  cases p with
  | line i => exact .inl ⟨fun w hw => Slot.noConfusion hw, ha⟩
  | way j w =>
    rw [touch_way_age, List.getElem?_modify] at ha
    by_cases hj : j = k
    · subst hj
      simp only [if_pos, Option.map_eq_map, Option.map_eq_some_iff] at ha
      obtain ⟨old, hold, rfl⟩ := ha
      exact .inr ⟨w, old, rfl, hold, rfl⟩
    · simp only [if_neg hj, Option.map_eq_map, Option.map_id'] at ha
      exact .inl ⟨fun x hx => hj (Slot.way.inj hx).1, ha⟩

include hs

theorem SlotWritten.agesPermuted {k : Nat} {ages : Four (BitVec 2)} (ha : t.age[k]? = some ages) : permutedAges ages := by
  rcases h.age_cases ha with ⟨-, hold⟩ | ⟨w, old, -, hold, rfl⟩
  · exact hs.agesPermuted k ages hold
  · exact permutedAges_touchAges (hs.agesPermuted k old hold) w

/-- A fill happens only on a miss, so the written tag is in no other VALID way of its set (10_state.md R44 item 2). -/
theorem SlotWritten.tag_ne {q : Slot} {x : Line} (hq : q ≠ p) (hx : slotLine t q = some x) (hi : q.index = p.index)
    (hv : x.valid = true) : x.tag ≠ d.tag := by
  intro htag
  obtain ⟨-, -, hpi, -⟩ := lookup_some h.found
  exact hq (hs.eq_of_lookup_of_holds h.found (h.slots_ne hq ▸ hx) (hi.trans hpi) ((Line.holds_iff _ _).2 ⟨hv, htag⟩))

theorem SlotWritten.tagsDistinct {k : Nat} {w x : Fin 4} {a b : Line} (ha : slotLine t (.way k w) = some a)
    (hb : slotLine t (.way k x) = some b) (hav : a.valid = true) (hbv : b.valid = true) (htag : a.tag = b.tag) : w = x := by
  rcases h.cases ha with ⟨rfl, rfl⟩ | ⟨hw, ha'⟩ <;> rcases h.cases hb with ⟨hx, rfl⟩ | ⟨hx, hb'⟩
  · exact (Slot.way.inj hx).2.symm
  · exact absurd (htag.symm.trans h.tag) (h.tag_ne hs hx hb rfl hbv)
  · subst hx
    exact absurd (htag.trans h.tag) (h.tag_ne hs hw ha rfl hav)
  · exact hs.tagsDistinct k w x a b ha' hb' hav hbv htag

theorem SlotWritten.emptyOlder {k : Nat} {w x : Fin 4} {a b : Line} {ages : Four (BitVec 2)}
    (ha : slotLine t (.way k w) = some a) (hb : slotLine t (.way k x) = some b) (hages : t.age[k]? = some ages)
    (hav : a.valid = false) (hbv : b.valid = true) : ages.get x < ages.get w := by
  obtain ⟨hw, ha'⟩ : .way k w ≠ p ∧ slotLine s (.way k w) = some a :=
    (h.cases ha).resolve_left fun ⟨_, hm⟩ => by simp [hm, h.valid] at hav
  rcases h.age_cases hages with ⟨hset, hold⟩ | ⟨v, old, rfl, hold, rfl⟩
  · have hb' : slotLine s (.way k x) = some b := h.slots_ne (hset x).symm ▸ hb
    exact hs.emptyOlder k w x a b ages ha' hb' hold hav hbv
  · have hperm := hs.agesPermuted k old hold
    have hwv : w ≠ v := fun he => hw (he ▸ rfl)
    rcases h.cases hb with ⟨hx, -⟩ | ⟨hx, hb'⟩
    · obtain rfl : x = v := (Slot.way.inj hx).2
      exact touchAges_self_lt hperm hwv
    · have hxv : x ≠ v := fun he => hx (he ▸ rfl)
      exact (touchAges_lt_iff hperm hxv hwv).2 (hs.emptyOlder k w x a b old ha' hb' hold hav hbv)

end written

end Sys2Proof.Machine
end

