-- ==== Sys2Proof/Proofs/Access.lean ====
section
/-! An access keeps the part of the invariant about the cache and memory (41_cache_common.md R141, R145, R148; 10_state.md R44 items
1 to 3 and 8). -/

namespace Sys2Proof.Machine

/-- `MemWrite` on memory alone (20_memory.md R63). -/
theorem memWrite_mem (a : Addr) (v : Byte) (s : State) :
    (memWrite a v s).mem = if inRange a then Memory.write s.mem a.toNat v else s.mem := by
  unfold memWrite
  split <;> simp

/-- What a write-through makes of memory depends on memory alone. -/
theorem writeThrough_mem_congr {s t : State} (h : t.mem = s.mem) (a : Addr) (w : Word) :
    (writeThrough a w t).mem = (writeThrough a w s).mem := by
  simp only [writeThrough, memWrite_mem, h]

/-- Memory after an access: a write is written through (41_cache_common.md R148). -/
theorem access_mem {req : Request} {s t : State} {word : Word} {hit : Bool} (h : access req s = .done word hit t) :
    t.mem = if req.isWrite then (writeThrough req.address req.data s).mem else s.mem := by
  obtain ⟨-, p, l, -, hw, -⟩ := access_done h
  cases hi : req.isWrite with
  | true =>
    obtain ⟨-, rfl⟩ := hw hi
    exact writeThrough_mem_congr (by simp) _ _
  | false => exact access_read_mem h hi

/-- An access keeps memory in canonical form. -/
theorem access_mem_wf {req : Request} {s t : State} {word : Word} {hit : Bool} (h : access req s = .done word hit t)
    (hm : Memory.wf s.mem = true) : Memory.wf t.mem = true := by
  rw [access_mem h]
  split
  · exact writeThrough_wf _ _ _ hm
  · exact hm

/-- A word that stays in its line lies in its block (20_memory.md R70). -/
theorem offset_add_four_le {c : RunConfig} {g : Geometry} {a : Addr} (h : crossesLine c g a = false) :
    (decodeAddress g a).offset.toNat + 4 ≤ c.lineSize.toNat := by
  simpa [crossesLine] using h

/-- A VALID slot other than the accessed one holds another block, which shares no byte with the accessed one. -/
theorem SlotWritten.other_block_disjoint {s t : State} {a : Addr} {p q : Slot} {l m x : Line} {hit : Bool}
    (h : SlotWritten s t (decodeAddress s.geom a) p l m hit) (hc : ConfigInv s) (hs : StorageInv s) (hq : q ≠ p)
    (hx : slotLine s q = some x) (hv : x.valid = true) {k : Nat} (hk : k < s.cfg.lineSize.toNat) :
    (blockAddress s.geom x.tag q.index).toNat + k < (blockBase s.cfg a).toNat ∨
      (blockBase s.cfg a).toNat + s.cfg.lineSize.toNat ≤ (blockAddress s.geom x.tag q.index).toNat + k := by
  by_contra hin
  obtain ⟨j, hj, he⟩ : ∃ j < s.cfg.lineSize.toNat,
      (blockAddress s.geom x.tag q.index).toNat + k = (blockBase s.cfg a).toNat + j :=
    ⟨(blockAddress s.geom x.tag q.index).toNat + k - (blockBase s.cfg a).toNat, by omega, by omega⟩
  have htag := (hs.slotShape q x hx).2
  rw [hc.geometry] at he htag
  rw [← hc.legal.blockAddress_decodeAddress] at he
  obtain ⟨ht, hi⟩ := hc.legal.tag_index_eq_of_blockAddress_eq htag (hc.legal.decodeAddress_tag_lt _)
    (hs.slot_index_lt hc hx) (hc.legal.decodeAddress_index_lt _) hk hj he
  rw [← hc.geometry] at ht hi
  obtain ⟨-, -, hpi, -⟩ := lookup_some h.found
  exact h.tag_ne hs hq (h.slots_ne hq ▸ hx) (hi.trans hpi.symm) hv ht

section block

variable {req : Request} {s t : State} {word : Word} {hit : Bool} (hc : ConfigInv s) (hm : Memory.wf s.mem = true)
  (h : access req s = .done word hit t)
include hc hm h

/-- An access leaves memory outside the block of its address. -/
theorem read_access_outside {b : Nat}
    (hb : b < (blockBase s.cfg req.address).toNat ∨ (blockBase s.cfg req.address).toNat + s.cfg.lineSize.toNat ≤ b) :
    Memory.read t.mem b = Memory.read s.mem b := by
  have hoff := offset_add_four_le (access_done h).1
  have hbase := hc.legal.blockBase_add_offset req.address
  rw [← hc.geometry] at hbase
  rw [access_mem h]
  split
  · by_cases hr : (blockBase s.cfg req.address).toNat < Config.memSize
    · have hend := hc.legal.blockBase_add_lineSize_le (n := 16) (by decide) hr
      rw [read_writeThrough hm (show req.address.toNat + 4 ≤ 2 ^ 16 by omega), if_neg (by omega), if_neg (by omega),
        if_neg (by omega), if_neg (by omega)]
    · have hend := hc.legal.blockBase_add_lineSize_le (n := 32) (by decide) (blockBase s.cfg req.address).isLt
      rw [writeThrough_outOfRange _ _ _ (by omega) (by omega)]
  · rfl

/-- The line an access leaves holds memory's bytes of its block, when the block is in range (10_state.md R44 item 8). -/
theorem byteAt_accessedLine {l : Line} (hlen : l.data.length = s.cfg.lineSize.toNat)
    (hhit : hit = true → ∀ k, k < s.cfg.lineSize.toNat →
      byteAt l.data k = Memory.read s.mem ((blockBase s.cfg req.address).toNat + k))
    (hr : (blockBase s.cfg req.address).toNat < Config.memSize) {k : Nat} (hk : k < s.cfg.lineSize.toNat) :
    byteAt (accessedLine req s l hit).data k = Memory.read t.mem ((blockBase s.cfg req.address).toNat + k) := by
  have hend := hc.legal.blockBase_add_lineSize_le (n := 16) (by decide) hr
  have hfilled : byteAt (filledLine req.address (decodeAddress s.geom req.address).tag l hit s).1.data k
      = Memory.read s.mem ((blockBase s.cfg req.address).toNat + k) := by
    cases hit with
    | true => exact hhit rfl k hk
    | false => exact byteAt_fill req.address hend hk
  have hflen : (filledLine req.address (decodeAddress s.geom req.address).tag l hit s).1.data.length
      = s.cfg.lineSize.toNat := by
    cases hit with
    | true => exact hlen
    | false => exact fill_length _ _
  have hoff := offset_add_four_le (access_done h).1
  have hbase := hc.legal.blockBase_add_offset req.address
  rw [← hc.geometry] at hbase
  rw [access_mem h]
  cases hi : req.isWrite with
  | false => simpa only [accessedLine, hi, Bool.false_eq_true, if_false] using hfilled
  | true =>
    simp only [accessedLine, hi, if_true]
    rw [byteAt_storeWord _ _ _ _ (by omega), read_writeThrough hm (show req.address.toNat + 4 ≤ 2 ^ 16 by omega), hfilled,
      ← hbase]
    simp only [Nat.add_assoc, Nat.add_left_cancel_iff]

variable (hs : StorageInv s)
include hs

/-- Every cached in-range block is still memory's after an access (R44 item 8): the accessed slot takes part in the write, and no
other slot holds the accessed block. -/
theorem access_slotsCoherent {q : Slot} {x : Line} (hx : slotLine t q = some x) : slotCoherent t q x := by
  obtain ⟨p, l, hwr⟩ := access_slotWritten h
  obtain ⟨hp, hlen, hpi, hhit, -, -⟩ := lookup_some hwr.found
  have hblock : blockAddress s.geom (decodeAddress s.geom req.address).tag p.index = blockBase s.cfg req.address := by
    rw [hpi, hc.geometry]
    exact hc.legal.blockAddress_decodeAddress req.address
  intro hv hr k hk
  rw [hwr.cfg] at hk
  rw [hwr.geom] at hr ⊢
  rcases hwr.cases hx with ⟨rfl, rfl⟩ | ⟨hq, hx'⟩
  · rw [hwr.tag, hblock] at hr ⊢
    refine byteAt_accessedLine hc hm h hlen (fun ht j hj => ?_) hr hk
    obtain ⟨hlv, hlt⟩ := (Line.holds_iff _ _).1 (hhit.trans ht)
    have hcoh := hs.slotsCoherent q l hp hlv
    rw [hlt, hblock] at hcoh
    exact hcoh hr j hj
  · rw [hs.slotsCoherent q x hx' hv hr k hk]
    exact (read_access_outside hc hm h (hwr.other_block_disjoint hc hs hq hx' hv hk)).symm

/-- An access keeps the storage's part of the invariant. -/
theorem access_storage : StorageInv t := by
  obtain ⟨p, l, hwr⟩ := access_slotWritten h
  refine
    { lineCount := by rw [hwr.lineCount, hwr.cfg, hs.lineCount]
      setCount := by rw [hwr.setCount, hwr.cfg, hwr.geom, hs.setCount]
      ageCount := ?_
      slotShape := fun q x hx => ?_
      agesPermuted := fun k ages ha => hwr.agesPermuted hs ha
      tagsDistinct := fun k w x a b ha hb => hwr.tagsDistinct hs ha hb
      emptyOlder := fun k w x a b ages ha hb hages => hwr.emptyOlder hs ha hb hages
      slotsCoherent := fun q x hx => access_slotsCoherent hc hm h hs hx }
  · rw [hwr.setCount, hwr.ages, ← hs.ageCount]
    cases p <;> simp
  · rw [hwr.cfg, hwr.geom]
    rcases hwr.cases hx with ⟨-, rfl⟩ | ⟨-, hx'⟩
    · refine ⟨hwr.length, ?_⟩
      rw [hwr.tag, hc.geometry]
      exact hc.legal.decodeAddress_tag_lt req.address
    · exact hs.slotShape q x hx'

end block

end Sys2Proof.Machine
end

