-- ==== Sys2Proof/Proofs/ResetStorage.lean ====
section
/-! The cache after a successful RESET (10_state.md R43; 70_reset_and_hazards.md R313). -/

namespace Sys2Proof.Machine

/-- An EMPTY line after RESET has the shape of its configuration (10_state.md R26, R27, R43). -/
theorem emptyLine_shape {c : RunConfig} (h : LegalRecord c) (n j : Nat) :
    (emptyLine c n j).valid = false ∧ (emptyLine c n j).data.length = c.lineSize.toNat ∧
      (emptyLine c n j).tag.toNat < 2 ^ (32 - (deriveGeometry c).offsetBits - (deriveGeometry c).indexBits) := by
  have hbits := h.bits_le_sixteen
  refine ⟨rfl, by simp [emptyLine], ?_⟩
  rw [Nat.sub_sub]
  exact BitVec.toNat_ushiftRight_lt _ _ (by omega)

/-- Every slot is EMPTY after a successful RESET (R43). -/
theorem slotLine_startRun {c : RunConfig} {s : State} {p : Slot} {l : Line} (h : slotLine (startRun c s) p = some l) :
    ∃ j, l = emptyLine c s.draws j := by
  cases p with
  | line k =>
    simp only [slotLine, startRun, emptyLines] at h
    split at h
    · simp only [List.getElem?_map, Option.map_eq_some_iff] at h
      obtain ⟨j, -, rfl⟩ := h
      exact ⟨j, rfl⟩
    · simp at h
  | way k w =>
    obtain ⟨f, hf, rfl⟩ := slotLine_way_iff.1 h
    simp only [startRun, emptySets] at hf
    split at hf
    · simp at hf
    · simp only [List.getElem?_map, Option.map_eq_some_iff] at hf
      obtain ⟨j, -, rfl⟩ := hf
      fin_cases w <;> exact ⟨_, rfl⟩

/-- A successful RESET establishes the storage's part of the invariant: the shapes are the configuration's, the ages of every set
are 3, 2, 1, 0, and what is said of VALID slots holds of none. -/
theorem startRun_storage {c : RunConfig} (h : LegalRecord c) (s : State) : StorageInv (startRun c s) := by
  have hshape : ∀ p l, slotLine (startRun c s) p = some l → l.valid = false ∧ l.data.length = c.lineSize.toNat ∧
      l.tag.toNat < 2 ^ (32 - (deriveGeometry c).offsetBits - (deriveGeometry c).indexBits) := fun p l hl => by
    obtain ⟨j, rfl⟩ := slotLine_startRun hl
    exact emptyLine_shape h s.draws j
  have hempty : ∀ {p l}, slotLine (startRun c s) p = some l → l.valid ≠ true := fun {p l} hl => by
    simp [(hshape p l hl).1]
  refine
    { lineCount := ?_
      setCount := ?_
      ageCount := ?_
      slotShape := fun p l hl => (hshape p l hl).2
      agesPermuted := fun k ages ha => ?_
      tagsDistinct := fun k w x l m hl _ hlv => absurd hlv (hempty hl)
      emptyOlder := fun k w x l m ages _ hm _ _ hmv => absurd hmv (hempty hm)
      slotsCoherent := fun p l hl hlv => absurd hlv (hempty hl) }
  · cases hp : c.policy <;> simp [startRun, emptyLines, hp]
  · cases hp : c.policy <;> simp [startRun, emptySets, deriveGeometry, hp]
  · cases hp : c.policy <;> simp [startRun, emptySets, initialAges, hp]
  · have hmem : ages ∈ initialAges c := List.mem_of_getElem? ha
    cases hp : c.policy with
    | dm => simp [initialAges, hp] at hmem
    | w4 =>
      simp only [initialAges, hp] at hmem
      obtain rfl := List.eq_of_mem_replicate hmem
      decide

end Sys2Proof.Machine
end

