-- ==== Sys2Proof/Proofs/RequestFrames.lean ====
section
/-! What a step of READ, WRITE, IDLE or CONTINUE never writes (10_state.md R29, R34 to R36, R38, R42), cycle kind by cycle kind
(44_timing_engine.md R213 to R216). -/

namespace Sys2Proof.Machine

/-- What no cycle writes (10_state.md R42). -/
theorem cycle_frame {i : StepIn} {s t : State} (h : cycle i s = .ok t) :
    t.configured = s.configured ∧ t.cfg = s.cfg ∧ t.geom = s.geom ∧ t.gateCount = s.gateCount ∧ t.inputs = s.inputs ∧
      t.halted = s.halted ∧ t.overflow = s.overflow ∧ t.fault = s.fault ∧ t.cycles = s.cycles := by
  rcases cycle_ok h with ⟨-, rfl⟩ | ⟨-, -, rfl⟩ | ⟨-, -, hacc⟩
  · rcases memoryWait_cases s with ⟨-, e⟩ | ⟨-, e⟩ <;> simp [e]
  · simp
  · obtain ⟨word, hit, u, hu, ⟨-, rfl⟩ | ⟨-, rfl⟩⟩ := accessCycle_ok hacc <;> simp [access_frame hu]

/-- A cycle leaves the cache and memory, or it is an access cycle that does what its access did (R42). -/
theorem cycle_storage_cases {i : StepIn} {s t : State} (h : cycle i s = .ok t) :
    (t.dm = s.dm ∧ t.w4 = s.w4 ∧ t.age = s.age ∧ t.mem = s.mem) ∨
      ∃ word hit u, access (requestOf i) (endCacheWait s) = .done word hit u ∧
        t.dm = u.dm ∧ t.w4 = u.w4 ∧ t.age = u.age ∧ t.mem = u.mem := by
  rcases cycle_ok h with ⟨-, rfl⟩ | ⟨-, -, rfl⟩ | ⟨-, -, hacc⟩
  · rcases memoryWait_cases s with ⟨-, e⟩ | ⟨-, e⟩ <;> simp [e]
  · simp
  · obtain ⟨word, hit, u, hu, ⟨-, rfl⟩ | ⟨-, rfl⟩⟩ := accessCycle_ok hacc <;> exact .inr ⟨word, hit, u, hu, by simp⟩

/-- A cycle writes `rdata` only where it finishes a read: at the end of the memory wait, or at a hit (R214 to R216). -/
theorem cycle_rdata {i : StepIn} {s t : State} (h : cycle i s = .ok t) (hne : t.rdata ≠ s.rdata) :
    t.complete = true ∧ t.outcome = .completed ∧
      ((s.waitM = true ∧ s.pendWrite = false ∧ t.rdata = s.pend) ∨
        (s.waitM = false ∧ s.ccnt = 0 ∧ i.w = false ∧ t.lastHit = true)) := by
  rcases cycle_ok h with ⟨hm, rfl⟩ | ⟨-, -, rfl⟩ | ⟨hm, hc, hacc⟩
  · rcases memoryWait_cases s with ⟨-, e⟩ | ⟨-, e⟩
    · simp [e] at hne
    · cases hw : s.pendWrite with
      | true => simp [e, hw] at hne
      | false => simp [e, hw, hm]
  · simp at hne
  · obtain ⟨word, hit, u, hu, ⟨-, rfl⟩ | ⟨-, rfl⟩⟩ := accessCycle_ok hacc
    · cases hw : i.w with
      | true => simp [hw, access_frame hu] at hne
      | false => simp [hm, hc]
    · simp [access_frame hu] at hne

/-- A cycle leaves a VALID slot VALID: an access only ever writes VALID lines (R29). -/
theorem cycle_valid {i : StepIn} {s t : State} (h : cycle i s = .ok t) {p : Slot} {l : Line} (hl : slotLine s p = some l)
    (hv : l.valid = true) : ∃ l', slotLine t p = some l' ∧ l'.valid = true := by
  rcases cycle_storage_cases h with ⟨hdm, hw4, -, -⟩ | ⟨word, hit, u, hu, hdm, hw4, -, -⟩
  · exact ⟨l, by rw [slotLine_congr hdm hw4, hl], hv⟩
  · obtain ⟨q, m, hwr⟩ := access_slotWritten hu
    rw [slotLine_congr hdm hw4]
    by_cases hq : p = q
    · subst hq
      exact ⟨_, hwr.slots_self, hwr.valid⟩
    · rw [hwr.slots_ne hq]
      exact ⟨l, hl, hv⟩

/-- `t` differs from `s` at most in the pulses, the fault record and what the model keeps for itself of a step. -/
def RegistersKept (s t : State) : Prop :=
  t = { s with
    complete := t.complete, lastHit := t.lastHit, oor := t.oor, fault := t.fault
    outcome := t.outcome, trace := t.trace, draws := t.draws }

theorem RegistersKept.fields {s t : State} (h : RegistersKept s t) :
    t.configured = s.configured ∧ t.cfg = s.cfg ∧ t.geom = s.geom ∧ t.gateCount = s.gateCount ∧ t.dm = s.dm ∧ t.w4 = s.w4 ∧
      t.halted = s.halted ∧ t.overflow = s.overflow ∧ t.rdata = s.rdata ∧ t.inputs = s.inputs := by
  rw [h]
  simp

/-- A request command's next states: one that keeps the registers (a frozen step, IDLE, a raise), or the one a counted step's cycle
left, checked against the budget (44_timing_engine.md R217, R220, R221). -/
theorem exec_request_next {i : Instr} {s t : State} (hi : ∀ c, i ≠ .reset c) (h : exec i s = .next t) :
    (RegistersKept s t ∧ ∀ f, s.fault = some f → t.fault = some f) ∨
      (s.Ready ∧ ∃ u, cycle i.stepIn (openStep i.stepIn s) = .ok u ∧
        ((u.cycles ≠ u.cfg.budget ∧ t = u) ∨
          (u.cycles = u.cfg.budget ∧ t = { u with halted := true, overflow := u.overflow || i.stepIn.xb }))) := by
  rw [exec_eq_engineStep i s hi] at h
  rcases engineStep_sorted h with ⟨-, ⟨-, rfl⟩ | ⟨-, -, rfl⟩⟩ | ⟨-, -, -, rfl⟩ | ⟨hr, now, f, rfl⟩ | ⟨hr, -, u, hu, ht⟩
  · exact .inl ⟨rfl, fun _ hf => hf⟩
  · exact .inl ⟨rfl, fun _ hf => hf⟩
  · exact .inl ⟨rfl, fun _ hf => hf⟩
  · exact .inl ⟨rfl, fun _ hf => by simp [hr.noFault] at hf⟩
  · exact .inr ⟨hr, u, hu, ht.imp_right fun ⟨hb, _, e⟩ => ⟨hb, e⟩⟩

/-- Settles O36: no cycle writes these fields, and the budget check only sets `halted` and `overflow`. -/
theorem requestStepsKeepTheConfiguration : Obligations.RequestStepsKeepTheConfiguration := by
  intro i s t hi h
  rcases exec_request_next hi h with ⟨hkept, hfault⟩ | ⟨-, u, hu, ⟨-, rfl⟩ | ⟨-, rfl⟩⟩
  · simpa [hkept.fields] using hfault
  · simp [cycle_frame hu]
  · simp +contextual [cycle_frame hu]

/-- Settles O39: only a counted step that ends without a raise can change `rdata`, and it does so in its cycle. -/
theorem onlyACompletedReadChangesRdata : Obligations.OnlyACompletedReadChangesRdata := by
  intro i s t hi h hne
  rcases exec_request_next hi h with ⟨hkept, -⟩ | ⟨-, u, hu, ⟨-, rfl⟩ | ⟨-, rfl⟩⟩
  · exact absurd (by simp [hkept.fields]) hne
  · simpa [State.atAccess, and_assoc] using cycle_rdata hu hne
  · simpa [State.atAccess, and_assoc] using cycle_rdata hu hne

/-- Settles O42: the slots of the state after a step are those before it, or those its cycle left. -/
theorem validSlotsStayValid : Obligations.ValidSlotsStayValid := by
  intro i s t p l hi h hl hv
  rcases exec_request_next hi h with ⟨hkept, -⟩ | ⟨-, u, hu, ht⟩
  · exact ⟨l, (slotLine_congr (by simp [hkept.fields]) (by simp [hkept.fields]) p).trans hl, hv⟩
  · obtain ⟨l', hl', hv'⟩ := cycle_valid hu ((slotLine_congr (by simp) (by simp) p).trans hl) hv
    refine ⟨l', ?_, hv'⟩
    rcases ht with ⟨-, rfl⟩ | ⟨-, rfl⟩
    · exact hl'
    · exact (slotLine_congr rfl rfl p).trans hl'

end Sys2Proof.Machine
end

