-- ==== Sys2Proof/Proofs/Invariant.lean ====
section
/-! Every step keeps the invariant (10_state.md R44): its parts about the waits and the counters, the counted step, the steps that
change nothing the invariant reads, RESET. -/

namespace Sys2Proof.Machine

/-- What `RunInv` says of the wait flags and the countdowns (10_state.md R30, R31; R44 items 4, 5). -/
structure WaitInv (s : State) : Prop where
  notBothWaits : ¬(s.waitC = true ∧ s.waitM = true)
  mcntRange : 1 ≤ s.mcnt.toNat ∧ s.mcnt.toNat ≤ s.cfg.memoryLatency.toNat
  ccntRange : s.ccnt.toNat ≤ s.cfg.cacheLatency.toNat
  ccntIdle : s.waitC = false → s.ccnt = s.cfg.cacheLatency
  ccntWaiting : s.waitC = true → s.ccnt.toNat < s.cfg.cacheLatency.toNat
  mcntIdle : s.waitM = false → s.mcnt = s.cfg.memoryLatency

/-- What `RunInv` says of the counters and the budget (10_state.md R33 to R35; R44 item 6). -/
structure CountInv (s : State) : Prop where
  cyclesBound : s.cycles.toNat ≤ s.cfg.budget.toNat
  accessesBound : s.hits.toNat + s.misses.toNat ≤ s.cycles.toNat
  haltedExactly : s.halted = true ↔ s.cycles = s.cfg.budget
  overflowHalted : s.overflow = true → s.halted = true

theorem RunInv.waits {s : State} (h : RunInv s) : WaitInv s := { h with }

theorem RunInv.counts {s : State} (h : RunInv s) : CountInv s := { h with }

/-- The four parts and item 7 make up `RunInv`. -/
theorem RunInv.of_parts {s : State} (hc : ConfigInv s) (hs : StorageInv s) (hw : WaitInv s) (hn : CountInv s)
    (hl : s.latched = none ↔ s.busy = false) : RunInv s :=
  { hs, hw, hn with
    legalConfig := (legality_eq_none_iff s.cfg).2 hc.legal
    geometryDerived := hc.geometry
    costComputed := hc.cost
    latchedExactly := hl
    agesPermuted := fun f hf => by
      obtain ⟨k, hk⟩ := List.getElem?_of_mem hf
      exact hs.agesPermuted k f hk
    tagsDistinct := fun f hf w x => by
      obtain ⟨k, hk⟩ := List.getElem?_of_mem hf
      exact hs.tagsDistinct k w x _ _ (slotLine_way_iff.2 ⟨f, hk, rfl⟩) (slotLine_way_iff.2 ⟨f, hk, rfl⟩)
    emptyOlder := fun k f ages hf ha w x =>
      hs.emptyOlder k w x _ _ ages (slotLine_way_iff.2 ⟨f, hf, rfl⟩) (slotLine_way_iff.2 ⟨f, hf, rfl⟩) ha }

/-- The invariant does not read the host's coming bundles. -/
theorem Inv.withInputs {s : State} (h : Inv s) (inputs : List PortInput) : Inv { s with inputs := inputs } :=
  ⟨h.memory, fun hconf => { h.run hconf with }⟩

/-- The invariant reads neither the pulses nor the fault record. -/
theorem Inv.of_registersKept {s t : State} (h : Inv s) (hk : RegistersKept s t) : Inv t := by
  rw [hk]
  exact ⟨h.memory, fun hconf => { h.run hconf with }⟩

/-! ## The waits -/

/-- What an access cycle leaves of the waits and the latched request (R214). -/
theorem accessCycle_waits {i : StepIn} {s t : State} (h : accessCycle i s = .ok t) :
    t.cfg = s.cfg ∧ t.ccnt = s.cfg.cacheLatency ∧ t.mcnt = s.mcnt ∧ t.waitC = false ∧
      ((t.waitM = s.waitM ∧ t.latched = none) ∨ (t.waitM = true ∧ t.latched = s.latched)) := by
  obtain ⟨word, hit, u, hu, ⟨-, rfl⟩ | ⟨-, rfl⟩⟩ := accessCycle_ok h <;> simp [access_frame hu]

section waits

variable {i : StepIn} {s t : State} (h : WaitInv s)
include h

theorem WaitInv.after_cacheWait (hm : s.waitM = false) (hc : s.ccnt ≠ 0) : WaitInv (cacheWait s) := by
  have hrange := h.ccntRange
  have hlt : (s.ccnt - 1).toNat < s.cfg.cacheLatency.toNat := by bv_omega
  exact
    { notBothWaits := by simp [hm]
      mcntRange := h.mcntRange
      ccntRange := Nat.le_of_lt hlt
      ccntIdle := fun hw => Bool.noConfusion hw
      ccntWaiting := fun _ => hlt
      mcntIdle := h.mcntIdle }

theorem WaitInv.after_memoryWait (hc : LegalRecord s.cfg) (hm : s.waitM = true) : WaitInv (memoryWait s) := by
  have hwC : s.waitC = false := by simpa [hm] using h.notBothWaits
  rcases memoryWait_cases s with ⟨hne, e⟩ | ⟨-, e⟩ <;> rw [e]
  · obtain ⟨hlow, hhigh⟩ := h.mcntRange
    have hrange : 1 ≤ (s.mcnt - 1).toNat ∧ (s.mcnt - 1).toNat ≤ s.cfg.memoryLatency.toNat := by bv_omega
    exact
      { h with
        mcntRange := hrange
        mcntIdle := fun hw => by simp [hm] at hw }
  · exact
      { h with
        notBothWaits := by simp
        mcntRange := ⟨Nat.pos_of_ne_zero hc.memoryLatency_ne_zero, le_refl _⟩
        mcntIdle := fun _ => rfl }

theorem WaitInv.after_accessCycle (hm : s.waitM = false) (ha : accessCycle i s = .ok t) : WaitInv t := by
  obtain ⟨hcfg, hccnt, hmcnt, hwaitC, -⟩ := accessCycle_waits ha
  exact
    { notBothWaits := by simp [hwaitC]
      mcntRange := by rw [hmcnt, hcfg]; exact h.mcntRange
      ccntRange := by rw [hccnt, hcfg]
      ccntIdle := fun _ => by rw [hccnt, hcfg]
      ccntWaiting := fun hw => by simp [hwaitC] at hw
      mcntIdle := fun _ => by rw [hmcnt, hcfg, h.mcntIdle hm] }

/-- Every cycle keeps the waits' part of the invariant. -/
theorem WaitInv.after_cycle (hc : LegalRecord s.cfg) (hy : cycle i s = .ok t) : WaitInv t := by
  rcases cycle_ok hy with ⟨hm, rfl⟩ | ⟨hm, hne, rfl⟩ | ⟨hm, -, ha⟩
  · exact h.after_memoryWait hc hm
  · exact h.after_cacheWait hm hne
  · exact h.after_accessCycle hm ha

/-- A cycle of a request lets go of it exactly when it leaves the engine not busy (R44 item 7). -/
theorem WaitInv.latched_after_cycle (hl : s.latched ≠ none) (hy : cycle i s = .ok t) : t.latched = none ↔ t.busy = false := by
  rcases cycle_ok hy with ⟨hm, rfl⟩ | ⟨hm, -, rfl⟩ | ⟨hm, -, ha⟩
  · have hwaitC : s.waitC = false := by simpa [hm] using h.notBothWaits
    rcases memoryWait_cases s with ⟨-, e⟩ | ⟨-, e⟩ <;> simp [e, State.busy, hl, hm, hwaitC]
  · simp [State.busy, hl]
  · obtain ⟨-, -, -, hwaitC, ⟨hwaitM, hlt⟩ | ⟨hwaitM, hlt⟩⟩ := accessCycle_waits ha <;>
      simp [State.busy, hwaitC, hwaitM, hlt, hm, hl]

end waits

/-- A counted step holds a request, the one in flight or the one it takes (R217). -/
theorem openStep_latched_ne_none {s : State} (hl : s.latched = none ↔ s.busy = false) (i : StepIn) :
    (openStep i s).latched ≠ none := by
  cases hb : s.busy <;> simp [hb, hl]

/-! ## The counters -/

/-- A cycle counts at most one access (R214). -/
theorem cycle_accesses {i : StepIn} {s t : State} (h : cycle i s = .ok t) :
    (t.hits = s.hits ∧ t.misses = s.misses) ∨ (t.hits = s.hits + 1 ∧ t.misses = s.misses) ∨
      (t.hits = s.hits ∧ t.misses = s.misses + 1) := by
  rcases cycle_ok h with ⟨-, rfl⟩ | ⟨-, -, rfl⟩ | ⟨-, -, ha⟩
  · rcases memoryWait_cases s with ⟨-, e⟩ | ⟨-, e⟩ <;> simp [e]
  · simp
  · obtain ⟨word, hit, u, hu, ⟨-, rfl⟩ | ⟨-, rfl⟩⟩ := accessCycle_ok ha <;> simp [access_frame hu]

/-- A counted step of an engine that is not halted stays within the budget, and its access within its cycles. -/
theorem CountInv.cycle_bounds {i : StepIn} {s u : State} (h : CountInv s) (hrun : s.halted = false)
    (hy : cycle i (openStep i s) = .ok u) :
    u.cycles.toNat ≤ u.cfg.budget.toNat ∧ u.hits.toNat + u.misses.toNat ≤ u.cycles.toNat := by
  obtain ⟨-, hcfg, -, -, -, -, -, -, hcycles⟩ := cycle_frame hy
  have hne : s.cycles ≠ s.cfg.budget := by simpa [hrun] using h.haltedExactly
  have hne' : s.cycles.toNat ≠ s.cfg.budget.toNat := fun he => hne (BitVec.eq_of_toNat_eq he)
  have hbound := h.cyclesBound
  have haccesses := h.accessesBound
  have hbudget := s.cfg.budget.isLt
  have hsucc : ∀ x : Count, x.toNat < s.cfg.budget.toNat → (x + 1).toNat = x.toNat + 1 := fun x hx =>
    BitVec.toNat_add_of_lt (show x.toNat + 1 < 2 ^ 64 by omega)
  simp only [hcfg, hcycles, openStep_fields, hsucc s.cycles (by omega)]
  refine ⟨by omega, ?_⟩
  have hhits := hsucc s.hits (by omega)
  have hmisses := hsucc s.misses (by omega)
  rcases cycle_accesses hy with ⟨hh, hm⟩ | ⟨hh, hm⟩ | ⟨hh, hm⟩ <;>
    simp only [hh, hm, openStep_fields, hhits, hmisses] <;> omega

/-- The counters after a counted step that ended without a raise (R220, R221): it halts exactly on the budget's last cycle. -/
theorem CountInv.counted {i : StepIn} {s t u : State} (h : CountInv s) (hrun : s.halted = false)
    (hy : cycle i (openStep i s) = .ok u)
    (ht : (u.cycles ≠ u.cfg.budget ∧ t = u) ∨
      (u.cycles = u.cfg.budget ∧ t = { u with halted := true, overflow := u.overflow || i.xb })) : CountInv t := by
  obtain ⟨hcycles, haccesses⟩ := h.cycle_bounds hrun hy
  obtain ⟨-, -, -, -, -, hhalted, hoverflow, -, -⟩ := cycle_frame hy
  rcases ht with ⟨hne, rfl⟩ | ⟨he, rfl⟩
  · have hov : s.overflow = false := by simpa [hrun] using h.overflowHalted
    exact
      { cyclesBound := hcycles
        accessesBound := haccesses
        haltedExactly := by simp [hhalted, hrun, hne]
        overflowHalted := fun ho => by simp [hoverflow, hov] at ho }
  · exact
      { cyclesBound := hcycles
        accessesBound := haccesses
        haltedExactly := by simp [he]
        overflowHalted := fun _ => rfl }

/-! ## The counted step -/

/-- Every cycle keeps memory's canonical form and the storage's part of the invariant. -/
theorem cycle_storage {i : StepIn} {s t : State} (hc : ConfigInv s) (hs : StorageInv s) (hm : Memory.wf s.mem = true)
    (h : cycle i s = .ok t) : StorageInv t ∧ Memory.wf t.mem = true := by
  obtain ⟨-, hcfg, hgeom, -⟩ := cycle_frame h
  rcases cycle_storage_cases h with ⟨hdm, hw4, hage, hmem⟩ | ⟨word, hit, u, hu, hdm, hw4, hage, hmem⟩
  · exact ⟨hs.congr hcfg hgeom hdm hw4 hage hmem, hmem ▸ hm⟩
  · obtain ⟨-, hucfg, hugeom, -⟩ := access_frame hu
    have hc' : ConfigInv (endCacheWait s) := ⟨hc.legal, hc.geometry, hc.cost⟩
    have hs' : StorageInv (endCacheWait s) := hs.congr rfl rfl rfl rfl rfl rfl
    have hsu : StorageInv u := access_storage hc' hm hu hs'
    exact ⟨hsu.congr (hcfg.trans hucfg.symm) (hgeom.trans hugeom.symm) hdm hw4 hage hmem, hmem ▸ access_mem_wf hu hm⟩

/-- A counted step that ended without a raise keeps the invariant. -/
theorem Inv.counted {i : StepIn} {s t u : State} (h : Inv s) (hr : s.Ready) (hy : cycle i (openStep i s) = .ok u)
    (ht : (u.cycles ≠ u.cfg.budget ∧ t = u) ∨
      (u.cycles = u.cfg.budget ∧ t = { u with halted := true, overflow := u.overflow || i.xb })) : Inv t := by
  have hrun := h.run hr.configured
  have hc := hrun.config
  obtain ⟨-, hcfg, hgeom, hcost, -⟩ := cycle_frame hy
  obtain ⟨hstorage, hmem⟩ := cycle_storage (s := openStep i s) ⟨hc.legal, hc.geometry, hc.cost⟩
    (hrun.storage.congr rfl rfl rfl rfl rfl rfl) h.memory hy
  have hopen : WaitInv (openStep i s) := { hrun.waits with }
  have hwaits := hopen.after_cycle hc.legal hy
  have hlatched := hopen.latched_after_cycle (openStep_latched_ne_none hrun.latchedExactly i) hy
  have hcounts := hrun.counts.counted hr.running hy ht
  have hconfig : ConfigInv u := by
    constructor
    · rw [hcfg]; exact hc.legal
    · rw [hcfg, hgeom]; exact hc.geometry
    · rw [hcfg, hgeom, hcost]; exact hc.cost
  rcases ht with ⟨-, rfl⟩ | ⟨-, rfl⟩
  · exact ⟨hmem, fun _ => RunInv.of_parts hconfig hstorage hwaits hcounts hlatched⟩
  · exact ⟨hmem, fun _ => RunInv.of_parts { hconfig with } { hstorage with } { hwaits with } hcounts hlatched⟩

/-! ## RESET and the step -/

/-- A successful RESET establishes the invariant (10_state.md R43). -/
theorem startRun_inv {c : RunConfig} (h : LegalRecord c) (s : State) : Inv (startRun c s) := by
  refine ⟨rfl, fun _ => RunInv.of_parts ⟨h, rfl, rfl⟩ (startRun_storage h s) ?_ ?_ (by simp [startRun, State.busy])⟩
  · exact
      { notBothWaits := by simp [startRun]
        mcntRange := ⟨Nat.pos_of_ne_zero h.memoryLatency_ne_zero, le_refl _⟩
        ccntRange := le_refl _
        ccntIdle := fun _ => rfl
        ccntWaiting := fun hw => Bool.noConfusion hw
        mcntIdle := fun _ => rfl }
  · have hbudget : (0 : Count) ≠ c.budget := fun he => h.budget_ne_zero (he ▸ rfl)
    exact
      { cyclesBound := Nat.zero_le _
        accessesBound := le_refl _
        haltedExactly := by simpa [startRun] using hbudget
        overflowHalted := fun ho => Bool.noConfusion ho }

/-- Every command keeps the invariant: a failed RESET leaves an engine that is not configured (70_reset_and_hazards.md R310). -/
theorem exec_inv {i : Instr} {s t : State} (h : Inv s) (he : exec i s = .next t) : Inv t := by
  by_cases hi : ∀ c, i ≠ .reset c
  · rcases exec_request_next hi he with ⟨hkept, -⟩ | ⟨hr, u, hy, ht⟩
    · exact h.of_registersKept hkept
    · exact h.counted hr hy ht
  · push Not at hi
    obtain ⟨c, rfl⟩ := hi
    rcases execReset_cases c s with ⟨hok, hex⟩ | ⟨k, -, hex⟩ <;> obtain rfl := Host.Outcome.next.inj (hex.symm.trans he)
    · exact startRun_inv ((legality_eq_none_iff c).1 hok) s
    · exact ⟨rejectConfig_memory_wf k s, fun hconf => by simp at hconf⟩

/-- Settles O49: a step runs a command on the state with its bundle taken, and every command keeps the invariant. -/
theorem everyStepKeepsTheInvariant : Obligations.EveryStepKeepsTheInvariant := by
  intro s t h hstep
  obtain ⟨p, rest, -, he⟩ := step_next hstep
  exact exec_inv (h.withInputs rest) he

/-- Settles O48, by the decidable form of the invariant. -/
theorem resetStateMeetsTheInvariant : Obligations.ResetStateMeetsTheInvariant :=
  inv_of_checks (by decide) (by decide) (by decide) (by decide)

end Sys2Proof.Machine
end

