-- ==== Sys2Proof/Proofs/Memory.lean ====
section
/-! Main memory: what the primitives leave of it, its frame over a step of READ, WRITE, IDLE or CONTINUE (20_memory.md R61 to R63,
R66; 41_cache_common.md R148), and the access that runs past the end of its line (20_memory.md R70). -/

namespace Sys2Proof.Machine

/-! ## The frame of memory -/

/-- `MemWrite` leaves every other byte, in range or not (R63). -/
theorem read_memWrite_ne {a : Addr} {b : Nat} (h : b ≠ a.toNat) (v : Byte) (s : State) :
    Memory.read (memWrite a v s).mem b = Memory.read s.mem b := by
  rw [memWrite_mem]
  split
  · exact Memory.read_write_ne _ _ _ _ h
  · rfl

/-- A write-through leaves every byte but its four, in range or not, and where their addresses wrap (R148). -/
theorem read_writeThrough_ne {a : Addr} {b : Nat} (h : ∀ k, k < 4 → b ≠ (a + BitVec.ofNat 32 k).toNat) (w : Word) (s : State) :
    Memory.read (writeThrough a w s).mem b = Memory.read s.mem b := by
  have h0 : b ≠ a.toNat := by simpa using h 0 (by decide)
  simp only [writeThrough]
  rw [read_memWrite_ne (a := a + 3) (h 3 (by decide)), read_memWrite_ne (a := a + 2) (h 2 (by decide)),
    read_memWrite_ne (a := a + 1) (h 1 (by decide)), read_memWrite_ne h0]

/-- A cycle leaves memory, or it is the access cycle of a write, which writes the presented word through (R61, R66). -/
theorem cycle_mem {i : StepIn} {s t : State} (h : cycle i s = .ok t) :
    t.mem = s.mem ∨ (s.atAccess = true ∧ i.w = true ∧ t.mem = (writeThrough i.addr i.data s).mem) := by
  rcases cycle_ok h with ⟨-, rfl⟩ | ⟨-, -, rfl⟩ | ⟨hm, hc, hacc⟩
  · rcases memoryWait_cases s with ⟨-, e⟩ | ⟨-, e⟩ <;> simp [e]
  · simp
  · obtain ⟨word, hit, u, hu, ht⟩ := accessCycle_ok hacc
    have htu : t.mem = u.mem := by rcases ht with ⟨-, rfl⟩ | ⟨-, rfl⟩ <;> simp
    rw [htu, access_mem hu]
    cases hw : i.w with
    | true =>
      refine .inr ⟨by simp [State.atAccess, hm, hc], rfl, ?_⟩
      simpa [requestOf, hw] using writeThrough_mem_congr (by simp) i.addr i.data
    | false => simp [requestOf, hw]

/-- Memory after a request command's step: a step that is no counted one, or raises, leaves it; a counted step does what its cycle
did (44_timing_engine.md R217; 60_exceptions.md R285). -/
theorem exec_request_mem {i : Instr} {s t : State} (hi : ∀ c, i ≠ .reset c) (h : exec i s = .next t) :
    t.mem = s.mem ∨
      (s.atAccess = true ∧ i.stepIn.w = true ∧ t.mem = (writeThrough i.stepIn.addr i.stepIn.data s).mem) := by
  rcases exec_request_next hi h with ⟨hkept, -⟩ | ⟨-, u, hu, ht⟩
  · exact .inl (by rw [hkept])
  · have htu : t.mem = u.mem := by rcases ht with ⟨-, rfl⟩ | ⟨-, rfl⟩ <;> rfl
    have hopen : (openStep i.stepIn s).mem = s.mem := by simp
    rw [htu]
    rcases cycle_mem hu with hmem | ⟨hat, hw, hmem⟩
    · exact .inl (hmem.trans hopen)
    · exact .inr ⟨by simpa [State.atAccess] using hat, hw, hmem.trans (writeThrough_mem_congr hopen _ _)⟩

/-- Settles O37: only a write's access cycle touches memory, and its write-through leaves every byte but its four. -/
theorem onlyAWriteAccessChangesMemory : Obligations.OnlyAWriteAccessChangesMemory := by
  intro i s t hi h
  rcases exec_request_mem hi h with hmem | ⟨hat, hw, hmem⟩
  · exact ⟨fun _ => hmem, fun b _ => by rw [hmem]⟩
  · exact ⟨fun hno => absurd ⟨hat, hw⟩ hno, fun b hb => by rw [hmem, read_writeThrough_ne hb]⟩

/-! ## The primitives -/

/-- Settles O20, from what each primitive does in range and out of range. -/
theorem memoryPrimitivesCheckBounds : Obligations.MemoryPrimitivesCheckBounds := by
  refine ⟨memRead_inRange, fun a s h => ?_, fun a v s h hwf => ⟨?_, memWrite_wf a v s hwf, fun b => ?_⟩, memWrite_outOfRange⟩
  · rw [memRead_outOfRange a s h]
  · rw [memWrite_inRange a v s h]
  · rw [memWrite_inRange a v s h]
    exact Memory.read_write s.mem a.toNat b v hwf

/-! ## A word past the end of its line -/

/-- An access cycle whose word runs past the end of its line raises before it changes anything (R70). -/
theorem accessCycle_of_crossesLine {i : StepIn} {s : State} (h : crossesLine s.cfg s.geom i.addr = true) :
    accessCycle i s = .raised (.lineCross i.addr) s := by
  have hacc : access (requestOf i) (endCacheWait s) = .lineCross := by simp [access, requestOf, h]
  simp [accessCycle, hacc]

/-- A counted step whose access cycle runs past the end of its line raises LineCross (R70; 60_exceptions.md R287). -/
theorem countedStep_of_crossesLine {i : StepIn} {s : State} (hm : s.waitM = false) (hc : s.ccnt = 0)
    (h : crossesLine s.cfg s.geom i.addr = true) :
    countedStep i s = .next (raise s (openStep i s) (.lineCross i.addr)) := by
  have hcycle : cycle i (openStep i s) = .raised (.lineCross i.addr) (openStep i s) := by
    simp [cycle, hm, hc, accessCycle_of_crossesLine, h]
  simp [countedStep, hcycle]

/-- A CONTINUE that repeats the request in flight runs a counted step (44_timing_engine.md R228; 70_reset_and_hazards.md R330): a
read's `data` need not be repeated. -/
theorem exec_cont_held {s : State} {q : Request} {d : Word} (hr : s.Ready) (hb : s.busy = true) (hq : s.latched = some q)
    (hd : q.isWrite = true → d = q.data) (xb : Bool) :
    exec (.cont xb true q.isWrite q.address d) s = countedStep (Instr.cont xb true q.isWrite q.address d).stepIn s := by
  refine engineStep_held hr hb hq ?_
  cases hw : q.isWrite with
  | true => simp [requestHeld, hw, hd hw]
  | false => simp [requestHeld, hw]

/-- Settles O33: the request is held, so the step is counted, and its raise keeps nothing of it: it had emitted no event. -/
theorem lineCrossingAccessRaises : Obligations.LineCrossingAccessRaises := by
  intro s q xb d hr hwait hm hc hq hd hcross
  have hbusy : s.busy = true := by simp [State.busy, hwait]
  refine ⟨?_, rfl⟩
  rw [exec_cont_held hr hbusy hq hd, countedStep_of_crossesLine hm hc (decide_eq_true hcross)]
  rfl

end Sys2Proof.Machine
end

