-- ==== Sys2Proof/Proofs/Encoding.lean ====
section
/-! The bit layouts of `STEP` and `CONFIG` (30_encoding.md R91, R92) are read and written without loss; with the command map, row by
row (R95), this gives the two directions of encoding and decoding. -/

namespace Sys2Proof

/-! ## The two bundles -/

/-- The fields read from an encoded `STEP` word are its own (R91). -/
@[simp] theorem StepIn.ofBits_bits (i : StepIn) : StepIn.ofBits i.bits = i := by
  obtain ⟨hrst, hxb, hv, hw⟩ := i.bits_flags
  have haddr : i.bits.extractLsb' 32 32 = i.addr := by
    apply BitVec.eq_of_toNat_eq
    rw [BitVec.extractLsb'_toNat, StepIn.bits_toNat, Nat.shiftRight_eq_div_pow]
    omega
  have hdata : i.bits.extractLsb' 0 32 = i.data := by
    apply BitVec.eq_of_toNat_eq
    rw [BitVec.extractLsb'_toNat, StepIn.bits_toNat, Nat.shiftRight_zero]
    omega
  simp only [StepIn.ofBits, hrst, hxb, hv, hw, haddr, hdata]

/-- The fields of a `STEP` word take up all 68 bits (R91). -/
@[simp] theorem StepIn.bits_ofBits (b : BitVec 68) : (StepIn.ofBits b).bits = b := by
  apply BitVec.eq_of_toNat_eq
  have hb := b.isLt
  have hflags : 8 * (b.toNat / 2 ^ 67 % 2) + 4 * (b.toNat / 2 ^ 66 % 2) + 2 * (b.toNat / 2 ^ 65 % 2) + b.toNat / 2 ^ 64 % 2
      = b.toNat / 2 ^ 64 := by omega
  simp only [StepIn.bits_toNat, StepIn.ofBits, BitVec.getLsbD, Nat.toNat_testBit, BitVec.extractLsb'_toNat,
    Nat.shiftRight_eq_div_pow, hflags]
  omega

@[simp] theorem Policy.ofBit_bit (p : Policy) : Policy.ofBit p.bit = p := by cases p <;> rfl

@[simp] theorem Policy.bit_ofBit (b : Bool) : (Policy.ofBit b).bit = b := by cases b <;> rfl

/-- An encoded `CONFIG` word as a number (R92). -/
theorem RunConfig.bits_toNat (c : RunConfig) :
    c.bits.toNat = c.policy.bit.toNat * 2 ^ 192 + c.lineSize.toNat * 2 ^ 160 + c.numLines.toNat * 2 ^ 128
      + c.cacheLatency.toNat * 2 ^ 96 + c.memoryLatency.toNat * 2 ^ 64 + c.budget.toNat := by
  have hpolicy := Bool.toNat_le c.policy.bit
  rw [RunConfig.bits, BitVec.toNat_ofNat, Nat.mod_eq_of_lt]
  omega

/-- A word is the number it is read from, cut to its width. -/
theorem ofNat_eq_of_mod_eq {w n : Nat} {x : BitVec w} (h : n % 2 ^ w = x.toNat) : BitVec.ofNat w n = x :=
  BitVec.eq_of_toNat_eq ((BitVec.toNat_ofNat n w).trans h)

/-- The record read from an encoded `CONFIG` word is its own (R92). -/
@[simp] theorem RunConfig.ofBits_bits (c : RunConfig) : RunConfig.ofBits c.bits = c := by
  have hbits := c.bits_toNat
  have hle := Bool.toNat_le c.policy.bit
  have hbit : (c.bits.toNat / 2 ^ 192 % 2 == 1) = c.policy.bit := by
    have hdiv : c.bits.toNat / 2 ^ 192 % 2 = c.policy.bit.toNat := by omega
    rw [hdiv]
    cases c.policy.bit <;> rfl
  have hpolicy : Policy.ofBit (c.bits.toNat / 2 ^ 192 % 2 == 1) = c.policy := by rw [hbit, Policy.ofBit_bit]
  have hlineSize : BitVec.ofNat 32 (c.bits.toNat / 2 ^ 160) = c.lineSize := ofNat_eq_of_mod_eq (by omega)
  have hnumLines : BitVec.ofNat 32 (c.bits.toNat / 2 ^ 128) = c.numLines := ofNat_eq_of_mod_eq (by omega)
  have hcacheLatency : BitVec.ofNat 32 (c.bits.toNat / 2 ^ 96) = c.cacheLatency := ofNat_eq_of_mod_eq (by omega)
  have hmemoryLatency : BitVec.ofNat 32 (c.bits.toNat / 2 ^ 64) = c.memoryLatency := ofNat_eq_of_mod_eq (by omega)
  have hbudget : BitVec.ofNat 64 c.bits.toNat = c.budget := ofNat_eq_of_mod_eq (by omega)
  simp only [RunConfig.ofBits, hpolicy, hlineSize, hnumLines, hcacheLatency, hmemoryLatency, hbudget]

/-- The fields of a `CONFIG` word take up all 193 bits (R92). -/
@[simp] theorem RunConfig.bits_ofBits (b : BitVec 193) : (RunConfig.ofBits b).bits = b := by
  apply BitVec.eq_of_toNat_eq
  have hb := b.isLt
  have hpolicy : (b.toNat / 2 ^ 192 % 2 == 1).toNat = b.toNat / 2 ^ 192 % 2 := by
    rcases Nat.mod_two_eq_zero_or_one (b.toNat / 2 ^ 192) with h | h <;> rw [h] <;> rfl
  simp only [RunConfig.bits_toNat, RunConfig.ofBits, Policy.bit_ofBit, hpolicy, BitVec.toNat_ofNat]
  omega

/-! ## The command map -/

section rows

variable {busy : Bool} {p : PortInput} {i : StepIn}

theorem decode_of_rst (hi : StepIn.ofBits p.step = i) (hrst : i.rst = true) :
    decode busy p = .reset (RunConfig.ofBits p.config) := by
  simp [decode, hi, hrst]

theorem decode_of_busy (hi : StepIn.ofBits p.step = i) (hrst : i.rst = false) :
    decode true p = .cont i.xb i.v i.w i.addr i.data := by
  simp [decode, hi, hrst]

theorem decode_of_read (hi : StepIn.ofBits p.step = i) (hrst : i.rst = false) (hv : i.v = true) (hw : i.w = false) :
    decode false p = .read i.xb i.addr i.data := by
  simp [decode, hi, hrst, hv, hw]

theorem decode_of_write (hi : StepIn.ofBits p.step = i) (hrst : i.rst = false) (hv : i.v = true) (hw : i.w = true) :
    decode false p = .write i.xb i.addr i.data := by
  simp [decode, hi, hrst, hv, hw]

theorem decode_of_no_request (hi : StepIn.ofBits p.step = i) (hrst : i.rst = false) (hv : i.v = false) :
    decode false p = .idle := by
  simp [decode, hi, hrst, hv]

end rows

/-- Settles O3, one row of the command map at a time. -/
theorem commandMapFollowsTheTable : Obligations.CommandMapFollowsTheTable := by
  intro busy p
  refine ⟨decode_of_rst rfl, ?_, ?_, ?_, ?_⟩
  · rintro hrst rfl
    exact decode_of_busy rfl hrst
  · rintro hrst rfl hv hw
    exact decode_of_read rfl hrst hv hw
  · rintro hrst rfl hv hw
    exact decode_of_write rfl hrst hv hw
  · rintro hrst rfl hv
    exact decode_of_no_request rfl hrst hv

/-! ## Encoding, then decoding -/

/-- Settles O1: the layouts give back the command's own fields, and these select the command's own row. -/
theorem encodeThenDecodeIsIdentity : Obligations.EncodeThenDecodeIsIdentity := by
  intro busy i hwf
  have hfields : StepIn.ofBits (encode i).step = i.stepIn := StepIn.ofBits_bits i.stepIn
  cases i with
  | reset c => exact (decode_of_rst hfields rfl).trans (congrArg Instr.reset (RunConfig.ofBits_bits c))
  | read xb addr data =>
    obtain rfl : busy = false := by simpa [Instr.wf] using hwf
    exact decode_of_read hfields rfl rfl rfl
  | write xb addr data =>
    obtain rfl : busy = false := by simpa [Instr.wf] using hwf
    exact decode_of_write hfields rfl rfl rfl
  | idle =>
    obtain rfl : busy = false := by simpa [Instr.wf] using hwf
    exact decode_of_no_request hfields rfl rfl
  | cont xb v w addr data =>
    obtain rfl : busy = true := hwf
    exact decode_of_busy hfields rfl

/-- A word that is a command's encoding decodes to that command. -/
theorem decode_eq_of_encode_eq {busy : Bool} {i : Instr} {p : PortInput} (hwf : i.wf busy = true) (h : encode i = p) :
    decode busy p = i :=
  h ▸ encodeThenDecodeIsIdentity busy i hwf

/-- Settles O4: each worked word is the encoding of its command. -/
theorem workedWordsDecode : Obligations.WorkedWordsDecode :=
  ⟨decode_eq_of_encode_eq rfl (by decide), decode_eq_of_encode_eq rfl (by decide), decode_eq_of_encode_eq rfl (by decide),
    decode_eq_of_encode_eq rfl (by decide), decode_eq_of_encode_eq rfl (by decide)⟩

/-! ## Decoding, then encoding -/

/-- Every word selects a command that the engine's busy flag allows (R95). -/
theorem decode_wf (busy : Bool) (p : PortInput) : (decode busy p).wf busy = true := by
  cases hrst : (StepIn.ofBits p.step).rst with
  | true => simp [decode_of_rst rfl hrst, Instr.wf]
  | false =>
    cases busy with
    | true => simp [decode_of_busy rfl hrst, Instr.wf]
    | false =>
      cases hv : (StepIn.ofBits p.step).v with
      | false => simp [decode_of_no_request rfl hrst hv, Instr.wf]
      | true =>
        cases hw : (StepIn.ofBits p.step).w with
        | false => simp [decode_of_read rfl hrst hv hw, Instr.wf]
        | true => simp [decode_of_write rfl hrst hv hw, Instr.wf]

/-- CONTINUE, READ and WRITE stand for all the fields of the word that selects them (R91, R95). -/
theorem stepIn_decode {busy : Bool} {p : PortInput} {i : StepIn} (hi : StepIn.ofBits p.step = i) (hrst : i.rst = false)
    (hreq : busy = true ∨ i.v = true) : (decode busy p).stepIn = i := by
  obtain ⟨rst, xb, v, w, addr, data⟩ := i
  obtain rfl : rst = false := hrst
  cases busy with
  | true => exact congrArg Instr.stepIn (decode_of_busy hi rfl)
  | false =>
    obtain rfl : v = true := by simpa using hreq
    cases w with
    | false => exact congrArg Instr.stepIn (decode_of_read hi rfl rfl rfl)
    | true => exact congrArg Instr.stepIn (decode_of_write hi rfl rfl rfl)

/-- Settles O2: READ, WRITE and CONTINUE stand for all the fields of their word, RESET for its record, and the fields take up all
the bits. -/
theorem decodeThenEncodeKeepsTheWord : Obligations.DecodeThenEncodeKeepsTheWord := by
  intro busy p
  refine ⟨decode_wf busy p, fun hrst hreq => ?_, fun hrst => ?_⟩
  · rw [encode, stepIn_decode rfl hrst hreq, StepIn.bits_ofBits]
  · rw [encode, decode_of_rst rfl hrst, Instr.configWord, RunConfig.bits_ofBits]

end Sys2Proof
end

