-- ==== Sys2Proof/Proofs/Outputs.lean ====
section
/-! The outputs and the Result (30_encoding.md R93; 44_timing_engine.md R236, R237). -/

namespace Sys2Proof.Machine

theorem reportedCycles_of_overflow {s : State} (h : s.overflow = true) : reportedCycles s = Config.sentinel := by
  simp [reportedCycles, h]

theorem reportedCycles_of_no_overflow {s : State} (h : s.overflow = false) : reportedCycles s = s.cycles := by
  simp [reportedCycles, h]

theorem faultCode_of_some {s : State} {f : FaultRecord} (h : s.fault = some f) : faultCode s = f.code := by
  rw [faultCode, h]

/-- The true count of a configured engine stays below the sentinel: it is within the budget, and a legal budget is at most
2^64 − 3 (70_reset_and_hazards.md R312 check 2). -/
theorem RunInv.cycles_lt_sentinel {s : State} (h : RunInv s) : s.cycles.toNat < Config.sentinel.toNat := by
  have hlegal := ((legality_eq_none_iff s.cfg).1 h.legalConfig).budget_le
  calc s.cycles.toNat ≤ Config.maxBudget := h.cyclesBound.trans hlegal
    _ < Config.sentinel.toNat := by decide

/-- A configured engine reports the sentinel exactly while `overflow` is set (R236). -/
theorem RunInv.reportedCycles_eq_sentinel_iff {s : State} (h : RunInv s) :
    reportedCycles s = Config.sentinel ↔ s.overflow = true := by
  cases hov : s.overflow with
  | true => simp [reportedCycles_of_overflow hov]
  | false =>
    have hne : s.cycles ≠ Config.sentinel := fun he => h.cycles_lt_sentinel.ne (congrArg BitVec.toNat he)
    simp [reportedCycles_of_no_overflow hov, hne]

/-- Settles O35: `OUT.cycles` is `reportedCycles`, the fault code is the record's, and the other fields are the registers. -/
theorem outputsReportTheSentinel : Obligations.OutputsReportTheSentinel := by
  refine ⟨fun s h => ?_, fun s h => reportedCycles_of_no_overflow h, fun s hinv hconf => ?_, fun s => ?_,
    fun s => ⟨fun h => ?_, fun _ => faultCode_of_some, fun _ => faultCode_of_some, fun _ => faultCode_of_some,
      fun _ => faultCode_of_some⟩, fun s => ⟨rfl, rfl, rfl, rfl⟩⟩
  · exact congrArg BitVec.toNat (reportedCycles_of_overflow h)
  · rw [← (hinv.run hconf).reportedCycles_eq_sentinel_iff]
    exact (BitVec.toNat_inj (x := reportedCycles s) (y := Config.sentinel))
  · exact ⟨rfl, rfl, rfl, rfl, rfl, rfl, rfl, rfl, rfl, rfl, rfl, rfl⟩
  · simp [State.out, faultCode, h]

end Sys2Proof.Machine
end

