-- ==== Sys2Proof/Proofs/Decoder.lean ====
section
/-! The fields of a decoded address: they recompose it, keep to their ranges, and are those of its block but for the offset
(40_address_decoder.md R123, R124, R125). -/

namespace Sys2Proof.Machine

/-! ## Recomposition -/

/-- The mask of `n` low bits, bit by bit. -/
theorem getLsbD_lowMask {n : Nat} (h : n < 32) (j : Nat) : (lowMask n).getLsbD j = decide (j < n) := by
  rw [BitVec.getLsbD, lowMask_toNat n h, Nat.testBit_two_pow_sub_one]

/-- A word is its high part joined with its low part. -/
theorem shiftLeft_ushiftRight_or_lowMask (x : BitVec 32) {n : Nat} (h : n < 32) :
    ((x >>> n) <<< n) ||| (x &&& lowMask n) = x := by
  refine BitVec.eq_of_getLsbD_eq fun j hj => ?_
  simp only [BitVec.getLsbD_or, BitVec.getLsbD_and, BitVec.getLsbD_shiftLeft, BitVec.getLsbD_ushiftRight, getLsbD_lowMask h]
  by_cases hlow : j < n
  · simp [hlow]
  · simp [hlow, hj, Nat.add_sub_cancel' (Nat.le_of_not_lt hlow)]

/-- The high part and the low part of a word share no bit. -/
theorem shiftLeft_ushiftRight_and_lowMask (x : BitVec 32) {n : Nat} (h : n < 32) :
    ((x >>> n) <<< n) &&& (x &&& lowMask n) = 0#32 := by
  refine BitVec.eq_of_getLsbD_eq fun j hj => ?_
  simp only [BitVec.getLsbD_and, BitVec.getLsbD_shiftLeft, getLsbD_lowMask h, BitVec.getLsbD_zero]
  by_cases hlow : j < n
  · simp [hlow]
  · simp [hlow]

/-- A word is the sum of its high part and its low part, since the two do not overlap. -/
theorem shiftLeft_ushiftRight_add_lowMask (x : BitVec 32) {n : Nat} (h : n < 32) :
    ((x >>> n) <<< n) + (x &&& lowMask n) = x := by
  rw [BitVec.add_eq_or_of_and_eq_zero _ _ (shiftLeft_ushiftRight_and_lowMask x h), shiftLeft_ushiftRight_or_lowMask x h]

/-- The tag in its place is the high part of the address above the offset, without the index. -/
theorem decodeAddress_tag_shiftLeft (g : Geometry) (a : Addr) :
    (decodeAddress g a).tag <<< (g.indexBits + g.offsetBits)
      = ((a >>> g.offsetBits >>> g.indexBits) <<< g.indexBits) <<< g.offsetBits := by
  rw [decodeAddress, BitVec.shiftRight_add, BitVec.shiftLeft_add]

/-- The fields joined by `|` are the address (R123). -/
theorem decodeAddress_or (g : Geometry) (a : Addr) (h : g.offsetBits + g.indexBits ≤ 16) :
    ((decodeAddress g a).tag <<< (g.indexBits + g.offsetBits)) ||| ((decodeAddress g a).index <<< g.offsetBits)
      ||| (decodeAddress g a).offset = a := by
  rw [decodeAddress_tag_shiftLeft, decodeAddress, ← BitVec.shiftLeft_or_distrib,
    shiftLeft_ushiftRight_or_lowMask (a >>> g.offsetBits) (by omega), shiftLeft_ushiftRight_or_lowMask a (by omega)]

/-- The fields joined by `+` are the address (R123). -/
theorem decodeAddress_add (g : Geometry) (a : Addr) (h : g.offsetBits + g.indexBits ≤ 16) :
    ((decodeAddress g a).tag <<< (g.indexBits + g.offsetBits)) + ((decodeAddress g a).index <<< g.offsetBits)
      + (decodeAddress g a).offset = a := by
  rw [decodeAddress_tag_shiftLeft, decodeAddress, ← BitVec.shiftLeft_add_distrib,
    shiftLeft_ushiftRight_add_lowMask (a >>> g.offsetBits) (by omega), shiftLeft_ushiftRight_add_lowMask a (by omega)]

/-- Settles O16: the address splits into its offset and the rest, and the rest into index and tag. -/
theorem decodedFieldsRecomposeTheAddress : Obligations.DecodedFieldsRecomposeTheAddress := fun g a h =>
  ⟨decodeAddress_or g a h, decodeAddress_add g a h, congrArg (BitVec.setWidth 16) (decodeAddress_or g a h)⟩

namespace LegalRecord

variable {c : RunConfig}

/-! ## Ranges -/

/-- The offset is the remainder of the address by the line size; the quotient is its block number (R11, R121). -/
theorem decodeAddress_offset_eq_mod (h : LegalRecord c) (a : Addr) :
    (decodeAddress (deriveGeometry c) a).offset.toNat = a.toNat % c.lineSize.toNat := by
  have hbits := h.bits_le_sixteen
  rw [decodeAddress_offset_toNat _ _ (by omega), ← h.lineSize_eq]

/-- The index is the remainder of the block number by the number of sets (R11, R121). -/
theorem decodeAddress_index_eq_mod (h : LegalRecord c) (a : Addr) :
    (decodeAddress (deriveGeometry c) a).index.toNat = a.toNat / c.lineSize.toNat % (deriveGeometry c).numSets := by
  have hbits := h.bits_le_sixteen
  rw [decodeAddress_index_toNat _ _ (by omega), ← h.lineSize_eq, ← h.numSets_eq]

/-- The tag is the quotient of the block number by the number of sets (R11, R121). -/
theorem decodeAddress_tag_eq_div (h : LegalRecord c) (a : Addr) :
    (decodeAddress (deriveGeometry c) a).tag.toNat = a.toNat / c.lineSize.toNat / (deriveGeometry c).numSets := by
  rw [decodeAddress_tag_toNat, pow_add, ← Nat.div_div_eq_div_mul, ← h.lineSize_eq, ← h.numSets_eq]

/-- The offset of an address is a byte of the line (R124). -/
theorem decodeAddress_offset_lt (h : LegalRecord c) (a : Addr) :
    (decodeAddress (deriveGeometry c) a).offset.toNat < c.lineSize.toNat := by
  rw [h.decodeAddress_offset_eq_mod]
  exact Nat.mod_lt _ (Nat.pos_of_ne_zero h.lineSize_ne_zero)

/-- The tag has `tagBits` bits exactly for the addresses in range (R124). -/
theorem decodeAddress_tag_lt_iff (h : LegalRecord c) (a : Addr) :
    (decodeAddress (deriveGeometry c) a).tag.toNat < 2 ^ (deriveGeometry c).tagBits ↔ a.toNat < 65536 := by
  have hbits : (deriveGeometry c).tagBits + ((deriveGeometry c).offsetBits + (deriveGeometry c).indexBits) = 16 := by
    have hsum := h.bits_sum
    omega
  have hspace : 2 ^ (deriveGeometry c).tagBits * 2 ^ ((deriveGeometry c).offsetBits + (deriveGeometry c).indexBits) = 65536 := by
    rw [← pow_add, hbits]
    rfl
  rw [decodeAddress_tag_toNat, Nat.div_lt_iff_lt_mul (Nat.two_pow_pos _), hspace]

/-! ## The block of an address -/

/-- Rounding an address down keeps its block number. -/
theorem blockBase_div_lineSize (h : LegalRecord c) (a : Addr) :
    (blockBase c a).toNat / c.lineSize.toNat = a.toNat / c.lineSize.toNat := by
  rw [h.blockBase_toNat, Nat.mul_div_cancel _ (Nat.pos_of_ne_zero h.lineSize_ne_zero)]

/-- A block starts with its own tag (R125). -/
theorem decodeAddress_blockBase_tag (h : LegalRecord c) (a : Addr) :
    (decodeAddress (deriveGeometry c) (blockBase c a)).tag = (decodeAddress (deriveGeometry c) a).tag := by
  apply BitVec.eq_of_toNat_eq
  rw [h.decodeAddress_tag_eq_div, h.decodeAddress_tag_eq_div, h.blockBase_div_lineSize]

/-- A block starts with its own index (R125). -/
theorem decodeAddress_blockBase_index (h : LegalRecord c) (a : Addr) :
    (decodeAddress (deriveGeometry c) (blockBase c a)).index = (decodeAddress (deriveGeometry c) a).index := by
  apply BitVec.eq_of_toNat_eq
  rw [h.decodeAddress_index_eq_mod, h.decodeAddress_index_eq_mod, h.blockBase_div_lineSize]

/-- A block starts at offset 0 (R125). -/
theorem decodeAddress_blockBase_offset (h : LegalRecord c) (a : Addr) :
    (decodeAddress (deriveGeometry c) (blockBase c a)).offset = 0 := by
  apply BitVec.eq_of_toNat_eq
  rw [h.decodeAddress_offset_eq_mod, h.blockBase_toNat]
  exact Nat.mul_mod_left _ _

end LegalRecord

/-- Settles O17: each field is a quotient or a remainder of the address, and only an address in range has a tag of `tagBits` bits. -/
theorem decodedFieldsHaveTheirRanges : Obligations.DecodedFieldsHaveTheirRanges := by
  intro c a hc
  have h : LegalRecord c := (legality_eq_none_iff c).mp hc
  refine ⟨h.decodeAddress_offset_lt a, h.decodeAddress_index_lt a, h.decodeAddress_tag_lt a,
    (h.decodeAddress_tag_lt_iff a).2, fun hout => ?_⟩
  rw [← Nat.not_lt, h.decodeAddress_tag_lt_iff]
  exact Nat.not_lt.2 hout

/-- Settles O18: the address rounded down has the same block number, of which tag and index are the quotient and the remainder. -/
theorem blockBaseRoundsDown : Obligations.BlockBaseRoundsDown := by
  intro c a hc
  have h : LegalRecord c := (legality_eq_none_iff c).mp hc
  exact ⟨h.blockBase_toNat a, h.decodeAddress_blockBase_tag a, h.decodeAddress_blockBase_index a,
    h.decodeAddress_blockBase_offset a, h.blockAddress_decodeAddress a⟩

end Sys2Proof.Machine
end

