-- ==== Sys2Proof/Proofs/Words.lean ====
section
/-! Words as bytes, little-endian (41_cache_common.md R142, R143): in a line's data, and in memory after a write-through. -/

namespace Sys2Proof.Machine

/-- Joining a byte above the bits of a word adds it at its weight. -/
theorem or_shiftLeft_byte_toNat {x : Word} {i : Nat} (hx : x.toNat < 2 ^ i) (hi : i + 8 ≤ 32) (b : Byte) :
    (x ||| (b.setWidth 32 <<< i)).toNat = x.toNat + 2 ^ i * b.toNat := by
  have hb : b.toNat * 2 ^ i < 2 ^ 32 := calc
    b.toNat * 2 ^ i < 2 ^ 8 * 2 ^ i := Nat.mul_lt_mul_of_pos_right b.isLt (Nat.two_pow_pos i)
    _ = 2 ^ (8 + i) := (pow_add 2 8 i).symm
    _ ≤ 2 ^ 32 := Nat.pow_le_pow_right (by decide) (by omega)
  rw [BitVec.toNat_or, BitVec.toNat_shiftLeft, BitVec.toNat_setWidth_of_le (by decide), Nat.shiftLeft_eq,
    Nat.mod_eq_of_lt hb, Nat.or_comm, Nat.mul_comm, ← Nat.two_pow_add_eq_or_of_lt hx, Nat.add_comm]

/-- An assembled word is the sum of its bytes by powers of 256 (R142). -/
theorem assemble_toNat (data : List Byte) (off : Nat) :
    (assemble data off).toNat = (byteAt data off).toNat + 256 * (byteAt data (off + 1)).toNat
      + 256 ^ 2 * (byteAt data (off + 2)).toNat + 256 ^ 3 * (byteAt data (off + 3)).toNat := by
  have h0 := (byteAt data off).isLt
  have h1 := (byteAt data (off + 1)).isLt
  have h2 := (byteAt data (off + 2)).isLt
  have e0 : ((byteAt data off).setWidth 32).toNat = (byteAt data off).toNat := BitVec.toNat_setWidth_of_le (by decide)
  have e1 := or_shiftLeft_byte_toNat (i := 8) (lt_of_eq_of_lt e0 h0) (by decide) (byteAt data (off + 1))
  have e2 := or_shiftLeft_byte_toNat (i := 16) (by rw [e1, e0]; omega) (by decide) (byteAt data (off + 2))
  rw [assemble, or_shiftLeft_byte_toNat (i := 24) (by rw [e2, e1, e0]; omega) (by decide), e2, e1, e0]
  omega

/-- Byte `k` of a word is its digit `k` in base 256 (R143). -/
theorem disassemble_get (w : Word) (k : Fin 4) : (disassemble w).get k = BitVec.ofNat 8 (w.toNat / 256 ^ k.val) := by
  apply BitVec.eq_of_toNat_eq
  fin_cases k <;> simp [disassemble, Four.get, Nat.shiftRight_eq_div_pow]

/-- A stored word's byte `k` stands at its offset + `k` (R141, R143). -/
theorem byteAt_storeWord_add {data : List Byte} {off k : Nat} (h : off + 4 ≤ data.length) (hk : k < 4) (w : Word) :
    byteAt (storeWord data off w) (off + k) = BitVec.ofNat 8 (w.toNat / 256 ^ k) := by
  rw [byteAt_storeWord data off _ w h, ← disassemble_get w ⟨k, hk⟩]
  interval_cases k <;> simp [Four.get]

/-- Storing a word leaves every byte but its four (R141). -/
theorem byteAt_storeWord_outside {data : List Byte} {off j : Nat} (h : off + 4 ≤ data.length) (hj : j < off ∨ off + 4 ≤ j)
    (w : Word) : byteAt (storeWord data off w) j = byteAt data j := by
  rw [byteAt_storeWord data off j w h, if_neg (by omega), if_neg (by omega), if_neg (by omega), if_neg (by omega)]

/-- A stored word is read back (R142, R143). -/
theorem assemble_storeWord {data : List Byte} {off : Nat} (h : off + 4 ≤ data.length) (w : Word) :
    assemble (storeWord data off w) off = w := by
  simpa [assemble, byteAt_storeWord data off _ w h] using assemble_bytes w

/-- Settles O19: the bytes of a word are its digits in base 256, each joined at its own weight. -/
theorem wordsAreLittleEndian : Obligations.WordsAreLittleEndian := by
  refine ⟨fun data off w h => ⟨assemble_storeWord h w, storeWord_length data off w, fun k hk => ?_,
    fun j hj => byteAt_storeWord_outside h hj w⟩, assemble_toNat, by decide, by decide⟩
  rw [byteAt_storeWord_add h hk, BitVec.toNat_ofNat]

/-- A word written through in range puts its byte `k` at its address + `k` (R143, R148). -/
theorem read_writeThrough_add {s : State} (hm : Memory.wf s.mem = true) {a : Addr} (h : a.toNat + 4 ≤ Config.memSize)
    {k : Nat} (hk : k < 4) (w : Word) :
    Memory.read (writeThrough a w s).mem (a.toNat + k) = BitVec.ofNat 8 (w.toNat / 256 ^ k) := by
  rw [read_writeThrough hm h, ← disassemble_get w ⟨k, hk⟩]
  interval_cases k <;> simp [Four.get]

end Sys2Proof.Machine
end

