-- ==== Sys2Proof/Proofs/Fill.lean ====
section
/-! A block fill reads the block of its address (41_cache_common.md R145), which lies wholly in memory or wholly past its end. -/

namespace Sys2Proof.Machine

namespace LegalRecord

variable {c : RunConfig}

/-- A block starts at its address or before it (R144). -/
theorem blockBase_le (h : LegalRecord c) (a : Addr) : (blockBase c a).toNat ≤ a.toNat :=
  h.blockBase_add_offset a ▸ Nat.le_add_right _ _

/-- A block starts below a power of two exactly when the address itself lies below it: no block straddles it (R145). -/
theorem blockBase_lt_two_pow_iff (h : LegalRecord c) (a : Addr) {n : Nat} (hn : 16 ≤ n) :
    (blockBase c a).toNat < 2 ^ n ↔ a.toNat < 2 ^ n := by
  have hbase := h.blockBase_add_offset a
  have hoff := h.decodeAddress_offset_lt a
  constructor
  · intro hlt
    have hend := h.blockBase_add_lineSize_le hn hlt
    omega
  · exact lt_of_le_of_lt (h.blockBase_le a)

end LegalRecord

/-- Settles O21: a block in range ends in range, and one out of range starts out of range. -/
theorem fillReadsTheBlock : Obligations.FillReadsTheBlock := by
  intro a s hlegal
  have h : LegalRecord s.cfg := (legality_eq_none_iff s.cfg).1 hlegal
  have hwrap : (blockBase s.cfg a).toNat + s.cfg.lineSize.toNat ≤ 2 ^ 32 :=
    h.blockBase_add_lineSize_le (by decide) (blockBase s.cfg a).isLt
  have hrange : (blockBase s.cfg a).toNat < 2 ^ 16 ↔ a.toNat < 2 ^ 16 := h.blockBase_lt_two_pow_iff a (le_refl 16)
  refine ⟨hwrap, fun hin => ?_, fun hout => ⟨fill_length a s, ?_⟩⟩
  · exact readBytes_inRange _ _ s (h.blockBase_add_lineSize_le (n := 16) (le_refl 16) (hrange.2 hin))
  · have hbase : Config.memSize ≤ (blockBase s.cfg a).toNat := Nat.le_of_not_lt fun hlt => Nat.not_lt.2 hout (hrange.1 hlt)
    rw [fill_outOfRange a s hbase hwrap (Nat.pos_of_ne_zero h.lineSize_ne_zero)]

end Sys2Proof.Machine
end

