-- ==== Sys2Proof/Proofs/Transparency.lean ====
section
/-! What the cache means (41_cache_common.md R150, R153 to R155): from the invariant a lookup answers, an access returns, a hit is
the block's tag in a slot of its index, and such a slot holds memory's bytes. -/

namespace Sys2Proof.Machine

/-! ## A lookup answers -/

/-- A lookup answers the selected slot with its contents, when these have the line's size. -/
theorem lookup_of_slot {s : State} {d : Decoded} {p : Slot} {l : Line} {hit : Bool} (hsel : lookupSlot s d = some (p, hit))
    (hl : slotLine s p = some l) (hlen : l.data.length = s.cfg.lineSize.toNat) : lookup s d = some (p, l, hit) := by
  simp [lookup, hsel, hl, hlen]

/-- A direct-mapped lookup selects the line of the index (42_direct_mapped.md R161). -/
theorem lookupSlot_dm {s : State} {d : Decoded} {l : Line} (hp : s.cfg.policy = .dm) (hl : s.dm[d.index.toNat]? = some l) :
    lookupSlot s d = some (.line d.index.toNat, l.holds d.tag) := by
  simp [lookupSlot, hp, hl]

/-- A set with permuted ages has a victim: some way has age 3, and no other way has (43_fourway_lru.md R183). -/
theorem exists_victim {ages : Four (BitVec 2)} (h : permutedAges ages) : ∃ v, victim ages = some v := by
  have hinj : Function.Injective ages.get := (permutedAges_iff_injective ages).1 h
  obtain ⟨v, hv⟩ := ((Fintype.bijective_iff_injective_and_card ages.get).2 ⟨hinj, rfl⟩).surjective 3
  refine ⟨v, Four.find_unique (by simp [hv]) fun x hx => hinj ?_⟩
  rw [hv]
  exact beq_iff_eq.1 hx

/-- A four-way lookup selects a way of the set: the one that holds the tag, or the victim (43_fourway_lru.md R182, R183). -/
theorem lookupSlot_w4 {s : State} {d : Decoded} {f : Four Line} {ages : Four (BitVec 2)} (hp : s.cfg.policy = .w4)
    (hf : s.w4[d.index.toNat]? = some f) (ha : s.age[d.index.toNat]? = some ages) (hperm : permutedAges ages) :
    ∃ w hit, lookupSlot s d = some (.way d.index.toNat w, hit) := by
  obtain ⟨v, hv⟩ := exists_victim hperm
  cases hfind : f.find fun l => l.holds d.tag with
  | some w => exact ⟨w, true, by simp [lookupSlot, hp, hf, ha, hfind]⟩
  | none => exact ⟨v, false, by simp [lookupSlot, hp, hf, ha, hfind, hv]⟩

/-- An access hits exactly when the lookup answers a hit. -/
theorem wouldHit_eq {s : State} {a : Addr} {p : Slot} {l : Line} {hit : Bool}
    (h : lookup s (decodeAddress s.geom a) = some (p, l, hit)) : wouldHit s a = hit := by
  simp [wouldHit, h]

/-- `p` is a slot of the address's index, and its line `l` is VALID with the address's tag (R161, R182). -/
structure CachedAt (s : State) (a : Addr) (p : Slot) (l : Line) : Prop where
  slot : slotLine s p = some l
  index : p.index = (decodeAddress s.geom a).index.toNat
  holds : l.holds (decodeAddress s.geom a).tag = true

section inv

variable {s : State} (hc : ConfigInv s) (hs : StorageInv s)
include hc hs

/-- The lookup of an address answers: its index selects a slot that the storage has (10_state.md R26, R27, R44 item 1). -/
theorem exists_lookup (a : Addr) : ∃ p l hit, lookup s (decodeAddress s.geom a) = some (p, l, hit) := by
  have hindex : (decodeAddress s.geom a).index.toNat < (deriveGeometry s.cfg).numSets := by
    rw [hc.geometry]
    exact hc.legal.decodeAddress_index_lt a
  cases hp : s.cfg.policy with
  | dm =>
    have hlen : s.dm.length = (deriveGeometry s.cfg).numSets := by
      rw [hs.lineCount, if_pos hp]
      exact (numSetsOf_dm hp).symm
    have hl := List.getElem?_eq_getElem (hlen ▸ hindex)
    exact ⟨_, _, _, lookup_of_slot (lookupSlot_dm hp hl) hl (hs.slotShape (.line _) _ hl).1⟩
  | w4 =>
    have hlen : s.w4.length = (deriveGeometry s.cfg).numSets := by
      rw [hs.setCount, if_pos hp, hc.geometry]
    have hf := List.getElem?_eq_getElem (hlen ▸ hindex)
    have ha := List.getElem?_eq_getElem (hs.ageCount.trans hlen ▸ hindex)
    obtain ⟨w, hit, hsel⟩ := lookupSlot_w4 hp hf ha (hs.agesPermuted _ _ ha)
    have hl := (slotLine_way_iff (w := w)).2 ⟨_, hf, rfl⟩
    exact ⟨_, _, hit, lookup_of_slot hsel hl (hs.slotShape _ _ hl).1⟩

/-- An access whose word stays in its line returns (R141); a write returns the word 0. -/
theorem access_returns {req : Request} (h : crossesLine s.cfg s.geom req.address = false) :
    ∃ word hit t, access req s = .done word hit t ∧ (req.isWrite = true → word = 0) := by
  obtain ⟨p, l, hit, hl⟩ := exists_lookup hc hs req.address
  cases hi : req.isWrite <;> simp [access, h, hl, hi]

/-- An address hits exactly when some slot of its index holds its tag. -/
theorem wouldHit_iff_cachedAt (a : Addr) : wouldHit s a = true ↔ ∃ p l, CachedAt s a p l := by
  obtain ⟨p, l, hit, hl⟩ := exists_lookup hc hs a
  obtain ⟨hp, -, hi, hhit, -⟩ := lookup_some hl
  rw [wouldHit_eq hl]
  constructor
  · rintro rfl
    exact ⟨p, l, hp, hi, hhit⟩
  · rintro ⟨q, m, hq⟩
    obtain rfl := hs.eq_of_lookup_of_holds hl hq.slot hq.index hq.holds
    obtain rfl : l = m := Option.some.inj (hp.symm.trans hq.slot)
    exact hhit.symm.trans hq.holds

/-- A word of a cached block in range is memory's, byte by byte (10_state.md R44 item 8). -/
theorem CachedAt.byteAt_eq {a : Addr} {p : Slot} {l : Line} (h : CachedAt s a p l) (ha : a.toNat < Config.memSize) {k : Nat}
    (hk : (decodeAddress s.geom a).offset.toNat + k < s.cfg.lineSize.toNat) :
    byteAt l.data ((decodeAddress s.geom a).offset.toNat + k) = Memory.read s.mem (a.toNat + k) := by
  obtain ⟨hv, ht⟩ := (Line.holds_iff _ _).1 h.holds
  have hbase : (blockBase s.cfg a).toNat + (decodeAddress s.geom a).offset.toNat = a.toNat := by
    rw [hc.geometry]
    exact hc.legal.blockBase_add_offset a
  have hblock : blockAddress s.geom l.tag p.index = blockBase s.cfg a := by
    rw [ht, h.index, hc.geometry]
    exact hc.legal.blockAddress_decodeAddress a
  have hcoh := hs.slotsCoherent p l h.slot hv
  rw [hblock] at hcoh
  rw [hcoh (by omega) _ hk, ← Nat.add_assoc, hbase]

end inv

/-! ## After an access -/

section access

variable {s t : State} {req : Request} {word : Word} {hit : Bool} (h : access req s = .done word hit t)
include h

/-- After an access its address is cached, in the line the access left (R141). -/
theorem access_cachedAt : ∃ p l, lookup s (decodeAddress s.geom req.address) = some (p, l, hit) ∧
    CachedAt t req.address p (accessedLine req s l hit) := by
  obtain ⟨p, l, hwr⟩ := access_slotWritten h
  obtain ⟨-, -, hi, -⟩ := lookup_some hwr.found
  refine ⟨p, l, hwr.found, hwr.slots_self, ?_, ?_⟩
  · rw [hwr.geom, hi]
  · rw [hwr.geom, Line.holds_iff]
    exact ⟨hwr.valid, hwr.tag⟩

/-- A read answers the word of the line that caches its address afterwards (R141). -/
theorem access_read_cachedAt (hi : req.isWrite = false) :
    ∃ p l, CachedAt t req.address p l ∧ word = assemble l.data (decodeAddress t.geom req.address).offset.toNat := by
  obtain ⟨-, -, hgeom, -⟩ := access_frame h
  obtain ⟨-, p, l, hl, -, hr⟩ := access_done h
  obtain ⟨q, m, hm, hcached⟩ := access_cachedAt h
  obtain ⟨rfl, rfl, -⟩ : p = q ∧ l = m ∧ hit = hit := by simpa using hl.symm.trans hm
  refine ⟨p, _, hcached, ?_⟩
  rw [hgeom, (hr hi).1]
  simp [accessedLine, hi]

/-- After a write the line that caches its address holds its word (R141, R155). -/
theorem access_write_cachedAt (hi : req.isWrite = true) :
    ∃ p l, CachedAt t req.address p l ∧ assemble l.data (decodeAddress s.geom req.address).offset.toNat = req.data := by
  obtain ⟨p, l, hl, hcached⟩ := access_cachedAt h
  obtain ⟨-, hlen, -⟩ := lookup_some hl
  have hoff := offset_add_four_le (access_done h).1
  refine ⟨p, _, hcached, ?_⟩
  simp only [accessedLine, hi, if_true]
  refine assemble_storeWord ?_ req.data
  cases hit <;> simpa [filledLine, hlen] using hoff

/-- An access leaves what RESET computed. -/
theorem access_config (hc : ConfigInv s) : ConfigInv t := by
  obtain ⟨-, hcfg, hgeom, hcost, -⟩ := access_frame h
  constructor
  · rw [hcfg]; exact hc.legal
  · rw [hcfg, hgeom]; exact hc.geometry
  · rw [hcfg, hgeom, hcost]; exact hc.cost

end access

/-- A word that stays in its line does not straddle a power of two from the memory's size on, since its block does not
(20_memory.md R70; 41_cache_common.md R145). -/
theorem ConfigInv.word_end_le {s : State} (hc : ConfigInv s) {a : Addr} (h : crossesLine s.cfg s.geom a = false) {n : Nat}
    (hn : 16 ≤ n) (ha : a.toNat < 2 ^ n) : a.toNat + 4 ≤ 2 ^ n := by
  have hoff := offset_add_four_le h
  have hbase := hc.legal.blockBase_add_offset a
  rw [← hc.geometry] at hbase
  have hend := hc.legal.blockBase_add_lineSize_le hn ((hc.legal.blockBase_lt_two_pow_iff a hn).2 ha)
  omega

/-! ## The obligations -/

/-- Settles O43: the line that caches the address afterwards holds memory's bytes, and a read leaves memory as it was. -/
theorem readReturnsMemorysWord : Obligations.ReadReturnsMemorysWord := by
  intro s a d hinv hconf ha hline
  obtain ⟨hc, hs⟩ : ConfigInv s ∧ StorageInv s := ⟨(hinv.run hconf).config, (hinv.run hconf).storage⟩
  obtain ⟨word, hit, t, hacc, -⟩ := access_returns hc hs (req := { address := a, isWrite := false, data := d }) hline
  obtain ⟨-, hcfg, hgeom, -⟩ := access_frame hacc
  obtain ⟨p, l, (hcached : CachedAt t a p l), hword⟩ := access_read_cachedAt hacc rfl
  have hbyte : ∀ k, k < 4 →
      byteAt l.data ((decodeAddress t.geom a).offset.toNat + k) = Memory.read s.mem (a.toNat + k) := fun k hk => by
    have hoff := offset_add_four_le hline
    rw [← hgeom, ← hcfg] at hoff
    rw [hcached.byteAt_eq (access_config hacc hc) (access_storage hc hinv.memory hacc hs) ha (by omega),
      access_read_mem hacc rfl]
  have hfirst : byteAt l.data (decodeAddress t.geom a).offset.toNat = Memory.read s.mem a.toNat := hbyte 0 (by decide)
  refine ⟨word, hit, t, hacc, ?_⟩
  rw [hword, assemble_toNat, hfirst, hbyte 1 (by decide), hbyte 2 (by decide), hbyte 3 (by decide)]

/-- Settles O44: the write-through puts the word's bytes in memory, or drops them all, and the access stores them in the line. -/
theorem writeReachesMemory : Obligations.WriteReachesMemory := by
  intro s a w hinv hconf hline
  obtain ⟨hc, hs⟩ : ConfigInv s ∧ StorageInv s := ⟨(hinv.run hconf).config, (hinv.run hconf).storage⟩
  obtain ⟨word, hit, t, hacc, hzero⟩ := access_returns hc hs (req := { address := a, isWrite := true, data := w }) hline
  obtain rfl : word = 0 := hzero rfl
  have hmem : t.mem = (writeThrough a w s).mem := access_mem hacc
  refine ⟨hit, t, hacc, fun ha n k hk => ?_, fun ha => ?_, ?_⟩
  · have hend : a.toNat + 4 ≤ Config.memSize := hc.word_end_le hline (n := 16) (le_refl 16) ha
    have hsize : Config.memSize = 65536 := rfl
    have haddr : (a + BitVec.ofNat 32 k).toNat = a.toNat + k := toNat_addr_add a k (by omega)
    have hin : inRange (a + BitVec.ofNat 32 k) = true := decide_eq_true (by omega)
    rw [memPeek, if_pos hin, haddr, hmem, read_writeThrough_add hinv.memory hend hk]
  · rw [hmem, writeThrough_outOfRange a w s ha (hc.word_end_le hline (by decide) a.isLt)]
  · obtain ⟨-, -, hgeom, -⟩ := access_frame hacc
    obtain ⟨p, l, hcached, hword⟩ := access_write_cachedAt hacc rfl
    exact ⟨p, l, hcached.slot, hgeom ▸ hcached.index, hgeom ▸ hcached.holds, hword⟩

/-- Settles O45: an access leaves its address cached. -/
theorem reaccessHits : Obligations.ReaccessHits := by
  intro s t req word hit hinv hconf hacc
  obtain ⟨hc, hs⟩ : ConfigInv s ∧ StorageInv s := ⟨(hinv.run hconf).config, (hinv.run hconf).storage⟩
  rw [wouldHit_iff_cachedAt (access_config hacc hc) (access_storage hc hinv.memory hacc hs)]
  obtain ⟨p, l, -, hcached⟩ := access_cachedAt hacc
  exact ⟨p, _, hcached⟩

/-- RESET with a legal configuration starts a run (70_reset_and_hazards.md R310). -/
theorem exec_reset_of_legal {c : RunConfig} (h : legality c = none) (s : State) : exec (.reset c) s = .next (startRun c s) := by
  simp [exec, execReset, h]

/-- Settles O46: RESET leaves every slot EMPTY, and an EMPTY slot holds no tag. -/
theorem firstAccessMisses : Obligations.FirstAccessMisses := by
  intro c s hlegal
  have h : LegalRecord c := (legality_eq_none_iff c).1 hlegal
  refine ⟨startRun c s, exec_reset_of_legal hlegal s, fun a => ?_⟩
  rw [Bool.eq_false_iff, ne_eq, wouldHit_iff_cachedAt ⟨h, rfl, rfl⟩ (startRun_storage h s)]
  rintro ⟨p, l, hcached⟩
  obtain ⟨j, rfl⟩ := slotLine_startRun hcached.slot
  exact Bool.noConfusion ((Line.holds_iff _ _).1 hcached.holds).1

end Sys2Proof.Machine
end

