-- ==== Sys2Proof/Proofs/Aliasing.lean ====
section
/-! A direct-mapped cache has one slot for each index (42_direct_mapped.md R160), so it never holds two blocks of one index (R166). -/

namespace Sys2Proof.Machine

/-- A slot of a direct-mapped cache is the line of its index (R160). -/
theorem StorageInv.slot_eq_line_index {s : State} (hs : StorageInv s) (hp : s.cfg.policy = .dm) {p : Slot} {l : Line}
    (hl : slotLine s p = some l) : p = .line p.index := by
  cases p with
  | line k => rfl
  | way k w => exact absurd (hp.symm.trans (hs.policy_of_way hl)) Policy.noConfusion

/-- Two cached addresses of one index of a direct-mapped cache have the same tag: one line holds them both (R161). -/
theorem CachedAt.tag_eq_of_index_eq {s : State} (hs : StorageInv s) (hp : s.cfg.policy = .dm) {a b : Addr} {p q : Slot}
    {l m : Line} (ha : CachedAt s a p l) (hb : CachedAt s b q m)
    (hi : (decodeAddress s.geom a).index = (decodeAddress s.geom b).index) :
    (decodeAddress s.geom a).tag = (decodeAddress s.geom b).tag := by
  have hpq : p = q := by
    rw [hs.slot_eq_line_index hp ha.slot, hs.slot_eq_line_index hp hb.slot, ha.index, hb.index, hi]
  obtain rfl : l = m := Option.some.inj (ha.slot.symm.trans (hpq ▸ hb.slot))
  obtain ⟨-, hla⟩ := (Line.holds_iff _ _).1 ha.holds
  obtain ⟨-, hlb⟩ := (Line.holds_iff _ _).1 hb.holds
  exact hla.symm.trans hlb

/-- Settles O47: the access leaves its own address cached, and no other tag of that index can be cached beside it. -/
theorem aliasesEvictEachOther : Obligations.AliasesEvictEachOther := by
  intro s t req word hit a hinv hconf hp hacc hi htag
  obtain ⟨hc, hs⟩ : ConfigInv s ∧ StorageInv s := ⟨(hinv.run hconf).config, (hinv.run hconf).storage⟩
  have hst : StorageInv t := access_storage hc hinv.memory hacc hs
  obtain ⟨-, hcfg, hgeom, -⟩ := access_frame hacc
  obtain ⟨p, l, -, hcached⟩ := access_cachedAt hacc
  rw [← hcfg] at hp
  rw [← hgeom] at hi htag
  rw [Bool.eq_false_iff, ne_eq, wouldHit_iff_cachedAt (access_config hacc hc) hst]
  rintro ⟨q, m, halias⟩
  exact htag (halias.tag_eq_of_index_eq hst hp hcached hi)

end Sys2Proof.Machine
end

