-- ==== Sys2Proof/Proofs/Recency.lean ====
section
/-! Least recently used replacement (43_fourway_lru.md R183, R184, R186, R190): the victim of a set with permuted ages, and its ways
as a list by age. -/

namespace Sys2Proof.Machine

/-! ## Touch and victim -/

/-- Settles O22: the touched way gets age 0, and the ways older than it keep their age. -/
theorem touchMakesTheWayMostRecent : Obligations.TouchMakesTheWayMostRecent := by
  intro f w hf
  refine ⟨permutedAges_touchAges hf w, by rw [touchAges_get, if_pos rfl], fun x hx => ?_, fun x y hx hy => ?_⟩
  · rw [touchAges_get_toNat, if_neg hx]
  · exact (touchAges_lt_iff hf hx hy).symm

/-- Permuted ages differ from way to way, so a search for an age finds exactly its way; the victim is the one of age 3 (R183). -/
theorem find_age_iff {f : Four (BitVec 2)} (hf : permutedAges f) {p : BitVec 2} {w : Fin 4} :
    (f.find fun a => a == p) = some w ↔ f.get w = p := by
  constructor
  · intro h
    simpa using Four.find_some h
  · rintro rfl
    exact Four.find_unique (beq_self_eq_true _) fun x hx => (permutedAges_iff_injective f).1 hf (beq_iff_eq.1 hx)

/-- Settles O23: age 3 belongs to one way only, and a VALID way with age 3 could not be younger than an EMPTY one. -/
theorem victimIsTheOldestWay : Obligations.VictimIsTheOldestWay := by
  intro f ages hperm
  obtain ⟨v, hv⟩ := exists_victim hperm
  have hage : ages.get v = 3 := victim_age hv
  refine ⟨v, hv, hage, fun x hx => (permutedAges_iff_injective ages).1 hperm (hx.trans hage.symm), fun hyounger hempty => ?_⟩
  obtain ⟨w, hw⟩ := hempty
  by_contra hvalid
  have hnot : ∀ a : BitVec 2, ¬ 3 < a := by decide
  exact hnot (ages.get w) (hage ▸ hyounger w v hw (by simpa using hvalid))

/-! ## The recency list -/

/-- The recency list puts the ages in order through the inverse of the age record. -/
theorem recencyList_eq_map {f : Four (BitVec 2)} (hf : permutedAges f) :
    ∃ e : Fin 4 ≃ BitVec 2, (∀ x, e x = f.get x) ∧ recencyList f = ([0, 1, 2, 3] : List (BitVec 2)).map e.symm := by
  have hbij := (Fintype.bijective_iff_injective_and_card f.get).2 ⟨(permutedAges_iff_injective f).1 hf, rfl⟩
  refine ⟨Equiv.ofBijective f.get hbij, fun _ => rfl, ?_⟩
  rw [recencyList, ← List.filterMap_eq_map]
  refine List.filterMap_congr fun p _ => (find_age_iff hf).2 ?_
  exact (Equiv.ofBijective f.get hbij).apply_symm_apply p

/-- Position `p` of the recency list is the way with age `p` (R186). -/
theorem recencyList_getElem?_eq_some_iff {f : Four (BitVec 2)} (hf : permutedAges f) (p : BitVec 2) (x : Fin 4) :
    (recencyList f)[p.toNat]? = some x ↔ f.get x = p := by
  obtain ⟨e, he, hlist⟩ := recencyList_eq_map hf
  have hages : ∀ q : BitVec 2, ([0, 1, 2, 3] : List (BitVec 2))[q.toNat]? = some q := by decide
  rw [hlist, List.getElem?_map, hages, Option.map_some, Option.some.injEq, Equiv.symm_apply_eq, he, eq_comm]

/-- Every way stands in the recency list. -/
theorem mem_recencyList {f : Four (BitVec 2)} (hf : permutedAges f) (x : Fin 4) : x ∈ recencyList f :=
  List.mem_of_getElem? ((recencyList_getElem?_eq_some_iff hf (f.get x) x).2 rfl)

/-- The recency list goes from younger to older. -/
theorem recencyList_pairwise {f : Four (BitVec 2)} (hf : permutedAges f) : (recencyList f).Pairwise (f.get · < f.get ·) := by
  obtain ⟨e, he, hlist⟩ := recencyList_eq_map hf
  rw [hlist, List.pairwise_map]
  simp only [← he, Equiv.apply_symm_apply]
  decide

theorem recencyList_nodup {f : Four (BitVec 2)} (hf : permutedAges f) : (recencyList f).Nodup :=
  (recencyList_pairwise hf).imp fun h he => BitVec.ne_of_lt h (congrArg f.get he)

/-- Touching a way moves it to the front (R186): the moved list has the same ways, and it is in order of the ages after the touch. -/
theorem recencyList_touchAges {f : Four (BitVec 2)} (hf : permutedAges f) (w : Fin 4) :
    recencyList (touchAges f w) = w :: (recencyList f).erase w := by
  have hf' := permutedAges_touchAges hf w
  have hne : ∀ x ∈ (recencyList f).erase w, x ≠ w := fun x hx => ((recencyList_nodup hf).mem_erase_iff.1 hx).1
  have hrest : ((recencyList f).erase w).Pairwise ((touchAges f w).get · < (touchAges f w).get ·) :=
    ((recencyList_pairwise hf).sublist List.erase_sublist).imp_of_mem fun hx hy hlt =>
      (touchAges_lt_iff hf (hne _ hx) (hne _ hy)).2 hlt
  have hmoved : (w :: (recencyList f).erase w).Pairwise ((touchAges f w).get · < (touchAges f w).get ·) :=
    List.pairwise_cons.2 ⟨fun x hx => touchAges_self_lt hf (hne x hx), hrest⟩
  have hways : (recencyList (touchAges f w)).Perm (w :: (recencyList f).erase w) :=
    ((List.perm_ext_iff_of_nodup (recencyList_nodup hf') (recencyList_nodup hf)).2 fun x =>
      iff_of_true (mem_recencyList hf' x) (mem_recencyList hf x)).trans (List.perm_cons_erase (mem_recencyList hf w))
  exact hways.eq_of_pairwise (fun x y _ _ hxy hyx => absurd hyx (BitVec.lt_asymm hxy)) (recencyList_pairwise hf') hmoved

/-- Settles O25, by what stands at each position of the list. -/
theorem recencyListMovesToFront : Obligations.RecencyListMovesToFront := by
  refine ⟨fun f w hf => ⟨recencyList_touchAges hf w, ?_, fun x => ?_⟩, by decide⟩
  · obtain ⟨v, hv⟩ := exists_victim hf
    exact hv.trans ((recencyList_getElem?_eq_some_iff hf 3 v).2 (victim_age hv)).symm
  · exact (recencyList_getElem?_eq_some_iff hf (f.get x) x).2 rfl

/-- Settles O24: four moves to the front, then `w1` again, leave the list w1, w4, w3, w2; the ages are the positions. -/
theorem leastRecentlyTouchedIsEvicted : Obligations.LeastRecentlyTouchedIsEvicted := by
  intro f w1 w2 w3 w4 hf h12 h13 h14 h23 h24 h34 g
  have hf1 := permutedAges_touchAges hf w1
  have hf2 := permutedAges_touchAges hf1 w2
  have hf3 := permutedAges_touchAges hf2 w3
  have hf4 := permutedAges_touchAges hf3 w4
  have hg : permutedAges g := permutedAges_touchAges hf4 w1
  obtain ⟨rest, hlist⟩ : ∃ rest, recencyList g = w1 :: w4 :: w3 :: w2 :: rest := by
    rw [recencyList_touchAges hf4, recencyList_touchAges hf3, recencyList_touchAges hf2, recencyList_touchAges hf1]
    simp [h12, h13, h14, h23, h24, h34, Ne.symm]
  have hage := recencyList_getElem?_eq_some_iff hg
  rw [hlist] at hage
  have hw2 : g.get w2 = 3 := (hage 3 w2).1 rfl
  exact ⟨(hage 0 w1).1 rfl, (hage 1 w4).1 rfl, (hage 2 w3).1 rfl, hw2, (find_age_iff hg).2 hw2⟩

end Sys2Proof.Machine
end

