-- ==== Sys2Proof/Proofs/CacheFrame.lean ====
section
/-! The cache's frame over a step of READ, WRITE, IDLE or CONTINUE (42_direct_mapped.md R161; 43_fourway_lru.md R181). -/

namespace Sys2Proof.Machine

/-- The cache storage of `t` is that of `s`. -/
structure CacheKept (s t : State) : Prop where
  dm : t.dm = s.dm
  w4 : t.w4 = s.w4
  age : t.age = s.age

/-- The cache storage of `t` is that of `s` but for the line or set of one index. -/
structure CacheKeptOutside (index : Nat) (s t : State) : Prop where
  slots : ∀ p : Slot, p.index ≠ index → slotLine t p = slotLine s p
  ages : ∀ k, k ≠ index → t.age[k]? = s.age[k]?

theorem CacheKept.trans {s t u : State} (h : CacheKept s t) (h' : CacheKept t u) : CacheKept s u :=
  ⟨h'.dm.trans h.dm, h'.w4.trans h.w4, h'.age.trans h.age⟩

theorem CacheKept.outside {s t : State} (h : CacheKept s t) (index : Nat) : CacheKeptOutside index s t :=
  ⟨fun p _ => slotLine_congr h.dm h.w4 p, fun k _ => by rw [h.age]⟩

theorem CacheKeptOutside.trans {index : Nat} {s t u : State} (h : CacheKeptOutside index s t)
    (h' : CacheKeptOutside index t u) : CacheKeptOutside index s u :=
  ⟨fun p hp => (h'.slots p hp).trans (h.slots p hp), fun k hk => (h'.ages k hk).trans (h.ages k hk)⟩

/-- A touch leaves the ages of every set but the slot's (R184). -/
theorem touch_age_getElem?_ne {p : Slot} {k : Nat} (h : k ≠ p.index) (s : State) : (touch p s).age[k]? = s.age[k]? := by
  cases p with
  | line i => rfl
  | way j w => simp [show j ≠ k from Ne.symm h]

/-- An access writes the one slot its lookup answers, a slot of the address's index, and touches that set (R141, R181). -/
theorem access_cacheKeptOutside {req : Request} {s t : State} {word : Word} {hit : Bool} (h : access req s = .done word hit t) :
    CacheKeptOutside (decodeAddress s.geom req.address).index.toNat s t := by
  obtain ⟨p, l, hwr⟩ := access_slotWritten h
  obtain ⟨-, -, hindex, -⟩ := lookup_some hwr.found
  constructor
  · intro q hq
    exact hwr.slots_ne fun hqp => hq (hqp ▸ hindex)
  · intro k hk
    rw [hwr.ages, touch_age_getElem?_ne (hindex ▸ hk)]

/-- A cycle leaves the cache, or it is an access cycle, which leaves it outside the presented address's index (R213 to R215). -/
theorem cycle_cache {i : StepIn} {s t : State} (h : cycle i s = .ok t) :
    CacheKept s t ∨ (s.atAccess = true ∧ CacheKeptOutside (decodeAddress s.geom i.addr).index.toNat s t) := by
  rcases cycle_ok h with ⟨-, rfl⟩ | ⟨-, -, rfl⟩ | ⟨hm, hc, hacc⟩
  · rcases memoryWait_cases s with ⟨-, e⟩ | ⟨-, e⟩ <;> exact .inl (by constructor <;> simp [e])
  · exact .inl (by constructor <;> simp)
  · obtain ⟨word, hit, u, hu, ht⟩ := accessCycle_ok hacc
    have hbefore : CacheKept s (endCacheWait s) := by constructor <;> simp
    have hafter : CacheKept u t := by rcases ht with ⟨-, rfl⟩ | ⟨-, rfl⟩ <;> constructor <;> simp
    have haccess : CacheKeptOutside (decodeAddress s.geom i.addr).index.toNat (endCacheWait s) u := by
      simpa [requestOf] using access_cacheKeptOutside hu
    exact .inr ⟨by simp [State.atAccess, hm, hc], ((hbefore.outside _).trans haccess).trans (hafter.outside _)⟩

/-- The cache after a request command's step: a step that is no counted one, or raises, leaves it; a counted step does what its
cycle did (44_timing_engine.md R217; 60_exceptions.md R285). -/
theorem exec_request_cache {i : Instr} {s t : State} (hi : ∀ c, i ≠ .reset c) (h : exec i s = .next t) :
    CacheKept s t ∨ (s.atAccess = true ∧ CacheKeptOutside (decodeAddress s.geom i.stepIn.addr).index.toNat s t) := by
  rcases exec_request_next hi h with ⟨hkept, -⟩ | ⟨-, u, hu, ht⟩
  · exact .inl (by constructor <;> rw [hkept])
  · have hbefore : CacheKept s (openStep i.stepIn s) := by constructor <;> simp
    have hafter : CacheKept u t := by rcases ht with ⟨-, rfl⟩ | ⟨-, rfl⟩ <;> constructor <;> rfl
    rcases cycle_cache hu with hsame | ⟨hat, houtside⟩
    · exact .inl ((hbefore.trans hsame).trans hafter)
    · have hstep : CacheKeptOutside (decodeAddress s.geom i.stepIn.addr).index.toNat (openStep i.stepIn s) u := by
        simpa using houtside
      exact .inr ⟨by simpa [State.atAccess] using hat, ((hbefore.outside _).trans hstep).trans (hafter.outside _)⟩

/-- Settles O38: only an access cycle writes the cache, and only the line or set of its index. -/
theorem accessTouchesOnlyItsSet : Obligations.AccessTouchesOnlyItsSet := by
  intro i s t hi h
  rcases exec_request_cache hi h with hkept | ⟨hat, houtside⟩
  · have houtside := hkept.outside (decodeAddress s.geom i.stepIn.addr).index.toNat
    exact ⟨fun _ => ⟨hkept.dm, hkept.w4, hkept.age⟩, houtside.slots, houtside.ages⟩
  · exact ⟨fun hno => by simp [hat] at hno, houtside.slots, houtside.ages⟩

end Sys2Proof.Machine
end

