-- ==== Sys2Proof/Proofs/StepKinds.lean ====
section
/-! The steps that are not counted: what they do, and which bundle a step takes (44_timing_engine.md R210, R221, R227;
60_exceptions.md R285, R289). -/

namespace Sys2Proof.Machine

/-- A step runs the command that the fetched bundle selects (R210). -/
theorem step_of_fetch {s t : State} {p : PortInput} (h : fetch s = some (p, t)) : step s = exec (decode t.busy p) t := by
  simp only [step, h]

/-- Settles O5: `fetch` takes the first bundle and leaves the busy flag. -/
theorem stepRunsTheDecodedCommand : Obligations.StepRunsTheDecodedCommand := by
  refine ⟨fun s p rest h => step_of_fetch (fetch_cons s p rest h),
    fun s nbits w p h => step_of_fetch (fetch_withFetchWord s nbits w p h), fun s h => ?_⟩
  simp only [step, fetch_nil s h]

/-- A faulted engine only answers `Faulted` (60_exceptions.md R285). -/
theorem engineStep_faulted {s : State} (hc : s.configured = true) (hf : s.fault.isSome = true) (i : StepIn) :
    engineStep i s = .next { s with outcome := .faulted } := by
  simp [engineStep, hc, hf]

/-- A halted engine only answers `Halted` (R221). -/
theorem engineStep_halted {s : State} (hc : s.configured = true) (hf : s.fault = none) (hh : s.halted = true) (i : StepIn) :
    engineStep i s = .next { s with outcome := .halted } := by
  simp [engineStep, hc, hf, hh]

/-- Without a request an engine that takes commands and is not busy idles (R227). -/
theorem engineStep_idle {i : StepIn} {s : State} (hr : s.Ready) (hb : s.busy = false) (hv : i.v = false) :
    engineStep i s = .next (idleStep s) := by
  simp [engineStep, hr.configured, hr.noFault, hr.running, hb, hv]

/-- Settles O14: the halt is tested before the request is looked at. -/
theorem haltedEngineIsFrozen : Obligations.HaltedEngineIsFrozen := by
  intro i s hi hc hf hh
  rw [exec_eq_engineStep i s hi, engineStep_halted hc hf hh]

/-- Settles O15: IDLE reaches `idleStep` only past the tests for a fault and for the halt. -/
theorem idleClearsThePulses : Obligations.IdleClearsThePulses :=
  ⟨fun _ hr hb => engineStep_idle hr hb rfl, fun _ hc hf => engineStep_faulted hc hf _,
    fun _ hc hf hh => engineStep_halted hc hf hh _, fun _ hrst hv => decode_of_no_request rfl hrst hv⟩

end Sys2Proof.Machine
end

