-- ==== Sys2Proof/Proofs/CountedSteps.lean ====
section
/-! A counted step is its cycle, then the budget check (44_timing_engine.md R217, R220): the cache wait (R213), the memory wait
(R215), the counters (R211) and the return value (R231). -/

namespace Sys2Proof.Machine

/-! ## The budget check -/

/-- A cycle's state after a budget check that raises nothing, by the state before the step: the last cycle of the budget halts the
engine, and `xb` on it sets the sentinel (R220, R221). -/
def budgetPassed (i : StepIn) (before s : State) : State :=
  { s with
    halted := decide (before.cycles + 1 = before.cfg.budget)
    overflow := before.overflow || (decide (before.cycles + 1 = before.cfg.budget) && i.xb) }

/-- Where `xb` is given on the final budget step, that step sets the sentinel (R220). -/
theorem budgetPassed_of_signal {i : StepIn} {before : State} (h : before.cycles + 1 ≠ before.cfg.budget ∨ i.xb = true)
    (s : State) :
    budgetPassed i before s =
      { s with
        halted := decide (before.cycles + 1 = before.cfg.budget)
        overflow := before.overflow || decide (before.cycles + 1 = before.cfg.budget) } := by
  rcases h with hne | hxb
  · rw [budgetPassed, decide_eq_false hne, Bool.false_and]
  · rw [budgetPassed, hxb, Bool.and_true]

/-- The budget check raises on the final budget step without `xb` while the request is in flight (R220). -/
theorem budgetCheck_eq_raise {i : StepIn} {s : State} (before : State) (he : s.cycles = s.cfg.budget) (hxb : i.xb = false)
    (hbusy : s.busy = true) : budgetCheck i before s = raise before s (.budgetSignalMissing i.bits) := by
  simp [budgetCheck, he, hxb, hbusy]

section counted

variable {i : StepIn} {s u : State} (h : cycle i (openStep i s) = .ok u)
include h

/-- A counted step passes the budget check off the final budget step, with `xb` on it, or when it finishes the request (R220). -/
theorem countedStep_eq_budgetPassed (hr : s.Ready) (hsig : s.cycles + 1 ≠ s.cfg.budget ∨ i.xb = true ∨ u.busy = false) :
    countedStep i s = .next (budgetPassed i s u) := by
  obtain ⟨-, hcfg, -, -, -, hhalted, hoverflow, -, hcycles⟩ := cycle_frame h
  simp only [openStep_fields] at hcfg hhalted hoverflow hcycles
  simp only [countedStep, h, budgetPassed, ← hcfg, ← hcycles, ← hoverflow] at hsig ⊢
  rcases budgetCheck_cases i s u with ⟨hne, e⟩ | ⟨he, hxb, hbusy, -⟩ | ⟨he, -, e⟩
  · rw [e, decide_eq_false hne, Bool.false_and, Bool.or_false, ← hr.running, ← hhalted]
  · simp [he, hxb, hbusy] at hsig
  · rw [e, decide_eq_true he, Bool.true_and]

/-- A counted step whose budget check raises BudgetSignalMissing. -/
theorem countedStep_eq_raise (he : s.cycles + 1 = s.cfg.budget) (hxb : i.xb = false) (hbusy : u.busy = true) :
    countedStep i s = .next (raise s u (.budgetSignalMissing i.bits)) := by
  obtain ⟨-, hcfg, -, -, -, -, -, -, hcycles⟩ := cycle_frame h
  simp only [countedStep, h]
  rw [budgetCheck_eq_raise s (by rw [hcfg, hcycles]; exact he) hxb hbusy]

end counted

/-! ## The two waits -/

/-- A counted step in the cache wait, or a request's first one, counts down (R213). -/
theorem cycle_of_cacheWait {i : StepIn} {s : State} (hm : s.waitM = false) (hc : s.ccnt ≠ 0) :
    cycle i (openStep i s) = .ok (cacheWait (openStep i s)) := by
  rw [cycle, if_neg (by simp [hm]), if_pos (by simpa using hc)]

/-- A counted step in the memory wait with more than one cycle to go counts down (R215). -/
theorem cycle_of_memoryWait {i : StepIn} {s : State} (hm : s.waitM = true) (hc : s.mcnt ≠ 1) :
    cycle i (openStep i s) = .ok { openStep i s with mcnt := s.mcnt - 1, outcome := .waiting } := by
  have hne : (openStep i s).mcnt - 1 ≠ 0 := fun h => hc (by simpa using eq_of_sub_eq_zero h)
  rw [cycle, if_pos (by simpa using hm), memoryWait, if_neg hne]
  rfl

/-- The last counted step in the memory wait finishes the request (R215). -/
theorem cycle_of_memoryWait_last {i : StepIn} {s : State} (hm : s.waitM = true) (hc : s.mcnt = 1) :
    cycle i (openStep i s) =
      .ok (finish s.pendWrite s.pend { openStep i s with mcnt := s.cfg.memoryLatency, waitM := false }) := by
  have hzero : (openStep i s).mcnt - 1 = 0 := sub_eq_zero_of_eq (by simpa using hc)
  rw [cycle, if_pos (by simpa using hm), memoryWait, if_pos hzero]
  rfl

/-- A counted step of a request in flight keeps it latched (R217). -/
theorem openStep_of_busy {s : State} (h : s.busy = true) (i : StepIn) :
    openStep i s = { s with complete := false, lastHit := false, oor := false, cycles := s.cycles + 1 } := by
  rw [openStep, if_pos h]
  rfl

/-- The first step of a request latches it (R217). -/
theorem openStep_of_not_busy {s : State} (h : s.busy = false) (i : StepIn) :
    openStep i s =
      { s with
        complete := false, lastHit := false, oor := false, cycles := s.cycles + 1, latched := some (requestOf i) } := by
  rw [openStep, if_neg (by simp [h])]
  rfl

/-- Every READ and WRITE is a counted step of an engine that takes commands and is not busy (R225, R226). -/
theorem exec_request_start {s : State} (hr : s.Ready) (hb : s.busy = false) (xb : Bool) (a : Addr) (d : Word) (isW : Bool) :
    exec (if isW then .write xb a d else .read xb a d) s
      = countedStep { rst := false, xb := xb, v := true, w := isW, addr := a, data := d } s := by
  cases isW <;> exact engineStep_start hr hb rfl

/-- Settles O26: the engine is not busy, so the request is latched, and `ccnt` is not 0, so its first cycle is a cache wait. -/
theorem newRequestWaitsForTheCache : Obligations.NewRequestWaitsForTheCache := by
  intro s xb a d isW hr hb hc hsig
  obtain ⟨-, hm⟩ : s.waitC = false ∧ s.waitM = false := by simpa [State.busy] using hb
  rw [exec_request_start hr hb, countedStep_eq_budgetPassed (cycle_of_cacheWait hm hc) hr (hsig.imp_right .inl),
    budgetPassed_of_signal hsig, openStep_of_not_busy hb]
  rfl

/-- Settles O27: a held request in the cache wait runs a counted step. -/
theorem cacheWaitCycleCountsDown : Obligations.CacheWaitCycleCountsDown := by
  intro s q xb d hr hwait hm hc hq hd hsig
  have hb : s.busy = true := by simp [State.busy, hwait]
  rw [exec_cont_held hr hb hq hd, countedStep_eq_budgetPassed (cycle_of_cacheWait hm hc) hr (hsig.imp_right .inl),
    budgetPassed_of_signal hsig, openStep_of_busy hb, hwait]
  rfl

/-- Settles O28: the memory wait's last cycle finishes the request, which passes every budget check; the others count down. -/
theorem memoryWaitCycleCountsDownAndFinishes : Obligations.MemoryWaitCycleCountsDownAndFinishes := by
  intro s q xb d hr hwait hm hq hd
  have hb : s.busy = true := by simp [State.busy, hm]
  rw [exec_cont_held hr hb hq hd]
  constructor
  · intro hne hsig
    rw [countedStep_eq_budgetPassed (cycle_of_memoryWait hm hne) hr (hsig.imp_right .inl), budgetPassed_of_signal hsig,
      openStep_of_busy hb]
  · intro hone
    have hdone : (s.waitC || false) = false := by rw [hwait, Bool.or_false]
    rw [countedStep_eq_budgetPassed (cycle_of_memoryWait_last hm hone) hr (.inr (.inr hdone)), openStep_of_busy hb]
    rfl

/-! ## The counters and the return value -/

/-- The access cycle counts one access, a hit or a miss, and shows a hit (R214); no other cycle counts one. -/
theorem cycle_counters {i : StepIn} {s t : State} (h : cycle i s = .ok t) :
    (s.atAccess = false → t.hits = s.hits ∧ t.misses = s.misses) ∧
      (s.atAccess = true → (t.hits = s.hits + 1 ∧ t.misses = s.misses ∧ t.lastHit = true) ∨
        (t.hits = s.hits ∧ t.misses = s.misses + 1 ∧ t.lastHit = s.lastHit)) := by
  rcases cycle_ok h with ⟨hm, rfl⟩ | ⟨-, hc, rfl⟩ | ⟨hm, hc, ha⟩
  · rcases memoryWait_cases s with ⟨-, e⟩ | ⟨-, e⟩ <;> simp [e, State.atAccess, hm]
  · simpa [State.atAccess] using fun _ => hc
  · obtain ⟨word, hit, u, hu, ⟨-, rfl⟩ | ⟨-, rfl⟩⟩ := accessCycle_ok ha <;> simp [State.atAccess, hm, hc, access_frame hu]

/-- A cycle returns `Completed` exactly when it finishes its request, which sets the pulse (R216, R231). -/
theorem cycle_complete_iff {i : StepIn} {s t : State} (h : cycle i s = .ok t) (hs : s.complete = false) :
    t.complete = true ↔ t.outcome = .completed := by
  rcases cycle_ok h with ⟨-, rfl⟩ | ⟨-, -, rfl⟩ | ⟨-, -, ha⟩
  · rcases memoryWait_cases s with ⟨-, e⟩ | ⟨-, e⟩ <;> simp [e, hs]
  · simp [hs]
  · obtain ⟨word, hit, u, hu, ⟨-, rfl⟩ | ⟨-, rfl⟩⟩ := accessCycle_ok ha <;> simp [access_frame hu, hs]

/-- The budget check leaves the fields of a cycle's state but `halted` and `overflow`. -/
theorem fields_of_budget_cases {i : StepIn} {t u : State}
    (h : (u.cycles ≠ u.cfg.budget ∧ t = u) ∨
      (u.cycles = u.cfg.budget ∧ (i.xb = true ∨ u.busy = false) ∧
        t = { u with halted := true, overflow := u.overflow || i.xb })) :
    t.cycles = u.cycles ∧ t.hits = u.hits ∧ t.misses = u.misses ∧ t.lastHit = u.lastHit ∧ t.complete = u.complete ∧
      t.outcome = u.outcome ∧ t.fault = u.fault := by
  rcases h with ⟨-, rfl⟩ | ⟨-, -, rfl⟩ <;> simp

/-- Settles O40: only a counted step that raises nothing keeps what its cycle counted. -/
theorem countersCountStepsAndAccesses : Obligations.CountersCountStepsAndAccesses := by
  intro i s t hi h
  rw [exec_eq_engineStep i s hi] at h
  rcases engineStep_sorted h with ⟨hnr, ht⟩ | ⟨hr, hb, hv, rfl⟩ | ⟨hr, now, f, rfl⟩ | ⟨hr, hreq, u, hu, ht⟩
  · refine ⟨fun hr => absurd hr hnr, fun _ => ?_⟩
    rcases ht with ⟨-, rfl⟩ | ⟨-, -, rfl⟩ <;> simp
  · simp [hb, hv]
  · simp
  · obtain ⟨hcycles, hhits, hmisses, hlast, -, -, hfault⟩ := fields_of_budget_cases ht
    obtain ⟨-, -, -, -, -, -, -, hufault, hucycles⟩ := cycle_frame hu
    have hcount := cycle_counters hu
    have hnone : t.fault = none := by simp [hfault, hufault, hr.noFault]
    refine ⟨fun _ _ _ => ?_, fun hno => ?_⟩
    · rw [hcycles, hhits, hmisses, hlast, hucycles]
      simpa [State.atAccess] using hcount
    · rcases hno with hnr | ⟨hb, hv⟩ | hf
      · exact absurd hr hnr
      · simp [hb, hv] at hreq
      · exact absurd hnone hf

/-- Settles O41: a frozen or raising step leaves the pulses, IDLE clears `complete`, and a counted step's cycle sets it only where it
returns `Completed`. -/
theorem completePulseMatchesTheReturn : Obligations.CompletePulseMatchesTheReturn := by
  intro i s t hi h
  rw [exec_eq_engineStep i s hi] at h
  rcases engineStep_sorted h with ⟨hnr, ht⟩ | ⟨hr, hb, hv, rfl⟩ | ⟨hr, now, f, rfl⟩ | ⟨hr, hreq, u, hu, ht⟩
  · refine ⟨fun hr => absurd hr hnr, fun _ => ?_, fun hr => absurd hr hnr⟩
    rcases ht with ⟨-, rfl⟩ | ⟨-, -, rfl⟩ <;> simp
  · simp [hr, hr.noFault]
  · simp [hr]
  · obtain ⟨-, -, -, -, hcomplete, houtcome, hfault⟩ := fields_of_budget_cases ht
    obtain ⟨-, -, -, -, -, -, -, hufault, -⟩ := cycle_frame hu
    have hnone : t.fault = none := by simp [hfault, hufault, hr.noFault]
    refine ⟨fun _ _ => ?_, fun hnr => absurd hr hnr, fun _ hf => absurd hnone hf⟩
    rw [hcomplete, houtcome]
    exact cycle_complete_iff hu (by simp)

end Sys2Proof.Machine
end

