-- ==== Sys2Proof/Proofs/AccessMarks.lean ====
section
/-! What an access leaves of memory, the trace, `oor` and the free values (20_memory.md R62, R63; 41_cache_common.md R145, R148;
60_exceptions.md R283): in range no events, out of range those of a miss's fill, then those of a write. -/

namespace Sys2Proof.Machine

/-- The events of an access: a fill's, then a write's (R141, R283). -/
def accessEvents (c : RunConfig) (req : Request) (hit : Bool) : List Event :=
  if 65536 ≤ req.address.toNat then
    (if hit then [] else fillEvents c req.address) ++ if req.isWrite then writeEvents req.address else []
  else []

theorem accessEvents_inRange {req : Request} (h : req.address.toNat < 65536) (c : RunConfig) (hit : Bool) :
    accessEvents c req hit = [] := if_neg (Nat.not_le.2 h)

theorem accessEvents_write_hit {req : Request} (hi : req.isWrite = true) (h : 65536 ≤ req.address.toNat) (c : RunConfig) :
    accessEvents c req true = writeEvents req.address := by
  simp [accessEvents, h, hi]

/-- The lookup's line is filled without an event in range; out of range a miss's fill emits its events and sets `oor` (R145). -/
theorem filledLine_marks {s : State} (hc : LegalRecord s.cfg) (a : Addr) (tag : BitVec 32) (l : Line) (hit : Bool) :
    (a.toNat < 65536 → (filledLine a tag l hit s).2 = s) ∧
      (65536 ≤ a.toNat →
        (filledLine a tag l hit s).2.trace = s.trace ++ (if hit then [] else fillEvents s.cfg a) ∧
          (filledLine a tag l hit s).2.oor = (s.oor || !hit)) := by
  obtain ⟨-, hin, hout⟩ := fillReadsTheBlock a s ((legality_eq_none_iff _).2 hc)
  cases hit with
  | true => simp [filledLine]
  | false =>
    refine ⟨fun ha => ?_, fun ha => ?_⟩
    · simp [filledLine, hin ha]
    · obtain ⟨-, hstate⟩ := hout ha
      simp [filledLine, hstate]

/-- A word that stays in its line is written through wholly in range, without an event, or wholly out of range (R70, R148). -/
theorem writeThrough_marks {s : State} (hc : ConfigInv s) {a : Addr} (hline : crossesLine s.cfg s.geom a = false) (w : Word)
    (t : State) :
    (a.toNat < 65536 → (writeThrough a w t).trace = t.trace ∧ (writeThrough a w t).oor = t.oor) ∧
      (65536 ≤ a.toNat → writeThrough a w t = { t with oor := true, trace := t.trace ++ writeEvents a }) := by
  refine ⟨fun ha => ?_, fun ha => ?_⟩
  · rw [writeThrough_inRange a w t (hc.word_end_le hline (n := 16) (le_refl 16) ha)]
    exact ⟨rfl, rfl⟩
  · exact writeThrough_outOfRange a w t ha (hc.word_end_le hline (by decide) a.isLt)

/-- An access changes the storage, the ages, memory, `oor`, the trace and the numbering of free values only. -/
theorem access_eq_frame {req : Request} {s t : State} {word : Word} {hit : Bool} (h : access req s = .done word hit t) :
    t = { s with
      dm := t.dm, w4 := t.w4, age := t.age, mem := t.mem, oor := t.oor, trace := t.trace, draws := t.draws } := by
  have hframe := access_frame h
  cases s
  cases t
  simpa only [State.mk.injEq, true_and, and_true, and_assoc] using hframe

section access

variable {req : Request} {s t : State} {word : Word} {hit : Bool} (hc : ConfigInv s) (h : access req s = .done word hit t)
include hc h

/-- The events of an access follow the trace, and `oor` is set exactly where there are some (R283). -/
theorem access_marks :
    t.trace = s.trace ++ accessEvents s.cfg req hit ∧
      t.oor = (s.oor || (decide (65536 ≤ req.address.toNat) && (!hit || req.isWrite))) := by
  obtain ⟨hline, p, l, -, hw, hr⟩ := access_done h
  obtain ⟨hin, hout⟩ := filledLine_marks hc.legal req.address (decodeAddress s.geom req.address).tag l hit
  have hwrite := writeThrough_marks hc hline req.data
  rcases Nat.lt_or_ge req.address.toNat 65536 with ha | ha
  · have hnot : ¬ 65536 ≤ req.address.toNat := Nat.not_le.2 ha
    have hsilent := fun u => (hwrite u).1 ha
    rw [accessEvents_inRange ha]
    cases hi : req.isWrite with
    | false => simp [(hr hi).2, hin ha, hnot]
    | true => simp [(hw hi).2, hsilent, hin ha, hnot]
  · obtain ⟨htrace, hoor⟩ := hout ha
    have hdropped := fun u => (hwrite u).2 ha
    cases hi : req.isWrite with
    | false => simp [(hr hi).2, htrace, hoor, accessEvents, ha, hi]
    | true => simp [(hw hi).2, hdropped, htrace, accessEvents, ha, hi]

/-- Only a fill out of range draws free values (log 4, log 14). -/
theorem access_draws (ha : hit = true ∨ req.address.toNat < 65536) : t.draws = s.draws := by
  obtain ⟨-, p, l, -, hw, hr⟩ := access_done h
  have hfill : (filledLine req.address (decodeAddress s.geom req.address).tag l hit s).2 = s := by
    rcases ha with rfl | ha
    · rfl
    · exact (filledLine_marks hc.legal _ _ l hit).1 ha
  cases hi : req.isWrite with
  | false => simp [(hr hi).2, hfill]
  | true => simp [(hw hi).2, hfill]

/-- An access out of range leaves memory (20_memory.md R63). -/
theorem access_mem_outOfRange (ha : 65536 ≤ req.address.toNat) : t.mem = s.mem := by
  obtain ⟨hline, -⟩ := access_done h
  obtain ⟨-, hout⟩ := writeThrough_marks hc hline req.data s
  rw [access_mem h, hout ha]
  simp

/-- Memory after an access in range: a write's four bytes stand at its address (R148). -/
theorem read_access_inRange (hm : Memory.wf s.mem = true) (ha : req.address.toNat < 65536) (b : Nat) :
    Memory.read t.mem b =
      if req.isWrite = true ∧ req.address.toNat ≤ b ∧ b < req.address.toNat + 4 then
        BitVec.ofNat 8 (req.data.toNat / 256 ^ (b - req.address.toNat))
      else Memory.read s.mem b := by
  obtain ⟨hline, -⟩ := access_done h
  have hend : req.address.toNat + 4 ≤ Config.memSize := hc.word_end_le hline (n := 16) (le_refl 16) ha
  rw [access_mem h]
  cases hi : req.isWrite with
  | false => simp
  | true =>
    simp only [if_true, true_and]
    split_ifs with hb
    · obtain ⟨k, rfl⟩ := Nat.exists_eq_add_of_le hb.1
      rw [read_writeThrough_add hm hend (by omega), Nat.add_sub_cancel_left]
    · rw [read_writeThrough hm hend, if_neg (by omega), if_neg (by omega), if_neg (by omega), if_neg (by omega)]

end access

end Sys2Proof.Machine
end

