-- ==== Sys2Proof/Proofs/AccessCycle.lean ====
section
/-! The access cycle in a counted step (44_timing_engine.md R214): which slot it looks up, the hit that completes, the miss that
begins the memory wait. -/

namespace Sys2Proof.Machine

/-! ## The lookup -/

section inv

variable {s : State} (hc : ConfigInv s) (hs : StorageInv s)
include hc hs

/-- The lookup of a cached address answers its slot (42_direct_mapped.md R161, 43_fourway_lru.md R182). -/
theorem CachedAt.lookup_eq {a : Addr} {p : Slot} {l : Line} (h : CachedAt s a p l) :
    lookup s (decodeAddress s.geom a) = some (p, l, true) := by
  obtain ⟨q, m, hit, hl⟩ := exists_lookup hc hs a
  obtain ⟨hq, -, -, hhit, -⟩ := lookup_some hl
  obtain rfl := hs.eq_of_lookup_of_holds hl h.slot h.index h.holds
  obtain rfl : l = m := Option.some.inj (h.slot.symm.trans hq)
  rw [hl, ← hhit, h.holds]

/-- The lookup of an address that no slot of its index holds answers the victim: the line of the index, or the way of age 3
(42_direct_mapped.md R161, 43_fourway_lru.md R183). -/
theorem lookup_eq_of_absent {a : Addr} {p : Slot} (hindex : p.index = (decodeAddress s.geom a).index.toNat)
    (habsent : ∀ q l, slotLine s q = some l → q.index = p.index → l.holds (decodeAddress s.geom a).tag = false)
    (hdm : s.cfg.policy = .dm → p = .line p.index)
    (hw4 : s.cfg.policy = .w4 → ∃ ages v, s.age[p.index]? = some ages ∧ p = .way p.index v ∧ ages.get v = 3) :
    ∃ l, lookup s (decodeAddress s.geom a) = some (p, l, false) := by
  obtain ⟨q, l, hit, hl⟩ := exists_lookup hc hs a
  obtain ⟨hq, -, hqi, hhit, hqdm, hqw4⟩ := lookup_some hl
  rw [← hindex] at hqi hqdm hqw4
  obtain rfl : hit = false := hhit.symm.trans (habsent q l hq hqi)
  suffices hqp : q = p from ⟨l, hqp ▸ hl⟩
  cases hp : s.cfg.policy with
  | dm => rw [hqdm hp, ← hdm hp]
  | w4 =>
    obtain ⟨_, ages, w, hway, -, -, hages, hmiss⟩ := hqw4 hp
    obtain ⟨ages', v, hages', hway', hv⟩ := hw4 hp
    obtain rfl : ages = ages' := Option.some.inj (hages.symm.trans hages')
    obtain ⟨hw, -⟩ := hmiss rfl
    obtain rfl : w = v := (permutedAges_iff_injective ages).1 (hs.agesPermuted _ ages hages) (hw.trans hv.symm)
    rw [hway, ← hway']

end inv

/-- An access whose word stays in its line and whose lookup answers returns (R141). -/
theorem access_of_lookup {req : Request} {s : State} {p : Slot} {l : Line} {hit : Bool}
    (hline : crossesLine s.cfg s.geom req.address = false)
    (hl : lookup s (decodeAddress s.geom req.address) = some (p, l, hit)) : ∃ word t, access req s = .done word hit t := by
  cases hi : req.isWrite <;> simp [access, hline, hl, hi]

/-! ## The state in which the access begins -/

/-- The state in which a counted step's access begins: the step opened, the cache wait ended (R214, R217). -/
abbrev accessStart (i : StepIn) (s : State) : State := endCacheWait (openStep i s)

theorem ConfigInv.accessStart {s : State} (h : ConfigInv s) (i : StepIn) : ConfigInv (accessStart i s) :=
  ⟨h.legal, h.geometry, h.cost⟩

theorem StorageInv.accessStart {s : State} (h : StorageInv s) (i : StepIn) : StorageInv (accessStart i s) :=
  h.congr rfl rfl rfl rfl rfl rfl

/-- The access cycle of a counted step finishes a hit and begins the memory wait of a miss (R214). -/
theorem cycle_of_access {i : StepIn} {s u : State} {word : Word} {hit : Bool} (hm : s.waitM = false) (hccnt : s.ccnt = 0)
    (h : access (requestOf i) (accessStart i s) = .done word hit u) :
    cycle i (openStep i s) = .ok (if hit then finishHit i.w word u else startMemoryWait i.w word u) := by
  have hzero : (openStep i s).ccnt = 0 := hccnt
  rw [cycle, if_neg (by simp [hm]), if_neg (not_not.2 hzero), accessCycle]
  simp only [h]

/-- A counted step whose access hits completes: no budget check can raise (R214, R220). -/
theorem countedStep_of_hit {i : StepIn} {s u : State} {word : Word} (hr : s.Ready) (hm : s.waitM = false) (hccnt : s.ccnt = 0)
    (h : access (requestOf i) (accessStart i s) = .done word true u) :
    countedStep i s = .next (budgetPassed i s (finishHit i.w word u)) := by
  have hdone : (finishHit i.w word u).busy = false := by simp [State.busy, access_frame h, hm]
  exact countedStep_eq_budgetPassed (cycle_of_access hm hccnt h) hr (.inr (.inr hdone))

/-- A counted step whose access misses begins the memory wait, where the budget check does not raise (R214, R220). -/
theorem countedStep_of_miss {i : StepIn} {s u : State} {word : Word} (hr : s.Ready) (hm : s.waitM = false) (hccnt : s.ccnt = 0)
    (h : access (requestOf i) (accessStart i s) = .done word false u) (hsig : s.cycles + 1 ≠ s.cfg.budget ∨ i.xb = true) :
    countedStep i s = .next (budgetPassed i s (startMemoryWait i.w word u)) :=
  countedStep_eq_budgetPassed (cycle_of_access hm hccnt h) hr (hsig.imp_right .inl)

/-! ## Hits -/

/-- Putting back what a slot holds changes nothing. -/
theorem putLine_self {s : State} {p : Slot} {l : Line} (h : slotLine s p = some l) : putLine p l s = s := by
  cases p with
  | line k =>
    have hset : s.dm.set k l = s.dm := by
      obtain ⟨hk, rfl⟩ := List.getElem?_eq_some_iff.1 h
      exact List.set_getElem_self hk
    simp only [putLine, hset]
  | way k w =>
    obtain ⟨f, hf, rfl⟩ := slotLine_way_iff.1 h
    have hset : f.set w (f.get w) = f := Four.ext_get fun x => by
      rw [Four.get_set]
      split <;> simp [*]
    have hmodify : (s.w4.modify k fun g => g.set w (f.get w)) = s.w4 := by
      refine List.ext_getElem? fun j => ?_
      rw [List.getElem?_modify]
      by_cases hj : k = j
      · subst hj
        simp [hf, hset]
      · simp [hj]
    simp only [putLine, hmodify]

/-- A touch changes the ages only (43_fourway_lru.md R184). -/
theorem touch_eq (p : Slot) (s : State) : touch p s = { s with age := (touch p s).age } := by
  cases p <;> rfl

/-- A touch finds the ages of `s` when the access begins. -/
theorem touch_accessStart_age (p : Slot) (i : StepIn) (s : State) : (touch p (accessStart i s)).age = (touch p s).age := by
  cases p <;> rfl

/-- A read hit returns the slot's word and only touches it (R164, R187). -/
theorem access_read_hit {req : Request} {s : State} {p : Slot} {l : Line} (hi : req.isWrite = false)
    (hline : crossesLine s.cfg s.geom req.address = false)
    (hl : lookup s (decodeAddress s.geom req.address) = some (p, l, true)) :
    access req s = .done (assemble l.data (decodeAddress s.geom req.address).offset.toNat) true
      { s with age := (touch p s).age } := by
  obtain ⟨hp, -⟩ := lookup_some hl
  simp [access, hline, hl, hi, filledLine, putLine_self hp, ← touch_eq]

/-- Settles O29: the lookup answers the slot that holds the tag, and a finished request passes the budget check. -/
theorem readHitCompletes : Obligations.ReadHitCompletes := by
  intro s q xb d p l hinv hr hwait hccnt hq hi hline hl hindex hholds
  have hrun := hinv.run hr.configured
  have hb : s.busy = true := by simp [State.busy, hwait]
  have hm : s.waitM = false := by simpa [hwait] using hrun.notBothWaits
  have hlookup := CachedAt.lookup_eq hrun.config hrun.storage ⟨hl, hindex, hholds⟩
  have hacc := access_read_hit (req := { address := q.address, isWrite := false, data := d })
    (s := accessStart (Instr.cont xb true false q.address d).stepIn s) rfl hline hlookup
  have hexec := exec_cont_held hr hb hq (d := d) (by simp [hi]) xb
  rw [hi] at hexec
  rw [hexec, countedStep_of_hit hr hm hccnt hacc, touch_accessStart_age, accessStart, openStep_of_busy hb]
  rfl

/-- An access writes the slot that its lookup answers. -/
theorem access_slotWritten_of_lookup {req : Request} {s t : State} {word : Word} {p : Slot} {l : Line} {hit hit' : Bool}
    (h : access req s = .done word hit t) (hl : lookup s (decodeAddress s.geom req.address) = some (p, l, hit')) :
    SlotWritten s t (decodeAddress s.geom req.address) p l (accessedLine req s l hit) hit := by
  obtain ⟨q, m, hwr⟩ := access_slotWritten h
  obtain ⟨rfl, rfl, -⟩ : q = p ∧ m = l ∧ hit = hit' := by simpa using hwr.found.symm.trans hl
  exact hwr

/-- What the access of a counted step's access cycle leaves, by the state before the step: the storage, the events, memory. -/
structure CycleAccess (i : StepIn) (s u : State) (word : Word) (p : Slot) (l : Line) (hit : Bool) : Prop where
  returns : access (requestOf i) (accessStart i s) = .done word hit u
  written : SlotWritten (accessStart i s) u (decodeAddress s.geom i.addr) p l
    (accessedLine (requestOf i) (accessStart i s) l hit) hit
  age : u.age = (touch p s).age
  trace : u.trace = s.trace ++ accessEvents s.cfg (requestOf i) hit
  oor : u.oor = (decide (65536 ≤ i.addr.toNat) && (!hit || i.w))
  draws : hit = true ∨ i.addr.toNat < 65536 → u.draws = s.draws
  mem_outOfRange : 65536 ≤ i.addr.toNat → u.mem = s.mem
  mem_inRange : i.addr.toNat < 65536 → ∀ b, Memory.read u.mem b =
    if i.w = true ∧ i.addr.toNat ≤ b ∧ b < i.addr.toNat + 4 then BitVec.ofNat 8 (i.data.toNat / 256 ^ (b - i.addr.toNat))
    else Memory.read s.mem b

theorem CycleAccess.trace_inRange {i : StepIn} {s u : State} {word : Word} {p : Slot} {l : Line} {hit : Bool}
    (h : CycleAccess i s u word p l hit) (ha : i.addr.toNat < 65536) : u.trace = s.trace := by
  rw [h.trace, accessEvents_inRange (req := requestOf i) ha, List.append_nil]

theorem CycleAccess.trace_write_hit {i : StepIn} {s u : State} {word : Word} {p : Slot} {l : Line}
    (h : CycleAccess i s u word p l true) (hi : i.w = true) (ha : 65536 ≤ i.addr.toNat) :
    u.trace = s.trace ++ writeEvents i.addr := by
  rw [h.trace, accessEvents_write_hit (req := requestOf i) hi ha, requestOf]

theorem CycleAccess.mem_read {i : StepIn} {s u : State} {word : Word} {p : Slot} {l : Line} {hit : Bool}
    (h : CycleAccess i s u word p l hit) (hi : i.w = false) : u.mem = s.mem :=
  access_read_mem (s := accessStart i s) h.returns hi

/-- From the invariant the access of a word that stays in its line returns, at the slot that the lookup answers. -/
theorem exists_cycleAccess {i : StepIn} {s : State} {p : Slot} {l : Line} {hit : Bool} (hinv : Inv s) (hr : s.Ready)
    (hline : crossesLine s.cfg s.geom i.addr = false) (hl : lookup s (decodeAddress s.geom i.addr) = some (p, l, hit)) :
    ∃ word u, CycleAccess i s u word p l hit := by
  have hc : ConfigInv (accessStart i s) := (hinv.run hr.configured).config.accessStart i
  obtain ⟨word, u, hacc⟩ := access_of_lookup (req := requestOf i) (s := accessStart i s) hline hl
  have hwr := access_slotWritten_of_lookup hacc hl
  obtain ⟨htrace, hoor⟩ := access_marks hc hacc
  exact ⟨word, u,
    { returns := hacc
      written := hwr
      age := hwr.ages.trans (touch_accessStart_age p i s)
      trace := htrace
      oor := hoor.trans (Bool.false_or _)
      draws := access_draws hc hacc
      mem_outOfRange := access_mem_outOfRange hc hacc
      mem_inRange := read_access_inRange hc hacc hinv.memory }⟩

/-- Settles O30: the access writes the word into the slot that the lookup answers, and through to memory. -/
theorem writeHitCompletes : Obligations.WriteHitCompletes := by
  intro s q xb p l hinv hr hwait hccnt hq hi hline hl hindex hholds
  have hrun := hinv.run hr.configured
  have hb : s.busy = true := by simp [State.busy, hwait]
  have hm : s.waitM = false := by simpa [hwait] using hrun.notBothWaits
  have hlookup := CachedAt.lookup_eq hrun.config hrun.storage ⟨hl, hindex, hholds⟩
  obtain ⟨word, u, hacc⟩ := exists_cycleAccess (i := (Instr.cont xb true true q.address q.data).stepIn) hinv hr hline hlookup
  have hexec := exec_cont_held hr hb hq (fun _ => rfl) xb
  rw [hi, countedStep_of_hit hr hm hccnt hacc.returns] at hexec
  refine ⟨_, hexec, ?_, hacc.written.slots_self, fun p' hp' => hacc.written.slots_ne hp',
    fun ha => ⟨?_, fun b => ?_⟩, fun ha => ⟨hacc.mem_outOfRange ha, ?_⟩⟩
  · have hoor : u.oor = decide (65536 ≤ q.address.toNat) := hacc.oor.trans (Bool.and_true _)
    rw [access_eq_frame hacc.returns, hacc.age, hoor, hacc.draws (.inl rfl)]
    rfl
  · exact hacc.trace_inRange ha
  · exact (hacc.mem_inRange ha b).trans (if_congr (and_iff_right rfl) rfl rfl)
  · exact hacc.trace_write_hit rfl ha

/-! ## Misses -/

/-- A write's word stands in the line that its access leaves, and a read's access returns the word of that line (R141). -/
theorem CycleAccess.word_of_line {i : StepIn} {s u : State} {word : Word} {p : Slot} {l : Line} {hit : Bool}
    (h : CycleAccess i s u word p l hit) :
    (i.w = true → assemble (accessedLine (requestOf i) (accessStart i s) l hit).data (decodeAddress s.geom i.addr).offset.toNat
        = i.data ∧ word = 0) ∧
      (i.w = false → word =
        assemble (accessedLine (requestOf i) (accessStart i s) l hit).data (decodeAddress s.geom i.addr).offset.toNat) := by
  obtain ⟨hline, q, m, hl, hw, hr⟩ := access_done h.returns
  obtain ⟨rfl, rfl⟩ : q = p ∧ m = l := by simpa using hl.symm.trans h.written.found
  have hlen := h.written.length
  refine ⟨fun hi => ⟨?_, (hw hi).1⟩, fun hi => (hr hi).1.trans ?_⟩
  · have hwrite : (requestOf i).isWrite = true := hi
    simp only [accessedLine, hwrite, if_true, storeWord_length] at hlen ⊢
    exact assemble_storeWord (hlen ▸ offset_add_four_le hline) i.data
  · simp [accessedLine, hi, requestOf]

/-- In range the line that an access leaves holds memory's block (10_state.md R44 item 8). -/
theorem CycleAccess.byteAt_eq {i : StepIn} {s u : State} {word : Word} {p : Slot} {l : Line}
    (h : CycleAccess i s u word p l false) (hinv : Inv s) (hr : s.Ready) (ha : i.addr.toNat < 65536) {k : Nat}
    (hk : k < s.cfg.lineSize.toNat) :
    byteAt (accessedLine (requestOf i) (accessStart i s) l false).data k
      = Memory.read u.mem ((blockBase s.cfg i.addr).toNat + k) := by
  have hc := (hinv.run hr.configured).config
  obtain ⟨-, hlen, -⟩ := lookup_some h.written.found
  exact byteAt_accessedLine (hc.accessStart i) hinv.memory h.returns hlen Bool.noConfusion
    (lt_of_le_of_lt (hc.legal.blockBase_le i.addr) ha) hk

/-- Settles O31: the lookup answers the victim, which the access fills. -/
theorem accessMissFillsTheVictim : Obligations.AccessMissFillsTheVictim := by
  intro s q xb d p hinv hr hwait hccnt hq hd hline hindex habsent hdm hw4 hsig
  have hrun := hinv.run hr.configured
  have hb : s.busy = true := by simp [State.busy, hwait]
  have hm : s.waitM = false := by simpa [hwait] using hrun.notBothWaits
  obtain ⟨l, hlookup⟩ := lookup_eq_of_absent hrun.config hrun.storage hindex habsent hdm hw4
  obtain ⟨word, u, hacc⟩ :=
    exists_cycleAccess (i := (Instr.cont xb true q.isWrite q.address d).stepIn) hinv hr hline hlookup
  obtain ⟨hwrite, hread⟩ := hacc.word_of_line
  have hexec := exec_cont_held hr hb hq hd xb
  rw [countedStep_of_miss hr hm hccnt hacc.returns hsig] at hexec
  refine ⟨_, _, hexec, ?_, hacc.written.slots_self, hacc.written.valid, hacc.written.tag, hacc.written.length,
    fun p' hp' => hacc.written.slots_ne hp', fun hi => ?_, fun hi => ⟨hread hi, hacc.mem_read hi⟩,
    fun ha => ⟨hacc.trace_inRange ha, hacc.draws (.inr ha), fun k hk => hacc.byteAt_eq hinv hr ha hk, fun b => ?_⟩,
    fun ha => ⟨hacc.mem_outOfRange ha, hacc.trace⟩⟩
  · have hoor : u.oor = decide (65536 ≤ q.address.toNat) := hacc.oor.trans (Bool.and_true _)
    rw [budgetPassed_of_signal hsig, access_eq_frame hacc.returns, hacc.age, hoor, accessStart, openStep_of_busy hb]
    rfl
  · obtain ⟨hword, hzero⟩ := hwrite hi
    exact ⟨hword.trans (hd hi), hzero⟩
  · exact (hacc.mem_inRange ha b).trans (ite_congr rfl (fun hcond => by rw [← hd hcond.1]; rfl) fun _ => rfl)

end Sys2Proof.Machine
end

