-- ==== Sys2Proof/Proofs/RequestSteps.lean ====
section
/-! A request step by step (44_timing_engine.md R213 to R216, R222): the cycle that a presented word runs, the steps that it leaves
to go, and what it counts. -/

namespace Sys2Proof.Machine

/-- The word `i` presents `r` to an engine that takes commands: the request in flight again, or a new one. -/
structure Presents (i : StepIn) (s : State) (r : Request) : Prop where
  inv : Inv s
  ready : s.Ready
  latched : (openStep i s).latched = some r
  isWrite : i.w = r.isWrite
  address : i.addr = r.address
  inLine : s.atAccess = true → crossesLine s.cfg s.geom r.address = false

/-- The steps that the request at this address still takes, from the state before its next one (R222). -/
def stepsLeft (s : State) (a : Addr) : Nat :=
  if s.waitM then s.mcnt.toNat
  else s.ccnt.toNat + if wouldHit s a then 1 else s.cfg.memoryLatency.toNat + 1

/-- An engine that is not busy has all the steps of the request before it (R222). -/
theorem stepsLeft_of_not_busy {s : State} (h : RunInv s) (hb : s.busy = false) (a : Addr) :
    stepsLeft s a = requestSteps s.cfg (wouldHit s a) := by
  obtain ⟨hwaitC, hwaitM⟩ : s.waitC = false ∧ s.waitM = false := by simpa [State.busy] using hb
  rw [stepsLeft, requestSteps, hwaitM, h.ccntIdle hwaitC]
  cases wouldHit s a <;> simp [Nat.add_assoc]

/-- A request that has not finished has a step to go. -/
theorem stepsLeft_pos {s : State} (h : RunInv s) (a : Addr) : 0 < stepsLeft s a := by
  have hmcnt := h.mcntRange.1
  unfold stepsLeft
  split_ifs <;> omega

/-- A request finishes in the step that is its last. -/
theorem finishesNow_iff {s : State} (h : RunInv s) (r : Request) : finishesNow s r = true ↔ stepsLeft s r.address = 1 := by
  have hmem := ((legality_eq_none_iff s.cfg).1 h.legalConfig).memoryLatency_ne_zero
  have htoNat : ∀ (x : BitVec 32) (n : Nat), n < 2 ^ 32 → (x = BitVec.ofNat 32 n ↔ x.toNat = n) := fun x n hn => by
    rw [← BitVec.toNat_inj, BitVec.toNat_ofNat, Nat.mod_eq_of_lt hn]
  unfold finishesNow stepsLeft
  cases s.waitM with
  | true => simpa using htoNat s.mcnt 1 (by decide)
  | false =>
    cases wouldHit s r.address with
    | true => simpa using htoNat s.ccnt 0 (by decide)
    | false =>
      have hne : s.ccnt.toNat + (s.cfg.memoryLatency.toNat + 1) ≠ 1 := by omega
      simpa using hne

/-- The hit that the request at this address still counts (R214). -/
def hitDue (s : State) (a : Addr) : Count := if s.waitM then 0 else if wouldHit s a then 1 else 0

/-- The miss that the request at this address still counts (R214). -/
def missDue (s : State) (a : Addr) : Count := if s.waitM then 0 else if wouldHit s a then 0 else 1

theorem hitDue_of_no_memoryWait {s : State} (h : s.waitM = false) (a : Addr) : hitDue s a = if wouldHit s a then 1 else 0 := by
  simp [hitDue, h]

theorem missDue_of_no_memoryWait {s : State} (h : s.waitM = false) (a : Addr) :
    missDue s a = if wouldHit s a then 0 else 1 := by
  simp [missDue, h]

/-- The word kept for the memory wait's end is a read's, or the request is a write (10_state.md R32). -/
def PendsFor (s : State) (r : Request) : Prop := s.waitM = true → s.pendWrite = r.isWrite

/-- The cycle from `s` to `u` finished `r` (R216). -/
structure Finished (s u : State) (r : Request) : Prop where
  idle : u.busy = false
  complete : u.complete = true
  hits : u.hits = s.hits + hitDue s r.address
  misses : u.misses = s.misses + missDue s r.address
  rdata : PendsFor s r → r.isWrite = true → u.rdata = s.rdata

/-- The cycle from `s` to `u` left `r` in flight. -/
structure InFlight (s u : State) (r : Request) : Prop where
  busy : u.busy = true
  complete : u.complete = false
  latched : u.latched = some r
  stepsLeft : stepsLeft u r.address + 1 = stepsLeft s r.address
  hits : u.hits + hitDue u r.address = s.hits + hitDue s r.address
  misses : u.misses + missDue u r.address = s.misses + missDue s r.address
  rdata : u.rdata = s.rdata
  pends : PendsFor s r → PendsFor u r
  trace : u.trace = s.trace ++ if s.atAccess then missEvents s.cfg r else []

section cycle

variable {i : StepIn} {s : State} {r : Request} (h : Presents i s r)
include h

/-- The kinds of cycle that a presented request's step runs (R213 to R215). -/
theorem Presents.cycle_cases :
    (s.waitM = true ∧ s.mcnt ≠ 1 ∧
      cycle i (openStep i s) = .ok { openStep i s with mcnt := s.mcnt - 1, outcome := .waiting }) ∨
    (s.waitM = true ∧ s.mcnt = 1 ∧
      cycle i (openStep i s) =
        .ok (finish s.pendWrite s.pend { openStep i s with mcnt := s.cfg.memoryLatency, waitM := false })) ∨
    (s.waitM = false ∧ s.ccnt ≠ 0 ∧ cycle i (openStep i s) = .ok (cacheWait (openStep i s))) ∨
    (s.waitM = false ∧ s.ccnt = 0 ∧ ∃ word u p l, CycleAccess i s u word p l (wouldHit s r.address) ∧
      cycle i (openStep i s) =
        .ok (if wouldHit s r.address then finishHit i.w word u else startMemoryWait i.w word u)) := by
  have hrun := h.inv.run h.ready.configured
  cases hm : s.waitM with
  | true =>
    by_cases hc : s.mcnt = 1
    · exact .inr (.inl ⟨rfl, hc, cycle_of_memoryWait_last hm hc⟩)
    · exact .inl ⟨rfl, hc, cycle_of_memoryWait hm hc⟩
  | false =>
    by_cases hc : s.ccnt = 0
    · obtain ⟨p, l, hit, hl⟩ := exists_lookup hrun.config hrun.storage i.addr
      have hline := h.inLine (by simp [State.atAccess, hm, hc])
      rw [← h.address] at hline
      obtain ⟨word, u, hacc⟩ := exists_cycleAccess h.inv h.ready hline hl
      rw [← h.address, wouldHit_eq hl]
      exact .inr (.inr (.inr ⟨rfl, hc, word, u, p, l, hacc, cycle_of_access hm hc hacc.returns⟩))
    · exact .inr (.inr (.inl ⟨rfl, hc, cycle_of_cacheWait hm hc⟩))

/-- A memory wait that is not the last one leaves the request in flight. -/
theorem Presents.inFlight_of_memoryWait (hm : s.waitM = true) :
    InFlight s { openStep i s with mcnt := s.mcnt - 1, outcome := .waiting } r where
  busy := by simp [State.busy, hm]
  complete := rfl
  latched := h.latched
  stepsLeft := by
    obtain ⟨hlow, -⟩ := (h.inv.run h.ready.configured).mcntRange
    simp only [stepsLeft, openStep_fields, hm, if_true]
    bv_omega
  hits := by simp [hitDue, hm]
  misses := by simp [missDue, hm]
  rdata := rfl
  pends := id
  trace := by simp [State.atAccess, hm]

/-- A cache wait leaves the request in flight. -/
theorem Presents.inFlight_of_cacheWait (hm : s.waitM = false) (hc : s.ccnt ≠ 0) :
    InFlight s (cacheWait (openStep i s)) r where
  busy := rfl
  complete := rfl
  latched := h.latched
  stepsLeft := by
    have hhit : wouldHit (cacheWait (openStep i s)) r.address = wouldHit s r.address := rfl
    have hcount : (s.ccnt - 1).toNat + 1 = s.ccnt.toNat := by bv_omega
    simp only [stepsLeft, cacheWait_fields, openStep_fields, hm, hhit, ← hcount, Bool.false_eq_true, if_false]
    omega
  hits := rfl
  misses := rfl
  rdata := rfl
  pends := id
  trace := by
    have hat : s.atAccess = false := by simpa [State.atAccess] using fun _ => hc
    simp [hat]

/-- The last cycle of a memory wait finishes the request. -/
theorem Presents.finished_of_memoryWait (hm : s.waitM = true) :
    Finished s (finish s.pendWrite s.pend { openStep i s with mcnt := s.cfg.memoryLatency, waitM := false }) r where
  idle := by
    have hboth := (h.inv.run h.ready.configured).notBothWaits
    have hwaitC : s.waitC = false := by simpa [hm] using hboth
    simp [State.busy, hwaitC]
  complete := rfl
  hits := by simp [hitDue, hm]
  misses := by simp [missDue, hm]
  rdata hp hi := by simp [(hp hm).trans hi]

section access

variable {u : State} {word : Word} {p : Slot} {l : Line} (hm : s.waitM = false)
include hm

/-- A hit finishes the request. -/
theorem Presents.finished_of_hit (hacc : CycleAccess i s u word p l true) (hhit : wouldHit s r.address = true) :
    Finished s (finishHit i.w word u) r where
  idle := by simp [State.busy, access_frame hacc.returns, hm]
  complete := rfl
  hits := by simp [hitDue, hm, hhit, access_frame hacc.returns]
  misses := by simp [missDue, hm, hhit, access_frame hacc.returns]
  rdata _ hi := by simp [h.isWrite, hi, access_frame hacc.returns]

/-- A miss leaves the request in flight, with its memory wait before it. -/
theorem Presents.inFlight_of_miss (hc : s.ccnt = 0) (hacc : CycleAccess i s u word p l false) (hhit : wouldHit s r.address = false) :
    InFlight s (startMemoryWait i.w word u) r where
  busy := by simp [State.busy]
  complete := by simp [access_frame hacc.returns]
  latched := by simpa [access_frame hacc.returns] using h.latched
  stepsLeft := by
    have hmcnt := (h.inv.run h.ready.configured).mcntIdle hm
    simp [stepsLeft, hm, hc, hhit, access_frame hacc.returns, hmcnt]
  hits := by simp [hitDue, hm, hhit, access_frame hacc.returns]
  misses := by simp [missDue, hm, hhit, access_frame hacc.returns]
  rdata := by simp [access_frame hacc.returns]
  pends _ _ := h.isWrite
  trace := by
    have hat : s.atAccess = true := by simp [State.atAccess, hm, hc]
    have hevents : accessEvents s.cfg (requestOf i) false = missEvents s.cfg r := by
      simp [accessEvents, missEvents, requestOf, h.isWrite, h.address]
    rw [hat, if_pos rfl, ← hevents]
    exact hacc.trace

end access

/-- The cycle that a presented request runs finishes it when the step is its last, and else leaves it in flight. -/
theorem Presents.cycle :
    ∃ u, cycle i (openStep i s) = .ok u ∧ (finishesNow s r = true → Finished s u r) ∧ (finishesNow s r = false → InFlight s u r) := by
  rcases h.cycle_cases with ⟨hm, hne, e⟩ | ⟨hm, hone, e⟩ | ⟨hm, hne, e⟩ | ⟨hm, hc, word, u, p, l, hacc, e⟩
  · have hfin : finishesNow s r = false := by simpa [finishesNow, hm] using hne
    exact ⟨_, e, fun ht => by simp [hfin] at ht, fun _ => h.inFlight_of_memoryWait hm⟩
  · have hfin : finishesNow s r = true := by simpa [finishesNow, hm] using hone
    exact ⟨_, e, fun _ => h.finished_of_memoryWait hm, fun hf => by simp [hfin] at hf⟩
  · have hfin : finishesNow s r = false := by simpa [finishesNow, hm] using fun hc => absurd hc hne
    exact ⟨_, e, fun ht => by simp [hfin] at ht, fun _ => h.inFlight_of_cacheWait hm hne⟩
  · have hfin : finishesNow s r = wouldHit s r.address := by simp [finishesNow, hm, hc]
    cases hhit : wouldHit s r.address with
    | true =>
      rw [hhit] at hacc e hfin
      exact ⟨_, e, fun _ => h.finished_of_hit hm hacc hhit, fun hf => by simp [hfin] at hf⟩
    | false =>
      rw [hhit] at hacc e hfin
      exact ⟨_, e, fun ht => by simp [hfin] at ht, fun _ => h.inFlight_of_miss hm hc hacc hhit⟩

end cycle

/-! ## The budget signal -/

/-- A request left in flight on the final budget step without `xb` raises (R220, 70_reset_and_hazards.md R331). -/
theorem Presents.countedStep_raises {i : StepIn} {s : State} {r : Request} (h : Presents i s r)
    (hfin : finishesNow s r = false) (hbudget : s.cycles + 1 = s.cfg.budget) (hxb : i.xb = false) :
    ∃ u, InFlight s u r ∧ countedStep i s = .next (raise s u (.budgetSignalMissing i.bits)) := by
  obtain ⟨u, hcycle, -, hflight⟩ := h.cycle
  exact ⟨u, hflight hfin, countedStep_eq_raise hcycle hbudget hxb (hflight hfin).busy⟩

/-- Settles O34: a first step is a cache wait, and a held request that does not finish stays in flight. -/
theorem finalBudgetStepWithoutSignalRaises : Obligations.FinalBudgetStepWithoutSignalRaises := by
  constructor
  · intro s a d isW hr hb hc hbudget
    obtain ⟨-, hm⟩ : s.waitC = false ∧ s.waitM = false := by simpa [State.busy] using hb
    refine ⟨_, _, ?_, rfl, rfl⟩
    rw [exec_request_start hr hb, countedStep_eq_raise (cycle_of_cacheWait hm hc) hbudget rfl rfl]
    cases isW <;> rfl
  · intro s q d hinv hr hb hq hd hbudget hfin hline
    have hpresents : Presents (Instr.cont false true q.isWrite q.address d).stepIn s q :=
      { inv := hinv, ready := hr, latched := by simp [hb, hq], isWrite := rfl, address := rfl, inLine := hline }
    obtain ⟨u, hflight, hraise⟩ := hpresents.countedStep_raises hfin hbudget rfl
    exact ⟨_, _, (exec_cont_held hr hb hq hd false).trans hraise, rfl, congrArg (· ++ _) hflight.trace, rfl⟩

end Sys2Proof.Machine
end

