-- ==== Sys2Proof/Proofs/RequestRuns.lean ====
section
/-! The steps of a request whose words are presented one after another (44_timing_engine.md R222; 30_encoding.md R101). -/

namespace Sys2Proof.Machine

/-- A word of a request selects a request command (R95). -/
theorem stepIn_decode_holdWord (busy : Bool) (r : Request) (xb : Bool) :
    (decode busy (portOf (holdWord r xb))).stepIn = holdWord r xb :=
  stepIn_decode (StepIn.ofBits_bits _) rfl (.inr rfl)

/-- A step with a request's word presented is the step function on that word (R210). -/
theorem step_present_holdWord (s : State) (r : Request) (xb : Bool) :
    step (s.present (portOf (holdWord r xb))) = engineStep (holdWord r xb) s := by
  have hstepIn := stepIn_decode_holdWord s.busy r xb
  rw [step_present, exec_eq_engineStep, hstepIn]
  intro c hc
  rw [hc] at hstepIn
  exact Bool.noConfusion (congrArg StepIn.rst hstepIn)

/-- The engine takes commands and can take a word of `r`: it has `r` in flight, or nothing. -/
structure Serves (s : State) (r : Request) : Prop where
  inv : Inv s
  ready : s.Ready
  latched : s.busy = true → s.latched = some r
  inLine : crossesLine s.cfg s.geom r.address = false

/-- What a step with a word of `r` presented has made of `s`, when it did not raise. -/
structure RequestStep (s t : State) (r : Request) (xb : Bool) : Prop where
  inv : Inv t
  configured : t.configured = true
  noFault : t.fault = none
  cfg : t.cfg = s.cfg
  geom : t.geom = s.geom
  cycles : t.cycles = s.cycles + 1
  halted : t.halted = decide (s.cycles + 1 = s.cfg.budget)
  overflow : t.overflow = (s.overflow || (decide (s.cycles + 1 = s.cfg.budget) && xb))
  finished : finishesNow s r = true → Finished s t r
  inFlight : finishesNow s r = false → InFlight s t r

/-- What a step does to a request does not depend on the bundles that are to come. -/
theorem RequestStep.of_withInputs {s t : State} {r : Request} {xb : Bool} {inputs : List PortInput}
    (h : RequestStep { s with inputs := inputs } t r xb) : RequestStep s t r xb :=
  { h with
    finished := fun hfin => { h.finished hfin with }
    inFlight := fun hfin => { h.inFlight hfin with } }

section serves

variable {s : State} {r : Request} (h : Serves s r)
include h

theorem Serves.presents (xb : Bool) : Presents (holdWord r xb) s r where
  inv := h.inv
  ready := h.ready
  latched := by
    cases hb : s.busy with
    | true => simp [hb, h.latched hb]
    | false => simp [hb, requestOf, holdWord]
  isWrite := rfl
  address := rfl
  inLine _ := h.inLine

/-- The words of `r` run counted steps. -/
theorem Serves.engineStep_eq (xb : Bool) : engineStep (holdWord r xb) s = countedStep (holdWord r xb) s := by
  cases hb : s.busy with
  | true => exact engineStep_held h.ready hb (h.latched hb) (by simp [requestHeld, holdWord])
  | false => exact engineStep_start h.ready hb rfl

/-- A word of `r` with the budget signal it needs (70_reset_and_hazards.md R331) runs one step of `r`. -/
theorem Serves.exists_step {xb : Bool} (hsig : s.cycles + 1 ≠ s.cfg.budget ∨ xb = true ∨ finishesNow s r = true) :
    ∃ t, step (s.present (portOf (holdWord r xb))) = .next t ∧ t.inputs = s.inputs ∧ RequestStep s t r xb := by
  obtain ⟨u, hcycle, hfinished, hflight⟩ := (h.presents xb).cycle
  obtain ⟨hconf, hcfg, hgeom, -, hinputs, -, -, hfault, hcycles⟩ := cycle_frame hcycle
  have hstep : step (s.present (portOf (holdWord r xb))) = .next (budgetPassed (holdWord r xb) s u) := by
    rw [step_present_holdWord, h.engineStep_eq,
      countedStep_eq_budgetPassed hcycle h.ready (hsig.imp_right (.imp_right fun hfin => (hfinished hfin).idle))]
  exact ⟨_, hstep, hinputs,
    { inv := everyStepKeepsTheInvariant _ _ (h.inv.withInputs _) hstep
      configured := hconf.trans h.ready.configured
      noFault := hfault.trans h.ready.noFault
      cfg := hcfg
      geom := hgeom
      cycles := hcycles
      halted := rfl
      overflow := rfl
      finished := fun hfin => { hfinished hfin with }
      inFlight := fun hfin => { hflight hfin with } }⟩

/-- A request left in flight, off the budget's end, can be presented again. -/
theorem Serves.after_step {t : State} {xb : Bool} (hstep : RequestStep s t r xb) (hflight : InFlight s t r)
    (hrun : s.cycles + 1 ≠ s.cfg.budget) : Serves t r where
  inv := hstep.inv
  ready := ⟨hstep.configured, hstep.noFault, hstep.halted.trans (decide_eq_false hrun)⟩
  latched _ := hflight.latched
  inLine := by
    rw [hstep.cfg, hstep.geom]
    exact h.inLine

theorem Serves.withInputs (inputs : List PortInput) : Serves { s with inputs := inputs } r where
  inv := h.inv.withInputs inputs
  ready := { h.ready with }
  latched := h.latched
  inLine := h.inLine

end serves

/-! ## The steps of one request -/

/-- A run takes its first step, then the others. -/
theorem run_succ {s t : State} (h : step s = .next t) (k : Nat) :
    Host.Core.run core (k + 1) s = Host.Core.run core k t := by
  have hcore : core.step s = .next t := h
  simp only [Host.Core.run, hcore]

/-- A state whose next bundle is `p` presents it. -/
theorem present_of_inputs {s : State} {p : PortInput} {rest : List PortInput} (h : s.inputs = p :: rest) :
    ({ s with inputs := rest } : State).present p = s := by
  rw [State.present, ← h]

/-- From `s` the request `r` runs `k` steps: in flight after each but the last, then complete and counted. -/
structure RunsRequest (s : State) (r : Request) (k : Nat) : Prop where
  earlier : ∀ j, 0 < j → j < k → ∃ u : State, Host.Core.run core j s = .next u ∧
    u.busy = true ∧ u.complete = false ∧ u.fault = none ∧ u.cycles.toNat = s.cycles.toNat + j
  last : ∃ t : State, Host.Core.run core k s = .next t ∧
    t.busy = false ∧ t.complete = true ∧ t.fault = none ∧ t.cycles.toNat = s.cycles.toNat + k ∧
    t.hits = s.hits + hitDue s r.address ∧ t.misses = s.misses + missDue s r.address ∧
    (PendsFor s r → r.isWrite = true → t.rdata = s.rdata)

/-- A counted step within the budget counts one cycle, without a wrap. -/
theorem RequestStep.cycles_toNat {s t : State} {r : Request} {xb : Bool} (h : RequestStep s t r xb)
    (hlt : s.cycles.toNat < s.cfg.budget.toNat) : t.cycles.toNat = s.cycles.toNat + 1 := by
  have hbudget := s.cfg.budget.isLt
  rw [h.cycles]
  exact BitVec.toNat_add_of_lt (show s.cycles.toNat + 1 < 2 ^ 64 by omega)

/-- The step that finishes a request is a run of it. -/
theorem RunsRequest.of_finished {s t : State} {r : Request} {xb : Bool} (hstep : step s = .next t) (h : RequestStep s t r xb)
    (hfin : Finished s t r) (hlt : s.cycles.toNat < s.cfg.budget.toNat) : RunsRequest s r 1 where
  earlier j hpos hlt := by omega
  last := ⟨t, run_succ hstep 0, hfin.idle, hfin.complete, h.noFault, h.cycles_toNat hlt, hfin.hits, hfin.misses, hfin.rdata⟩

/-- A step that leaves a request in flight is the first of a run of it. -/
theorem RunsRequest.cons {s t : State} {r : Request} {xb : Bool} {k : Nat} (hstep : step s = .next t) (h : RequestStep s t r xb)
    (hflight : InFlight s t r) (hlt : s.cycles.toNat < s.cfg.budget.toNat) (hrun : RunsRequest t r k) :
    RunsRequest s r (k + 1) where
  earlier j hpos hj := by
    obtain ⟨j, rfl⟩ := Nat.exists_eq_add_one.2 hpos
    rw [run_succ hstep]
    rcases Nat.eq_zero_or_pos j with rfl | hj0
    · exact ⟨t, rfl, hflight.busy, hflight.complete, h.noFault, h.cycles_toNat hlt⟩
    · obtain ⟨u, hu, hbusy, hcomplete, hfault, hcycles⟩ := hrun.earlier j hj0 (by omega)
      exact ⟨u, hu, hbusy, hcomplete, hfault, by rw [hcycles, h.cycles_toNat hlt]; omega⟩
  last := by
    obtain ⟨u, hu, hidle, hcomplete, hfault, hcycles, hhits, hmisses, hrdata⟩ := hrun.last
    refine ⟨u, (run_succ hstep k).trans hu, hidle, hcomplete, hfault, ?_, hhits.trans hflight.hits,
      hmisses.trans hflight.misses, fun hp hw => (hrdata (hflight.pends hp) hw).trans hflight.rdata⟩
    rw [hcycles, h.cycles_toNat hlt]
    omega

/-- The words of a request that fits the budget run it, whatever `xb` is on its last step (R222). -/
theorem runsRequest_of_words {r : Request} (xbs : List Bool) {s : State} (h : Serves s r)
    (hinputs : s.inputs = xbs.map fun xb => portOf (holdWord r xb)) (hsteps : stepsLeft s r.address = xbs.length)
    (hfits : s.cycles.toNat + xbs.length ≤ s.cfg.budget.toNat) : RunsRequest s r xbs.length := by
  induction xbs generalizing s with
  | nil => exact absurd hsteps (stepsLeft_pos (h.inv.run h.ready.configured) _).ne'
  | cons xb xbs ih =>
    have hs := h.withInputs (xbs.map fun xb => portOf (holdWord r xb))
    have hpresent := present_of_inputs hinputs
    have hlast := finishesNow_iff (h.inv.run h.ready.configured) r
    rw [List.length_cons] at hsteps hfits ⊢
    rw [hsteps] at hlast
    cases hfin : finishesNow s r with
    | true =>
      obtain ⟨t, hstep, -, ht⟩ := hs.exists_step (xb := xb) (.inr (.inr hfin))
      rw [hpresent] at hstep
      rw [hlast.1 hfin]
      exact .of_finished hstep ht.of_withInputs { ht.finished hfin with } (by omega)
    | false =>
      have hmore : xbs.length + 1 ≠ 1 := fun he => by simp [hlast.2 he] at hfin
      have hrun : s.cycles + 1 ≠ s.cfg.budget := by bv_omega
      obtain ⟨t, hstep, hrest, ht⟩ := hs.exists_step (xb := xb) (.inl hrun)
      rw [hpresent] at hstep
      have ht : RequestStep s t r xb := ht.of_withInputs
      have hflight := ht.inFlight hfin
      have hleft := hflight.stepsLeft
      have hcycles := ht.cycles_toNat (by omega)
      exact .cons hstep ht hflight (by omega)
        (ih (h.after_step ht hflight hrun) hrest (by omega) (by rw [hcycles, ht.cfg]; omega))

/-- The words of a request that fits the budget are its word `k` times (R101). -/
theorem requestWords_eq_map {k cycles budget : Nat} (h : cycles + k ≤ budget) (r : Request) (more : Bool) :
    ∃ xbs : List Bool, xbs.length = k ∧ requestWords r k cycles budget more = xbs.map fun xb => portOf (holdWord r xb) := by
  refine ⟨(List.range k).map fun j => (cycles + j + 1 == budget) && (decide (j + 1 < k) || more), by simp, ?_⟩
  rw [requestWords, Nat.min_eq_left (by omega), List.map_map]
  rfl

/-- Settles O51: the words are as many as the steps that the request takes from an engine that is not busy. -/
theorem requestTakesItsCycles : Obligations.RequestTakesItsCycles := by
  intro s r more hinv hr hb hline k hk hfits
  obtain ⟨xbs, rfl, hwords⟩ := requestWords_eq_map hfits r more
  have hserves : Serves s r := ⟨hinv, hr, fun hbusy => by simp [hb] at hbusy, hline⟩
  have hsteps : stepsLeft s r.address = xbs.length := (stepsLeft_of_not_busy (hinv.run hr.configured) hb _).trans hk.symm
  obtain ⟨hearlier, t, ht, hidle, hcomplete, hfault, hcycles, hhits, hmisses, hrdata⟩ :=
    runsRequest_of_words xbs (hserves.withInputs _) hwords hsteps hfits
  obtain ⟨-, hwaitM⟩ : s.waitC = false ∧ s.waitM = false := by simpa [State.busy] using hb
  exact ⟨hearlier, t, ht, hidle, hcomplete, hfault, hcycles,
    hhits.trans (congrArg (s.hits + ·) (hitDue_of_no_memoryWait hwaitM _)),
    hmisses.trans (congrArg (s.misses + ·) (missDue_of_no_memoryWait hwaitM _)),
    hrdata fun hm => absurd (hwaitM.symm.trans hm) Bool.noConfusion⟩

end Sys2Proof.Machine
end

