-- ==== Sys2Proof/Proofs/DriveStream.lean ====
section
/-! One step of the driver `driveStream`. Its own equation lemmas are out of the kernel's reach: comparing the two sides of one, the
kernel evaluates `step` on a word of unknown bits. Here the step function is a variable wherever such a comparison is made. -/

namespace Sys2Proof.Machine

/-- What a driver makes of the requests not yet started and of the state. -/
abbrev Driver := List Request → State → Host.Outcome State Fault Refusal × List Request

/-- One step of a host that keeps its duties, with the step function `take`, before the driver `go` of the later ones (R238, R240). -/
def driveNext (take : State → Host.Outcome State Fault Refusal) (go : Driver) : Driver := fun stream s =>
  if s.halted || s.fault.isSome then (.next s, stream)
  else
    match hostWord s stream with
    | none => (.next s, stream)
    | some (i, rest) =>
      match take (s.present (portOf i)) with
      | .next t => go rest t
      | .fault r => (.fault r, rest)
      | .refused r => (.refused r, rest)

section driveNext

variable {take : State → Host.Outcome State Fault Refusal} {go : Driver} {stream : List Request} {s : State}

/-- The driver stops when the budget is used up. -/
theorem driveNext_of_halted (h : s.halted = true) : driveNext take go stream s = (.next s, stream) := by
  simp [driveNext, h]

/-- The driver stops when there is nothing left to present. -/
theorem driveNext_of_no_word (h : hostWord s stream = none) : driveNext take go stream s = (.next s, stream) := by
  simp [driveNext, h]

/-- The driver presents the host's next word and goes on. -/
theorem driveNext_of_word {rest : List Request} {t : State} {i : StepIn} (hrun : s.halted = false) (hfault : s.fault = none)
    (hword : hostWord s stream = some (i, rest)) (hstep : take (s.present (portOf i)) = .next t) :
    driveNext take go stream s = go rest t := by
  simp [driveNext, hrun, hfault, hword, hstep]

end driveNext

/-- Recursion on a successor runs the body once, on the recursion's results below. -/
theorem exists_brecOn_add_one_eq {motive : Nat → Type} (F : (n : Nat) → Nat.below (motive := motive) n → motive n) (n : Nat) :
    ∃ below : Nat.below (motive := motive) (n + 1),
      below.1 = Nat.brecOn n F ∧ Nat.brecOn (n + 1) F = F (n + 1) below :=
  ⟨(Nat.brecOn.go (n + 1) F).2, rfl, Nat.brecOn.eq (n + 1) F⟩

/-- The body of `driveStream` on a successor is one step of the host. -/
theorem driveStream_body_add_one (n : Nat) (below : Nat.below (motive := fun _ => Driver) (n + 1)) :
    driveStream._f (n + 1) below = driveNext step below.1 := by
  obtain ⟨take, htake⟩ : ∃ take, take = step := ⟨step, rfl⟩
  obtain ⟨body, hbody⟩ : ∃ body, body = driveStream._f := ⟨driveStream._f, rfl⟩
  rw [← hbody, ← htake]
  delta driveStream._f at hbody
  rw [← htake] at hbody
  subst hbody
  rfl

/-- With fuel left `driveStream` takes one step of the host. -/
theorem driveStream_add_one (fuel : Nat) : driveStream (fuel + 1) = driveNext step (driveStream fuel) := by
  have hrec : ∀ n, driveStream n = Nat.brecOn n driveStream._f := fun n => by
    delta driveStream
    rfl
  obtain ⟨below, hbelow, hnext⟩ := exists_brecOn_add_one_eq driveStream._f fuel
  rw [hrec, hrec, hnext, driveStream_body_add_one, hbelow]

end Sys2Proof.Machine
end

