-- ==== Sys2Proof/Proofs/DutifulHost.lean ====
section
/-! The run of a host that keeps its duties (44_timing_engine.md R238 to R240; 70_reset_and_hazards.md R331): it reaches the run's
end, and the sentinel is reported exactly when a request is left. -/

namespace Sys2Proof.Machine

/-- A dutiful host's run stands at `s` with the requests of `stream` not yet started: no step has raised, and once the budget is
used up the sentinel is latched exactly when a request is left (R239). -/
structure Driving (s : State) (stream : List Request) : Prop where
  inv : Inv s
  configured : s.configured = true
  noFault : s.fault = none
  overflow : s.halted = true → s.overflow = (s.busy || !stream.isEmpty)
  streamInLine : ∀ r ∈ stream, crossesLine s.cfg s.geom r.address = false
  latchedInLine : ∀ r, s.latched = some r → crossesLine s.cfg s.geom r.address = false

/-- The steps that the request in flight still takes. -/
def flightLeft (s : State) : Nat := s.latched.elim 0 fun r => stepsLeft s r.address

/-- The steps that the run still takes at the most: those of the request in flight, and those of a miss for each later one. -/
def workLeft (s : State) (stream : List Request) : Nat := flightLeft s + stream.length * requestSteps s.cfg false

theorem requestSteps_le_miss (c : RunConfig) (hit : Bool) : requestSteps c hit ≤ requestSteps c false := by
  cases hit <;> simp [requestSteps]

/-- A step finishes the request or leaves it in flight. -/
theorem RequestStep.busy_eq {s t : State} {r : Request} {xb : Bool} (h : RequestStep s t r xb) :
    t.busy = !finishesNow s r := by
  cases hfin : finishesNow s r with
  | true => exact (h.finished hfin).idle
  | false => exact (h.inFlight hfin).busy

/-- What a step leaves latched is the request itself, with one step less to go. -/
theorem RequestStep.latched_cases {s t : State} {r : Request} {xb : Bool} (h : RequestStep s t r xb) :
    t.latched = none ∨ (t.latched = some r ∧ stepsLeft t r.address + 1 = stepsLeft s r.address) := by
  cases hfin : finishesNow s r with
  | true => exact .inl ((h.inv.run h.configured).latchedExactly.2 (h.finished hfin).idle)
  | false => exact .inr ⟨(h.inFlight hfin).latched, (h.inFlight hfin).stepsLeft⟩

/-- On the final budget step the dutiful `xb` sets the sentinel exactly when a request is left (70_reset_and_hazards.md R331). -/
theorem RequestStep.overflow_eq {s t : State} {r : Request} {rest : List Request} (h : RequestStep s t r (dutifulXb s r rest))
    (hov : s.overflow = false) (hhalted : t.halted = true) : t.overflow = (t.busy || !rest.isEmpty) := by
  have hfinal : s.cycles + 1 = s.cfg.budget := of_decide_eq_true (h.halted.symm.trans hhalted)
  rw [h.overflow, h.busy_eq, hov, decide_eq_true hfinal, dutifulXb, beq_iff_eq.2 hfinal, Bool.false_or, Bool.true_and, Bool.true_and]

/-- The dutiful `xb` keeps every step from raising. -/
theorem dutifulXb_signals (s : State) (r : Request) (rest : List Request) :
    s.cycles + 1 ≠ s.cfg.budget ∨ dutifulXb s r rest = true ∨ finishesNow s r = true := by
  by_cases hfinal : s.cycles + 1 = s.cfg.budget
  · cases hfin : finishesNow s r with
    | true => exact .inr (.inr rfl)
    | false => exact .inr (.inl (by rw [dutifulXb, hfin, beq_iff_eq.2 hfinal]; rfl))
  · exact .inl hfinal

section driving

variable {s : State} {stream : List Request} (h : Driving s stream)
include h

theorem Driving.runInv : RunInv s := h.inv.run h.configured

/-- The host presents a request to an engine that serves it, unless none is left; the work left allows for the request's steps. -/
theorem Driving.hostWord_cases (hrun : s.halted = false) :
    (stream = [] ∧ s.busy = false ∧ hostWord s stream = none) ∨
      ∃ r rest, hostWord s stream = some (holdWord r (dutifulXb s r rest), rest) ∧ Serves s r ∧ (∀ q ∈ rest, q ∈ stream) ∧
        stepsLeft s r.address + rest.length * requestSteps s.cfg false ≤ workLeft s stream := by
  have hready : s.Ready := ⟨h.configured, h.noFault, hrun⟩
  cases hb : s.busy with
  | true =>
    obtain ⟨r, hr⟩ : ∃ r, s.latched = some r :=
      Option.ne_none_iff_exists'.1 fun hnone => by simp [h.runInv.latchedExactly.1 hnone] at hb
    exact .inr ⟨r, stream, by simp [hostWord, hb, hr], ⟨h.inv, hready, fun _ => hr, h.latchedInLine r hr⟩, fun _ hq => hq,
      by simp [workLeft, flightLeft, hr]⟩
  | false =>
    cases stream with
    | nil => exact .inl ⟨rfl, rfl, by simp [hostWord, hb]⟩
    | cons r rest =>
      have hsteps := stepsLeft_of_not_busy h.runInv hb r.address
      have hmiss := requestSteps_le_miss s.cfg (wouldHit s r.address)
      refine .inr ⟨r, rest, by simp [hostWord, hb],
        ⟨h.inv, hready, fun hbusy => by simp [hb] at hbusy, h.streamInLine r (by simp)⟩, fun q hq => by simp [hq], ?_⟩
      rw [workLeft, List.length_cons, Nat.succ_mul, hsteps]
      omega

/-- A step of the dutiful host goes on with the run and brings it nearer its end. -/
theorem Driving.after_step {t : State} {r : Request} {rest : List Request} (hrun : s.halted = false)
    (hrest : ∀ q ∈ rest, q ∈ stream) (hserves : Serves s r) (ht : RequestStep s t r (dutifulXb s r rest)) :
    Driving t rest ∧ workLeft t rest < stepsLeft s r.address + rest.length * requestSteps s.cfg false := by
  have hov : s.overflow = false := by simpa [hrun] using h.runInv.overflowHalted
  have hlatched := ht.latched_cases
  constructor
  · exact
      { inv := ht.inv
        configured := ht.configured
        noFault := ht.noFault
        overflow := ht.overflow_eq hov
        streamInLine := by
          rw [ht.cfg, ht.geom]
          exact fun q hq => h.streamInLine q (hrest q hq)
        latchedInLine := by
          rw [ht.cfg, ht.geom]
          intro q hq
          rcases hlatched with hnone | ⟨hsome, -⟩
          · simp [hnone] at hq
          · obtain rfl : r = q := Option.some.inj (hsome.symm.trans hq)
            exact hserves.inLine }
  · have hpos := stepsLeft_pos h.runInv r.address
    rw [workLeft, ht.cfg]
    rcases hlatched with hnone | ⟨hsome, hsteps⟩
    · simpa [flightLeft, hnone] using hpos
    · simp only [flightLeft, hsome, Option.elim_some]
      omega

/-- A run with no work left has presented every request and has none in flight. -/
theorem Driving.done_of_no_work (hwork : workLeft s stream = 0) : stream = [] ∧ s.busy = false := by
  obtain ⟨hflight, hstream⟩ := Nat.add_eq_zero_iff.1 hwork
  have hmiss : requestSteps s.cfg false ≠ 0 := Nat.succ_ne_zero _
  refine ⟨List.length_eq_zero_iff.1 ((Nat.mul_eq_zero.1 hstream).resolve_right hmiss), h.runInv.latchedExactly.1 ?_⟩
  refine Option.eq_none_iff_forall_ne_some.2 fun r hr => ?_
  rw [flightLeft, hr, Option.elim_some] at hflight
  exact (stepsLeft_pos h.runInv r.address).ne' hflight

end driving

/-- A dutiful host drives its stream to the end of the run, and needs no more steps than the work left (R238, R240). -/
theorem driveStream_ends (fuel : Nat) {s : State} {stream : List Request} (h : Driving s stream)
    (hwork : workLeft s stream ≤ fuel) :
    ∃ t left, driveStream fuel stream s = (.next t, left) ∧ Driving t left ∧ runEnded t left = true ∧ t.cfg = s.cfg := by
  induction fuel generalizing s stream with
  | zero =>
    obtain ⟨rfl, hbusy⟩ := h.done_of_no_work (Nat.le_zero.1 hwork)
    exact ⟨s, [], rfl, h, by simp [runEnded, h.noFault, hbusy], rfl⟩
  | succ fuel ih =>
    rw [driveStream_add_one]
    cases hrun : s.halted with
    | true => exact ⟨s, stream, driveNext_of_halted hrun, h, by simp [runEnded, h.noFault, hrun], rfl⟩
    | false =>
      rcases h.hostWord_cases hrun with ⟨rfl, hbusy, hword⟩ | ⟨r, rest, hword, hserves, hrest, hleft⟩
      · exact ⟨s, [], driveNext_of_no_word hword, h, by simp [runEnded, h.noFault, hbusy], rfl⟩
      · obtain ⟨t, hstep, -, ht⟩ := hserves.exists_step (dutifulXb_signals s r rest)
        obtain ⟨hdriving, hless⟩ := h.after_step hrun hrest hserves ht
        obtain ⟨u, left, hdrive, hu, hend, hcfg⟩ := ih hdriving (by omega)
        exact ⟨u, left, (driveNext_of_word hrun h.noFault hword hstep).trans hdrive, hu, hend, hcfg.trans ht.cfg⟩

/-- At the end of a dutiful host's run the sentinel is reported exactly when a request is left (R236, R239). -/
theorem Driving.reported {t : State} {left : List Request} (h : Driving t left) (hend : runEnded t left = true) :
    ((left ≠ [] ∨ t.busy = true) → t.out.cycles.toNat = 2 ^ 64 - 2 ∧ t.cycles = t.cfg.budget) ∧
      ((left = [] ∧ t.busy = false) → t.out.cycles = t.cycles ∧ t.out.cycles.toNat ≤ t.cfg.budget.toNat) := by
  have hrun := h.runInv
  have hended : t.halted = true ∨ (left = [] ∧ t.busy = false) := by simpa [runEnded, h.noFault] using hend
  constructor
  · intro hleft
    have hhalted : t.halted = true := hended.resolve_right fun ⟨hnil, hidle⟩ => by simp [hnil, hidle] at hleft
    have hov : t.overflow = true := (h.overflow hhalted).trans (by
      rcases hleft with hne | hbusy <;> simp [*])
    exact ⟨congrArg BitVec.toNat (reportedCycles_of_overflow hov), hrun.haltedExactly.1 hhalted⟩
  · rintro ⟨rfl, hidle⟩
    have hov : t.overflow = false := by
      cases hhalted : t.halted with
      | true => simpa [hidle] using h.overflow hhalted
      | false => simpa [hhalted] using hrun.overflowHalted
    have hreported := reportedCycles_of_no_overflow hov
    exact ⟨hreported, (congrArg BitVec.toNat hreported).trans_le hrun.cyclesBound⟩

/-- Settles O52: the run that begins with nothing in flight is driven to its end. -/
theorem overflowReportedExactlyWhenUnfinished : Obligations.OverflowReportedExactlyWhenUnfinished := by
  intro s stream fuel hinv hr hb hline hfuel
  have hnone : s.latched = none := (hinv.run hr.configured).latchedExactly.2 hb
  have hdriving : Driving s stream :=
    { inv := hinv, configured := hr.configured, noFault := hr.noFault
      overflow := fun hh => by simp [hr.running] at hh
      streamInLine := hline
      latchedInLine := fun r hl => by simp [hnone] at hl }
  obtain ⟨t, left, hdrive, ht, hend, hcfg⟩ := driveStream_ends fuel hdriving (by simpa [workLeft, flightLeft, hnone] using hfuel)
  exact ⟨t, left, hdrive, hend, hcfg ▸ ht.reported hend⟩

end Sys2Proof.Machine
end

