-- ==== Sys2Proof/Proofs/CostModel.lean ====
section
/-! The cost model (45_cost_model.md R261): its closed forms (R262) and the bound that keeps it in its register (R263). -/

namespace Sys2Proof.Machine

/-- The closed form of the direct-mapped cost (R262), for any geometry. -/
theorem gateCountNat_dm {c : RunConfig} (hp : c.policy = .dm) (g : Geometry) :
    gateCountNat c g = 32 * c.numLines.toNat * c.lineSize.toNat + 5 * c.numLines.toNat + 2 * g.tagBits * c.numLines.toNat := by
  simp only [gateCountNat, hp]
  ring

/-- The closed form of the four-way cost (R262), for any geometry: the ages cost 80 gates a line more. -/
theorem gateCountNat_w4 {c : RunConfig} (hp : c.policy = .w4) (g : Geometry) :
    gateCountNat c g = 32 * c.numLines.toNat * c.lineSize.toNat + 5 * c.numLines.toNat + 2 * g.tagBits * c.numLines.toNat
      + 80 * c.numLines.toNat := by
  simp only [gateCountNat, hp]
  ring

/-- The ages are the only cost that the policy decides, so the four-way form bounds both. -/
theorem gateCountNat_le (c : RunConfig) (g : Geometry) :
    gateCountNat c g ≤ 32 * (c.numLines.toNat * c.lineSize.toNat) + 85 * c.numLines.toNat
      + 2 * (g.tagBits * c.numLines.toNat) := by
  cases hp : c.policy with
  | dm => rw [gateCountNat_dm hp, Nat.mul_assoc, Nat.mul_assoc]; omega
  | w4 => rw [gateCountNat_w4 hp, Nat.mul_assoc, Nat.mul_assoc]; omega

namespace LegalRecord

variable {c : RunConfig}

/-- A set has at most four lines (R11). -/
theorem numLines_le_four_mul_numSets (h : LegalRecord c) : c.numLines.toNat ≤ 4 * (deriveGeometry c).numSets := by
  cases hp : c.policy with
  | dm =>
    have hsets : (deriveGeometry c).numSets = c.numLines.toNat := numSetsOf_dm hp
    omega
  | w4 => exact (h.four_mul_numSets hp).ge

/-- A legal cache holds at most `4 * 2^16` bytes: each of the four ways of its sets at most the whole address space. -/
theorem numLines_mul_lineSize_le (h : LegalRecord c) : c.numLines.toNat * c.lineSize.toNat ≤ 4 * 2 ^ 16 := by
  have hbits := h.bits_le_sixteen
  calc c.numLines.toNat * c.lineSize.toNat
      ≤ 4 * (deriveGeometry c).numSets * c.lineSize.toNat := Nat.mul_le_mul_right _ h.numLines_le_four_mul_numSets
    _ = 4 * 2 ^ ((deriveGeometry c).indexBits + (deriveGeometry c).offsetBits) := by
      rw [h.numSets_eq, h.lineSize_eq, pow_add, Nat.mul_assoc]
    _ ≤ 4 * 2 ^ 16 := Nat.mul_le_mul_left _ (Nat.pow_le_pow_right (by decide) (by omega))

/-- The gates of a legal cache are fewer than `2^24` (R263): a line holds at least a word, so the bound on the bytes bounds the
lines too, and a tag has at most 14 bits. -/
theorem gateCountNat_lt (h : LegalRecord c) : gateCountNat c (deriveGeometry c) < 2 ^ 24 := by
  have hcost := gateCountNat_le c (deriveGeometry c)
  have hbytes := h.numLines_mul_lineSize_le
  have hword : 4 ≤ c.lineSize.toNat := by
    have hne := h.lineSize_ne_zero
    have hmod := h.lineSize_mod_four
    omega
  have hlines : c.numLines.toNat * 4 ≤ c.numLines.toNat * c.lineSize.toNat := Nat.mul_le_mul_left _ hword
  have htag : (deriveGeometry c).tagBits ≤ 14 := by
    have hsum := h.bits_sum
    have hoffset := h.two_le_offsetBits
    omega
  have htags : (deriveGeometry c).tagBits * c.numLines.toNat ≤ 14 * c.numLines.toNat := Nat.mul_le_mul_right _ htag
  omega

/-- The register that a successful RESET writes holds the exact cost: the 64 bits do not truncate it (R263). -/
theorem startRun_gateCount_toNat (h : LegalRecord c) (s : State) :
    (startRun c s).gateCount.toNat = gateCountNat c (deriveGeometry c) :=
  Nat.mod_eq_of_lt (h.gateCountNat_lt.trans (by decide))

end LegalRecord

/-- Settles O10, from the closed forms of the cost and its bound for a legal configuration. -/
theorem resetComputesTheGateCount : Obligations.ResetComputesTheGateCount := by
  intro c s hc
  have h : LegalRecord c := (legality_eq_none_iff c).mp hc
  refine ⟨startRun c s, exec_reset_of_legal hc s, ?_⟩
  rw [h.startRun_gateCount_toNat s]
  exact ⟨fun hp => gateCountNat_dm hp _, fun hp => gateCountNat_w4 hp _, h.gateCountNat_lt⟩

/-- Settles O11, by the closed form of the direct-mapped cost at `N = L = 8` and 10 tag bits. -/
theorem gateCountWorkedExample : Obligations.GateCountWorkedExample := by
  intro cL mL b
  have htag : (deriveGeometry ⟨.dm, 8, 8, cL, mL, b⟩).tagBits = 10 := by
    have hlog : Nat.log2 8 = 3 := Nat.log2_two_pow (n := 3)
    simp [deriveGeometry, numSetsOf, Config.addressWidth, hlog]
  refine ⟨htag, ?_⟩
  rw [gateCountNat_dm rfl, htag]
  rfl

end Sys2Proof.Machine
end

