-- ==== Sys2Proof/Proofs/Exceptions.lean ====
section
/-! Errors (60_exceptions.md R280 to R289): an engine that is not configured refuses, a faulted one is frozen, a failed RESET leaves
both; and an engine that meets the invariant answers every presented bundle. -/

namespace Sys2Proof.Machine

/-! ## Engines that reach no command -/

/-- An engine that is not configured refuses before it looks at its fault record or at the word (R288, R289). -/
theorem engineStep_unconfigured {s : State} (hc : s.configured = false) (i : StepIn) :
    engineStep i s = .refused .notConfigured := by
  simp [engineStep, hc]

/-- Settles O12: every command but RESET is the step function, whose first test is `configured`. -/
theorem unconfiguredEngineRefuses : Obligations.UnconfiguredEngineRefuses := by
  intro i s hi hc
  rw [exec_eq_engineStep i s hi, engineStep_unconfigured hc]

/-- Settles O13: the fault is the first test of a configured engine. -/
theorem faultedEngineIsFrozen : Obligations.FaultedEngineIsFrozen := by
  intro i s f hi hc hf
  rw [exec_eq_engineStep i s hi, engineStep_faulted hc (Option.isSome_of_eq_some hf)]

/-! ## RESET -/

/-- RESET with an illegal configuration reports the check (R281; 70_reset_and_hazards.md R310). -/
theorem exec_reset_of_illegal {c : RunConfig} {k : ConfigCheck} (h : legality c = some k) (s : State) :
    exec (.reset c) s = .next (rejectConfig k s) := by
  simp [exec, execReset, h]

/-- RESET has a next state from every state (70_reset_and_hazards.md R310). -/
theorem exists_exec_reset (c : RunConfig) (s : State) : ∃ t, exec (.reset c) s = .next t := by
  rcases execReset_cases c s with ⟨-, h⟩ | ⟨k, -, h⟩ <;> exact ⟨_, h⟩

/-- Settles O7: the rejected engine is not configured, so O12 is about it. -/
theorem illegalResetIsRejected : Obligations.IllegalResetIsRejected := by
  intro c s k hk
  obtain ⟨hconf, hfault, hout, -⟩ := rejectConfig_fields k s
  exact ⟨rejectConfig k s, exec_reset_of_illegal hk s, hconf, hfault, hout, faultCode_of_some hfault,
    fun i hi => unconfiguredEngineRefuses i _ hi hconf⟩

/-! ## No step stops -/

/-- An access cycle finds the slot it looks up: it completes or raises LineCross. -/
theorem accessCycle_ne_broken {i : StepIn} {s : State} (hc : ConfigInv s) (hs : StorageInv s) (f : Fault) :
    accessCycle i s ≠ .broken f := by
  cases hline : crossesLine s.cfg s.geom i.addr with
  | true => simp [accessCycle_of_crossesLine hline]
  | false =>
    have hc' : ConfigInv (endCacheWait s) := ⟨hc.legal, hc.geometry, hc.cost⟩
    have hs' : StorageInv (endCacheWait s) := hs.congr rfl rfl rfl rfl rfl rfl
    obtain ⟨word, hit, t, hacc, -⟩ := access_returns (req := requestOf i) hc' hs' hline
    simp [accessCycle, hacc]

/-- Only the access cycle reads the storage (44_timing_engine.md R213 to R215). -/
theorem cycle_ne_broken {i : StepIn} {s : State} (hc : ConfigInv s) (hs : StorageInv s) (f : Fault) : cycle i s ≠ .broken f := by
  unfold cycle
  split_ifs
  · exact CycleResult.noConfusion
  · exact CycleResult.noConfusion
  · exact accessCycle_ne_broken hc hs f

/-- A counted step of an engine that meets the invariant has a next state. -/
theorem RunInv.exists_countedStep {s : State} (h : RunInv s) (i : StepIn) : ∃ t, countedStep i s = .next t := by
  have hc : ConfigInv (openStep i s) := { h.config with }
  have hs : StorageInv (openStep i s) := h.storage.congr rfl rfl rfl rfl rfl rfl
  cases hcycle : cycle i (openStep i s) with
  | ok t => simp [countedStep, hcycle]
  | raised f now => simp [countedStep, hcycle]
  | broken f => exact absurd hcycle (cycle_ne_broken hc hs f)

/-- A busy engine whose request is not held raises (70_reset_and_hazards.md R330). -/
theorem engineStep_unheld {i : StepIn} {s : State} {q : Request} (hr : s.Ready) (hb : s.busy = true) (hq : s.latched = some q)
    (hh : requestHeld i q = false) : engineStep i s = .next (raise s s (.requestNotHeld i.bits)) := by
  simp [engineStep, hr.configured, hr.noFault, hr.running, hb, hq, hh]

/-- An engine that takes commands and meets the invariant answers every word: a busy one has a request latched (10_state.md R44
item 7). -/
theorem RunInv.exists_engineStep_of_ready {s : State} (h : RunInv s) (hr : s.Ready) (i : StepIn) : ∃ t, engineStep i s = .next t := by
  cases hb : s.busy with
  | true =>
    cases hq : s.latched with
    | none => simp [h.latchedExactly.1 hq] at hb
    | some q =>
      cases hh : requestHeld i q with
      | true => rw [engineStep_held hr hb hq hh]; exact h.exists_countedStep i
      | false => exact ⟨_, engineStep_unheld hr hb hq hh⟩
  | false =>
    cases hv : i.v with
    | true => rw [engineStep_start hr hb hv]; exact h.exists_countedStep i
    | false => exact ⟨_, engineStep_idle hr hb hv⟩

/-- A configured engine that meets the invariant answers every word: a faulted or halted one without running a command (R289). -/
theorem RunInv.exists_engineStep {s : State} (h : RunInv s) (hconf : s.configured = true) (i : StepIn) :
    ∃ t, engineStep i s = .next t := by
  cases hfault : s.fault with
  | some f => exact ⟨_, engineStep_faulted hconf (Option.isSome_of_eq_some hfault) i⟩
  | none =>
    cases hhalt : s.halted with
    | true => exact ⟨_, engineStep_halted hconf hfault hhalt i⟩
    | false => exact h.exists_engineStep_of_ready ⟨hconf, hfault, hhalt⟩ i

/-- Settles O50: a RESET is accepted in every state, and any other command is the step function of a configured engine. -/
theorem presentedStepsNeverStop : Obligations.PresentedStepsNeverStop := by
  intro s p rest hinv hin hor
  rw [step_of_fetch (fetch_cons s p rest hin)]
  by_cases hi : ∀ c, decode s.busy p ≠ .reset c
  · have hconf : s.configured = true := hor.resolve_right fun hrst => hi _ (decode_of_rst rfl hrst)
    obtain ⟨t, ht⟩ := ((hinv.withInputs rest).run hconf).exists_engineStep hconf (decode s.busy p).stepIn
    exact ⟨t, (exec_eq_engineStep _ _ hi).trans ht⟩
  · push Not at hi
    obtain ⟨c, hc⟩ := hi
    obtain ⟨t, ht⟩ := exists_exec_reset c { s with inputs := rest }
    exact ⟨t, (congrArg (exec · _) hc).trans ht⟩

end Sys2Proof.Machine
end

