-- ==== Sys2Proof/Proofs/RunCycles.lean ====
section
/-! The cycles of a run (70_reset_and_hazards.md R340, R341): what the counters will show when the request in flight is finished grows
by one request's steps with each request that starts; a request that runs past the end of its line is never finished. -/

namespace Sys2Proof.Machine

/-! ## What every step of a driver keeps -/

/-- A driver that answers a state stopped there at once, or presented the host's next word and went on (R238, R240). -/
theorem driveNext_cases {take : State → Host.Outcome State Fault Refusal} {go : Driver} {stream left : List Request}
    {s t : State} (h : driveNext take go stream s = (.next t, left)) :
    (t = s ∧ left = stream) ∨
      ∃ i rest u, s.halted = false ∧ s.fault = none ∧ hostWord s stream = some (i, rest) ∧
        take (s.present (portOf i)) = .next u ∧ go rest u = (.next t, left) := by
  unfold driveNext at h
  split at h
  · exact .inl (by simpa [eq_comm] using h)
  · rename_i hstop
    obtain ⟨hrun, hfault⟩ : s.halted = false ∧ s.fault = none := by simpa using hstop
    split at h
    · exact .inl (by simpa [eq_comm] using h)
    · rename_i i rest hword
      split at h
      · rename_i u hu
        exact .inr ⟨i, rest, u, hrun, hfault, hword, hu, h⟩
      · simp at h
      · simp at h

/-- The host's word repeats the request in flight, or starts the next one of the stream (R240). -/
theorem hostWord_some {s : State} {stream rest : List Request} {i : StepIn} (h : hostWord s stream = some (i, rest)) :
    ∃ r, i = holdWord r (dutifulXb s r rest) ∧
      ((s.busy = true ∧ s.latched = some r ∧ stream = rest) ∨ (s.busy = false ∧ stream = r :: rest)) := by
  unfold hostWord at h
  split_ifs at h with hb
  · cases hr : s.latched with
    | none => simp [hr] at h
    | some r =>
      obtain ⟨rfl, rfl⟩ : holdWord r (dutifulXb s r stream) = i ∧ stream = rest := by simpa [hr] using h
      exact ⟨r, rfl, .inl ⟨hb, rfl, rfl⟩⟩
  · cases stream with
    | nil => simp at h
    | cons r later =>
      obtain ⟨rfl, rfl⟩ : holdWord r (dutifulXb s r later) = i ∧ later = rest := by simpa using h
      exact ⟨r, rfl, .inr ⟨by simpa using hb, rfl⟩⟩

/-- What every step of the host keeps holds of the state in which the run stops. -/
theorem driveStream_keeps {P : State → List Request → Prop}
    (hstep : ∀ {s t : State} {stream rest : List Request} {i : StepIn}, P s stream → s.halted = false → s.fault = none →
      hostWord s stream = some (i, rest) → step (s.present (portOf i)) = .next t → P t rest)
    (fuel : Nat) {s t : State} {stream left : List Request} (h : P s stream)
    (hdrive : driveStream fuel stream s = (.next t, left)) : P t left := by
  induction fuel generalizing s stream with
  | zero =>
    have hstop : driveStream 0 stream s = (.next s, stream) := rfl
    obtain ⟨hs, rfl⟩ := Prod.mk.inj (hstop.symm.trans hdrive)
    exact Host.Outcome.next.inj hs ▸ h
  | succ fuel ih =>
    rw [driveStream_add_one] at hdrive
    rcases driveNext_cases hdrive with ⟨rfl, rfl⟩ | ⟨i, rest, u, hrun, hfault, hword, htake, hgo⟩
    · exact h
    · exact ih (hstep h hrun hfault hword htake) hgo

/-! ## A request that runs past the end of its line -/

/-- The request in flight runs past the end of its line and waits for the cache: its access cycle can only raise (20_memory.md R70). -/
structure Stuck (s : State) (r : Request) : Prop where
  latched : s.latched = some r
  waitC : s.waitC = true
  waitM : s.waitM = false
  crosses : crossesLine s.cfg s.geom r.address = true

theorem Stuck.busy {s : State} {r : Request} (h : Stuck s r) : s.busy = true := by
  simp [State.busy, h.waitC]

/-- No cycle of a stuck request but the cache wait ends without a raise. -/
theorem Stuck.after_cycle {s u : State} {r : Request} {xb : Bool} (h : Stuck s r)
    (hy : cycle (holdWord r xb) (openStep (holdWord r xb) s) = .ok u) : Stuck u r := by
  rcases cycle_ok hy with ⟨hm, -⟩ | ⟨-, -, rfl⟩ | ⟨-, -, ha⟩
  · simp [h.waitM] at hm
  · exact ⟨by simp [h.busy, h.latched], rfl, h.waitM, h.crosses⟩
  · have hcross : crossesLine (openStep (holdWord r xb) s).cfg (openStep (holdWord r xb) s).geom (holdWord r xb).addr = true :=
      h.crosses
    simp [accessCycle_of_crossesLine hcross] at ha

/-- A stuck request stays in flight, whatever its step does. -/
theorem Stuck.after_step {s t : State} {r : Request} {xb : Bool} (h : Stuck s r)
    (hstep : step (s.present (portOf (holdWord r xb))) = .next t) : Stuck t r := by
  rw [step_present_holdWord] at hstep
  rcases engineStep_sorted hstep with ⟨-, ⟨-, rfl⟩ | ⟨-, -, rfl⟩⟩ | ⟨-, hb, -⟩ | ⟨-, now, f, rfl⟩ | ⟨-, -, u, hy, ht⟩
  · exact { h with }
  · exact { h with }
  · simp [h.busy] at hb
  · exact { h with }
  · have hu := h.after_cycle hy
    rcases ht with ⟨-, rfl⟩ | ⟨-, -, rfl⟩
    · exact hu
    · exact { hu with }

/-- A request past the end of its line waits for the cache first, so it is stuck from its first step on. -/
theorem Stuck.of_start {s t : State} {r : Request} {rest : List Request} (hrun : RunInv s) (hr : s.Ready) (hb : s.busy = false)
    (hcross : crossesLine s.cfg s.geom r.address = true)
    (hstep : step (s.present (portOf (holdWord r (dutifulXb s r rest)))) = .next t) : Stuck t r := by
  obtain ⟨hwaitC, hm⟩ : s.waitC = false ∧ s.waitM = false := by simpa [State.busy] using hb
  have hc : s.ccnt ≠ 0 := fun hzero =>
    hrun.config.legal.cacheLatency_ne_zero (by rw [← hrun.ccntIdle hwaitC, hzero]; rfl)
  have hfin : finishesNow s r = false := by simpa [finishesNow, hm] using fun hzero => absurd hzero hc
  have hsig := (dutifulXb_signals s r rest).imp_right fun h => h.resolve_right (by simp [hfin])
  rw [step_present_holdWord, engineStep_start hr hb rfl,
    countedStep_eq_budgetPassed (cycle_of_cacheWait hm hc) hr (hsig.imp_right .inl)] at hstep
  obtain rfl := Host.Outcome.next.inj hstep
  exact ⟨by simp [budgetPassed, hb, requestOf, holdWord], rfl, hm, hcross⟩

/-! ## The tally of a run -/

/-- A count of cycles, hits and misses. -/
structure Tally where
  cycles : Nat
  hits : Nat
  misses : Nat

/-- The tally with the requests of `h` hits and `m` misses added (70_reset_and_hazards.md R340). -/
def Tally.add (n : Tally) (c : RunConfig) (h m : Nat) : Tally where
  cycles := n.cycles + h * requestSteps c true + m * requestSteps c false
  hits := n.hits + h
  misses := n.misses + m

/-- The counters as they stand (10_state.md R33). -/
def counters (s : State) : Tally := ⟨s.cycles.toNat, s.hits.toNat, s.misses.toNat⟩

/-- The counters as the request `r` will leave them, from the state before its next step. -/
def countersAfter (s : State) (r : Request) : Tally where
  cycles := s.cycles.toNat + stepsLeft s r.address
  hits := (s.hits + hitDue s r.address).toNat
  misses := (s.misses + missDue s r.address).toNat

/-- The counters as the request in flight, if there is one, will leave them. -/
def tally (s : State) : Tally := s.latched.elim (counters s) (countersAfter s)

theorem tally_of_not_busy {s : State} (h : RunInv s) (hb : s.busy = false) : tally s = counters s := by
  rw [tally, h.latchedExactly.2 hb, Option.elim_none]

theorem tally_of_latched {s : State} {r : Request} (h : s.latched = some r) : tally s = countersAfter s r := by
  rw [tally, h, Option.elim_some]

theorem tally_cycles (s : State) : (tally s).cycles = s.cycles.toNat + flightLeft s := by
  cases h : s.latched <;> simp [tally, flightLeft, counters, countersAfter, h]

/-- An engine that is running has not used up its budget (10_state.md R35). -/
theorem RunInv.cycles_lt_budget {s : State} (h : RunInv s) (hrun : s.halted = false) : s.cycles.toNat < s.cfg.budget.toNat := by
  have hne : s.cycles.toNat ≠ s.cfg.budget.toNat := fun he => by
    simp [h.haltedExactly.2 (BitVec.eq_of_toNat_eq he)] at hrun
  have hle := h.cyclesBound
  omega

/-- A step takes nothing from what its request will leave, and adds nothing to it. -/
theorem RequestStep.tally_eq {s t : State} {r : Request} {xb : Bool} (h : RequestStep s t r xb) (hrun : RunInv s)
    (hlt : s.cycles.toNat < s.cfg.budget.toNat) : tally t = countersAfter s r := by
  have hcycles := h.cycles_toNat hlt
  have hlast := finishesNow_iff hrun r
  cases hfin : finishesNow s r with
  | true =>
    obtain ⟨hidle, -, hhits, hmisses, -⟩ := h.finished hfin
    rw [tally_of_not_busy (h.inv.run h.configured) hidle, counters, countersAfter, hcycles, hlast.1 hfin, hhits, hmisses]
  | false =>
    have hflight := h.inFlight hfin
    have hsteps : t.cycles.toNat + stepsLeft t r.address = s.cycles.toNat + stepsLeft s r.address := by
      rw [hcycles, ← hflight.stepsLeft]
      omega
    rw [tally_of_latched hflight.latched, countersAfter, countersAfter, hsteps, hflight.hits, hflight.misses]

/-- A request that starts adds a hit's steps or a miss's (R340). -/
theorem countersAfter_of_start {s : State} {r : Request} (h : RunInv s) (hrun : s.halted = false) (hb : s.busy = false) :
    countersAfter s r = (counters s).add s.cfg (wouldHit s r.address).toNat (!wouldHit s r.address).toNat := by
  obtain ⟨-, hm⟩ : s.waitC = false ∧ s.waitM = false := by simpa [State.busy] using hb
  have hcycles := h.cycles_lt_budget hrun
  have haccesses := h.accessesBound
  have hbudget := s.cfg.budget.isLt
  have hhits : s.hits.toNat + 1 < 2 ^ 64 := by omega
  have hmisses : s.misses.toNat + 1 < 2 ^ 64 := by omega
  rw [countersAfter, stepsLeft_of_not_busy h hb, hitDue_of_no_memoryWait hm, missDue_of_no_memoryWait hm]
  cases wouldHit s r.address with
  | true => simpa [Tally.add, counters] using hhits
  | false => simpa [Tally.add, counters] using hmisses

/-- Requests added one after another. -/
theorem Tally.add_add (n : Tally) (c : RunConfig) (h m h' m' : Nat) :
    (n.add c h m).add c h' m' = n.add c (h + h') (m + m') := by
  simp only [add, Tally.mk.injEq]
  refine ⟨by ring, by ring, by ring⟩

/-! ## The run -/

/-- A run that began with the counters `start` and `n` requests stands at `s` with those of `stream` not yet started: no step has
raised, and every request that was started took its steps (R341). -/
structure Tallied (start : Tally) (n : Nat) (c : RunConfig) (s : State) (stream : List Request) : Prop where
  inv : Inv s
  configured : s.configured = true
  noFault : s.fault = none
  cfg : s.cfg = c
  latchedInLine : ∀ r, s.latched = some r → crossesLine s.cfg s.geom r.address = false
  tally : ∃ h m, h + m + stream.length = n ∧ tally s = start.add c h m

section tallied

variable {start : Tally} {n : Nat} {c : RunConfig} {s : State} {stream : List Request} (h : Tallied start n c s stream)
include h

theorem Tallied.runInv : RunInv s := h.inv.run h.configured

/-- A step with a word of a request in its line goes on with the tally: a request that it starts is one hit or one miss more. -/
theorem Tallied.after_step {t : State} {r : Request} {rest : List Request} {xb : Bool} (hrun : s.halted = false)
    (hserves : Serves s r) (ht : RequestStep s t r xb)
    (hword : (s.busy = true ∧ s.latched = some r ∧ stream = rest) ∨ (s.busy = false ∧ stream = r :: rest)) :
    Tallied start n c t rest where
  inv := ht.inv
  configured := ht.configured
  noFault := ht.noFault
  cfg := ht.cfg.trans h.cfg
  latchedInLine := by
    rw [ht.cfg, ht.geom]
    intro q hq
    rcases ht.latched_cases with hnone | ⟨hsome, -⟩
    · simp [hnone] at hq
    · obtain rfl : r = q := Option.some.inj (hsome.symm.trans hq)
      exact hserves.inLine
  tally := by
    obtain ⟨hits, misses, hcount, htally⟩ := h.tally
    rw [ht.tally_eq h.runInv (h.runInv.cycles_lt_budget hrun)]
    rcases hword with ⟨-, hlatched, rfl⟩ | ⟨hb, rfl⟩
    · exact ⟨hits, misses, hcount, (tally_of_latched hlatched).symm.trans htally⟩
    · refine ⟨hits + (wouldHit s r.address).toNat, misses + (!wouldHit s r.address).toNat, ?_, ?_⟩
      · have hone : (wouldHit s r.address).toNat + (!wouldHit s r.address).toNat = 1 := by cases wouldHit s r.address <;> rfl
        rw [List.length_cons] at hcount
        omega
      · rw [countersAfter_of_start h.runInv hrun hb, ← tally_of_not_busy h.runInv hb, htally, h.cfg, Tally.add_add]

/-- The host's step goes on with the tally, or it starts a request that is never finished. -/
theorem Tallied.after_hostWord {t : State} {i : StepIn} {rest : List Request} (hrun : s.halted = false)
    (hword : hostWord s stream = some (i, rest)) (hstep : step (s.present (portOf i)) = .next t) :
    (∃ r, Stuck t r) ∨ Tallied start n c t rest := by
  have hready : s.Ready := ⟨h.configured, h.noFault, hrun⟩
  obtain ⟨r, rfl, hrequest⟩ := hostWord_some hword
  cases hcross : crossesLine s.cfg s.geom r.address with
  | true =>
    rcases hrequest with ⟨-, hlatched, -⟩ | ⟨hb, -⟩
    · simp [h.latchedInLine r hlatched] at hcross
    · exact .inl ⟨r, Stuck.of_start h.runInv hready hb hcross hstep⟩
  | false =>
    have hlatched : s.busy = true → s.latched = some r := fun hbusy => by
      rcases hrequest with ⟨-, hlatched, -⟩ | ⟨hb, -⟩
      · exact hlatched
      · simp [hb] at hbusy
    have hserves : Serves s r := ⟨h.inv, hready, hlatched, hcross⟩
    obtain ⟨u, hu, -, ht⟩ := hserves.exists_step (dutifulXb_signals s r rest)
    obtain rfl := Host.Outcome.next.inj (hu.symm.trans hstep)
    exact .inr (h.after_step hrun hserves ht hrequest)

/-- The run keeps its tally to where it stops, or it stops with a request that is never finished. -/
theorem Tallied.driveStream {fuel : Nat} {t : State} {left : List Request}
    (hdrive : driveStream fuel stream s = (.next t, left)) : (∃ r, Stuck t r) ∨ Tallied start n c t left := by
  refine driveStream_keeps (P := fun s stream => (∃ r, Stuck s r) ∨ Tallied start n c s stream) ?_ fuel (.inr h) hdrive
  rintro s t stream rest i (⟨r, hstuck⟩ | htallied) hrun - hword hstep
  · obtain ⟨q, rfl, ⟨-, hlatched, -⟩ | ⟨hb, -⟩⟩ := hostWord_some hword
    · obtain rfl : r = q := Option.some.inj (hstuck.latched.symm.trans hlatched)
      exact .inl ⟨r, hstuck.after_step hstep⟩
    · simp [hstuck.busy] at hb
  · exact htallied.after_hostWord hrun hword hstep

end tallied

/-- A dutiful host's run begins with an engine that takes commands and is not busy. -/
theorem Driving.of_ready {s : State} {stream : List Request} (hinv : Inv s) (hr : s.Ready) (hb : s.busy = false)
    (hline : ∀ r ∈ stream, crossesLine s.cfg s.geom r.address = false) : Driving s stream where
  inv := hinv
  configured := hr.configured
  noFault := hr.noFault
  overflow hhalted := by simp [hr.running] at hhalted
  streamInLine := hline
  latchedInLine r hl := by simp [(hinv.run hr.configured).latchedExactly.2 hb] at hl

/-- The tally of a run begins with the counters of an engine that is not busy. -/
theorem Tallied.of_ready {s : State} (hinv : Inv s) (hr : s.Ready) (hb : s.busy = false) (stream : List Request) :
    Tallied (counters s) stream.length s.cfg s stream where
  inv := hinv
  configured := hr.configured
  noFault := hr.noFault
  cfg := rfl
  latchedInLine r hl := by simp [(hinv.run hr.configured).latchedExactly.2 hb] at hl
  tally := ⟨0, 0, by omega, by simp [tally_of_not_busy (hinv.run hr.configured) hb, Tally.add]⟩

/-- The run's cycles so far and the work left are no more than its requests would take if every one missed. -/
theorem Tallied.cycles_add_workLeft_le {start : Tally} {n : Nat} {c : RunConfig} {s : State} {stream : List Request}
    (h : Tallied start n c s stream) : s.cycles.toNat + workLeft s stream ≤ start.cycles + n * requestSteps c false := by
  obtain ⟨hits, misses, rfl, htally⟩ := h.tally
  have hcycles : s.cycles.toNat + flightLeft s = start.cycles + hits * requestSteps c true + misses * requestSteps c false := by
    rw [← tally_cycles, htally, Tally.add]
  have hhits := Nat.mul_le_mul_left hits (requestSteps_le_miss c true)
  rw [workLeft, h.cfg, ← Nat.add_assoc, hcycles, Nat.add_mul, Nat.add_mul]
  omega

/-- A dutiful host's run that fits the budget ends with no request left: one that stops on the budget's last cycle has no work left. -/
theorem Driving.done_of_fits {s : State} {stream : List Request} (h : Driving s stream) (hend : runEnded s stream = true)
    (hfits : s.cycles.toNat + workLeft s stream ≤ s.cfg.budget.toNat) : stream = [] ∧ s.busy = false := by
  have hended : s.halted = true ∨ (stream = [] ∧ s.busy = false) := by simpa [runEnded, h.noFault] using hend
  rcases hended with hhalted | hdone
  · have hbudget := congrArg BitVec.toNat (h.runInv.haltedExactly.1 hhalted)
    exact h.done_of_no_work (by omega)
  · exact hdone

/-- Settles O53: a run that stops idle has finished all its requests, and their tally is the counters'; a run that fits the budget if
every request misses cannot be cut short by it. -/
theorem runTakesTheCyclesOfItsRequests : Obligations.RunTakesTheCyclesOfItsRequests := by
  intro s stream fuel hinv hr hb
  have hstart := Tallied.of_ready hinv hr hb stream
  constructor
  · intro t hdrive hidle
    rcases hstart.driveStream hdrive with ⟨r, hstuck⟩ | ht
    · simp [hstuck.busy] at hidle
    · obtain ⟨h, m, hcount, htally⟩ := ht.tally
      rw [tally_of_not_busy ht.runInv hidle] at htally
      exact ⟨ht.noFault, h, m, hcount, congrArg Tally.hits htally, congrArg Tally.misses htally, congrArg Tally.cycles htally⟩
  · intro hline hfuel hfits
    have hdriving := Driving.of_ready hinv hr hb hline
    have hnone : s.latched = none := (hinv.run hr.configured).latchedExactly.2 hb
    obtain ⟨t, left, hdrive, ht, hend, hcfg⟩ :=
      driveStream_ends fuel hdriving (by simpa [workLeft, flightLeft, hnone] using hfuel)
    rcases hstart.driveStream hdrive with ⟨r, hstuck⟩ | htallied
    · have hin := ht.latchedInLine r hstuck.latched
      simp [hstuck.crosses] at hin
    · obtain ⟨rfl, hidle⟩ := ht.done_of_fits hend (by rw [hcfg]; exact htallied.cycles_add_workLeft_le.trans hfits)
      exact ⟨t, hdrive, hidle⟩

end Sys2Proof.Machine
end

