-- ==== Sys2Proof/Proofs/ResetCommand.lean ====
section
/-! What RESET does with its configuration record: the first failing check in table order (70_reset_and_hazards.md R312), or every
field at its reset value (R310, R313; 10_state.md R43). -/

namespace Sys2Proof.Machine

/-! ## The checks, group by group -/

/-- Checks that pass are skipped. -/
theorem firstFailing_drop {checks : List (ConfigCheck × Bool)} (n : Nat) (h : ∀ check ∈ checks.take n, check.2 = false) :
    firstFailing checks = firstFailing (checks.drop n) := by
  induction n generalizing checks with
  | zero => rfl
  | succ n ih =>
    cases checks with
    | nil => rfl
    | cons check rest =>
      rw [List.take_succ_cons, List.forall_mem_cons] at h
      obtain ⟨hpass, hrest⟩ := h
      rw [firstFailing, hpass, List.drop_succ_cons, ← ih hrest]
      rfl

theorem isPowerOfTwo_iff_exists (n : Nat) : isPowerOfTwo n = true ↔ ∃ o, n = 2 ^ o := by
  rw [isPowerOfTwo_iff]
  refine ⟨fun h => ⟨_, h⟩, ?_⟩
  rintro ⟨o, rfl⟩
  rw [Nat.log2_two_pow]

/-- A multiple of 4 is `4 * 2^j` exactly when a quarter of it is `2^j` (R312 check 9). -/
theorem isPowerOfTwo_quarter_iff {n : Nat} (h : n % 4 = 0) : isPowerOfTwo (n / 4) = true ↔ ∃ j, n = 4 * 2 ^ j := by
  rw [isPowerOfTwo_iff_exists]
  exact exists_congr fun j => by omega

section checks

variable {c : RunConfig}

/-- A legal budget passes the first two checks. -/
theorem legality_of_budget (hne : c.budget.toNat ≠ 0) (hle : c.budget.toNat ≤ 2 ^ 64 - 3) :
    legality c = firstFailing ((configChecks c).drop 2) := by
  have hmax : decide (Config.maxBudget < c.budget.toNat) = false := decide_eq_false (Nat.not_lt.2 hle)
  exact firstFailing_drop 2 (by simp [configChecks, hne, hmax])

/-- A line size of at least 4 bytes that is a power of two passes the next three. -/
theorem legality_of_lineSize {o : Nat} (h : legality c = firstFailing ((configChecks c).drop 2)) (ho : 2 ≤ o)
    (hsize : c.lineSize.toNat = 2 ^ o) : legality c = firstFailing ((configChecks c).drop 5) := by
  have hdvd : 4 ∣ 2 ^ o := Nat.pow_dvd_pow 2 ho
  have hpow : isPowerOfTwo (2 ^ o) = true := (isPowerOfTwo_iff_exists _).2 ⟨o, rfl⟩
  rw [h, ← List.drop_drop (i := 3) (j := 2)]
  exact firstFailing_drop 3 (by simp [configChecks, hsize, hpow, Nat.mod_eq_zero_of_dvd hdvd])

/-- The number of lines is `2^j`, or under W4 four times that (R312 checks 6 to 9). -/
def LineCount (c : RunConfig) (j : Nat) : Prop :=
  (c.policy = .dm ∧ c.numLines.toNat = 2 ^ j) ∨ (c.policy = .w4 ∧ c.numLines.toNat = 4 * 2 ^ j)

/-- Such a number of lines passes the next four. -/
theorem legality_of_numLines {j : Nat} (h : legality c = firstFailing ((configChecks c).drop 5)) (hlines : LineCount c j) :
    legality c = firstFailing ((configChecks c).drop 9) := by
  have hpow : isPowerOfTwo (2 ^ j) = true := (isPowerOfTwo_iff_exists _).2 ⟨j, rfl⟩
  rw [h, ← List.drop_drop (i := 4) (j := 5)]
  rcases hlines with ⟨hp, hn⟩ | ⟨hp, hn⟩ <;> exact firstFailing_drop 4 (by simp [configChecks, hp, hn, hpow])

/-- The widths of the offset and the index are the two exponents (00_scope.md R11). -/
theorem widths_of_pow {o j : Nat} (hsize : c.lineSize.toNat = 2 ^ o) (hlines : LineCount c j) :
    (deriveGeometry c).offsetBits = o ∧ (deriveGeometry c).indexBits = j := by
  have hsets : numSetsOf c = 2 ^ j := by
    rcases hlines with ⟨hp, hn⟩ | ⟨hp, hn⟩
    · rw [numSetsOf_dm hp, hn]
    · rw [numSetsOf_w4 hp, hn]; omega
  simp only [deriveGeometry, hsize, hsets, Nat.log2_two_pow, and_self]

end checks

/-- Settles O8: the checks before a failing one are passed group by group, and the geometry's widths are the exponents. -/
theorem legalityReportsTheFirstFailingCheck : Obligations.LegalityReportsTheFirstFailingCheck := by
  intro c
  refine ⟨fun h => ?_, fun hne hgt => ?_, fun hne hle => ?_⟩
  · simp [legality, configChecks, firstFailing, h]
  · have hmax : Config.maxBudget < c.budget.toNat := hgt
    simp [legality, configChecks, firstFailing, hne, hmax]
  have hbudget := legality_of_budget hne hle
  refine ⟨fun h => ?_, fun h => ?_, fun hne hmod hpow => ?_, fun o ho hsize => ?_⟩
  · simp [hbudget, configChecks, firstFailing, h]
  · have hne : c.lineSize.toNat ≠ 0 := fun hzero => by simp [hzero] at h
    simp [hbudget, configChecks, firstFailing, hne, h]
  · rw [← isPowerOfTwo_iff_exists, Bool.not_eq_true] at hpow
    simp [hbudget, configChecks, firstFailing, hne, hmod, hpow]
  have hlineSize := legality_of_lineSize hbudget ho hsize
  refine ⟨fun h => ?_, fun hne hp hpow => ?_, fun hp hmod => ?_, fun hne hp hmod hpow => ?_,
    fun j (hlines : LineCount c j) => ?_⟩
  · simp [hlineSize, configChecks, firstFailing, h]
  · rw [← isPowerOfTwo_iff_exists, Bool.not_eq_true] at hpow
    simp [hlineSize, configChecks, firstFailing, hne, hp, hpow]
  · have hne : c.numLines.toNat ≠ 0 := fun hzero => by simp [hzero] at hmod
    simp [hlineSize, configChecks, firstFailing, hne, hp, hmod]
  · rw [← isPowerOfTwo_quarter_iff hmod, Bool.not_eq_true] at hpow
    simp [hlineSize, configChecks, firstFailing, hne, hp, hmod, hpow]
  have hnumLines := legality_of_numLines hlineSize hlines
  obtain ⟨hoffset, hindex⟩ := widths_of_pow hsize hlines
  refine ⟨fun h => ?_, fun h hc => ?_, fun h hc hm => ?_, fun h hc hm => ?_⟩
  · simp [hnumLines, configChecks, firstFailing, hoffset, hindex, Config.addressWidth, h]
  · simp [hnumLines, configChecks, firstFailing, hoffset, hindex, Config.addressWidth, Nat.not_lt.2 h, hc]
  · simp [hnumLines, configChecks, firstFailing, hoffset, hindex, Config.addressWidth, Nat.not_lt.2 h, hc, hm]
  · simp [hnumLines, configChecks, firstFailing, hoffset, hindex, Config.addressWidth, Nat.not_lt.2 h, hc, hm]

/-! ## The reset values -/

/-- After RESET the age of way `w` is `3 - w` (43_fourway_lru.md R185). -/
theorem initialAges_get {c : RunConfig} {f : Four (BitVec 2)} (h : f ∈ initialAges c) (w : Fin 4) :
    (f.get w).toNat = 3 - w.val := by
  cases hp : c.policy with
  | dm => simp [initialAges, hp] at h
  | w4 =>
    simp only [initialAges, hp] at h
    obtain rfl := List.eq_of_mem_replicate h
    revert w
    decide

/-- After RESET the policy's storage has the size of the configuration, and the other one does not exist (10_state.md R26 to R28). -/
theorem startRun_sizes {c : RunConfig} (h : LegalRecord c) (s : State) :
    (c.policy = .dm → (startRun c s).dm.length = c.numLines.toNat ∧ (startRun c s).w4 = [] ∧ (startRun c s).age = []) ∧
      (c.policy = .w4 → (startRun c s).dm = [] ∧ 4 * (startRun c s).w4.length = c.numLines.toNat ∧
        (startRun c s).age.length = (startRun c s).w4.length) := by
  have hstorage := startRun_storage h s
  constructor
  · intro hp
    exact ⟨by simpa [startRun, hp] using hstorage.lineCount, by simp [startRun, emptySets, hp],
      by simp [startRun, initialAges, hp]⟩
  · intro hp
    have hsets : (startRun c s).w4.length = (deriveGeometry c).numSets := by simpa [startRun, hp] using hstorage.setCount
    exact ⟨by simp [startRun, emptyLines, hp], hsets ▸ h.four_mul_numSets hp, hstorage.ageCount⟩

/-- Settles O6: the registers are those that `startRun` writes, and the storage has the shape of the configuration. -/
theorem legalResetSetsResetValues : Obligations.LegalResetSetsResetValues := by
  intro c s hc
  have h : LegalRecord c := (legality_eq_none_iff c).1 hc
  obtain ⟨hdm, hw4⟩ := startRun_sizes h s
  have hempty : ∀ p l, slotLine (startRun c s) p = some l → l.valid = false ∧ l.data.length = c.lineSize.toNat := by
    intro p l hl
    obtain ⟨j, rfl⟩ := slotLine_startRun hl
    obtain ⟨hvalid, hdata, -⟩ := emptyLine_shape h s.draws j
    exact ⟨hvalid, hdata⟩
  exact ⟨startRun c s, exec_reset_of_legal hc s, rfl, rfl, rfl, rfl, hdm, hw4, hempty, fun f hf => initialAges_get hf,
    rfl, rfl, rfl, rfl, rfl, rfl, rfl, rfl, rfl, rfl, rfl, rfl, rfl, rfl, rfl, rfl, rfl, fun _ => rfl, rfl, rfl⟩

end Sys2Proof.Machine
end

