-- ==== Sys2Proof/Proofs/HoldCheck.lean ====
section
/-! The hold check (70_reset_and_hazards.md R330): a CONTINUE that does not repeat the request in flight raises RequestNotHeld. -/

namespace Sys2Proof.Machine

/-- What breaks the hold (R330): no request, another direction, another address, or for a write other data. -/
theorem requestHeld_eq_false_iff (i : StepIn) (q : Request) :
    requestHeld i q = false ↔
      i.v = false ∨ i.w ≠ q.isWrite ∨ i.addr ≠ q.address ∨ (q.isWrite = true ∧ i.data ≠ q.data) := by
  simp [requestHeld, imp_iff_not_or, or_assoc]

/-- Settles O32: the step stops at the hold check, before it has changed anything. -/
theorem unheldRequestRaises : Obligations.UnheldRequestRaises := by
  intro s q xb v w a d hr hb hq hbroken
  have hheld : requestHeld (Instr.cont xb v w a d).stepIn q = false := (requestHeld_eq_false_iff _ q).2 hbroken
  exact ⟨engineStep_unheld hr hb hq hheld, rfl⟩

end Sys2Proof.Machine
end
